-- ==== Sys2Proof/Word.lean ====
section
/-!
DEFINITION. The word types of the block (00_scope.md R14, R15): 32-bit words, 40-bit command frames, bytes of a
byte transport, and fields of a word.
-/

namespace Sys2Proof

/-- A u32, and the type of the response word (00_scope.md R14). -/
abbrev Word := BitVec 32

/-- The binary32 encoding of an f32; `bits32` and `f32of` are the identity on it (00_scope.md R15). -/
abbrev F32 := BitVec 32

/-- One command frame (30_encoding.md R130). -/
abbrev Frame := BitVec 40

/-- One byte of a byte transport (20_memory.md R105). -/
abbrev Byte := BitVec 8

end Sys2Proof
end

