-- ==== Sys2Proof/Config.lean ====
section
/-!
DEFINITION. What an implementation of the block fixes: the constants of 00_scope.md R10, the open parameters of
R11 and R12 as one record of plain data, and the values the spec leaves open, as constants without a body.
-/

namespace Sys2Proof

/-- The state type `ModState` of the modulation source (00_scope.md R12, 10_state.md R58). The Lorenz source has the
three f32 lx, ly, lz; any other source has `words`, as many words as its own state needs. The source that MOD_SOURCE
selects reads and writes its own part alone. -/
structure ModState where
  lx : F32
  ly : F32
  lz : F32
  words : List Word
  deriving DecidableEq, Repr, Inhabited

/-- The instance of the elementary functions sinF, tanhF, powF (40_numerics.md R142, R143, R144): the correctly
rounded reference functions, or any other instance, which is named by a number and has no body. -/
inductive FnInstance where
  | reference
  | other (k : Nat)
  deriving DecidableEq, Repr

/-- The parameter MOD_SOURCE (00_scope.md R12): the Lorenz reference source of 42_cascade.md R206, or any other
source, with a state of its own of any number of words, which is named by a number and has no body. -/
inductive ModSource where
  | lorenz
  | other (k : Nat)
  deriving DecidableEq, Repr

/-- The open parameters of 00_scope.md R11 and R12. CMD_LATENCY is not among them: the input of the clock edge
that accepts a frame gives it (20_memory.md R101). -/
structure Params where
  sampleRate : F32
  fMin : F32
  fMax : F32
  defaultFreq : F32
  combCap : Nat
  apCap : Nat
  chaosFloor : F32
  tremDepth : F32
  vibDepth : F32
  foldDrive : F32
  foldMaxIter : Nat
  impulseAmp : F32
  burstInit : F32
  excDecay : F32
  dampMax : F32
  masterGain : F32
  safetyBound : F32
  retriggerFromZero : Bool
  fns : FnInstance
  modSource : ModSource
  deriving DecidableEq, Repr

/-- The default values of 00_scope.md R11 and R12: SAMPLE_RATE 44100.0, F_MIN 20.0, F_MAX 4000.0,
DEFAULT_FREQ 220.0, COMB_CAP 4096, AP_CAP 2048, CHAOS_FLOOR 0.15, TREM_DEPTH 1.0, VIB_DEPTH 0.02,
FOLD_DRIVE 4.0, FOLD_MAX_ITER 16, IMPULSE_AMP 1.0, BURST_INIT 0.5, EXC_DECAY 0.998, DAMP_MAX 0.95,
MASTER_GAIN 0.8, SAFETY_BOUND 1.5, RETRIGGER_FROM_ZERO true, the reference functions, the Lorenz source. -/
def Params.default : Params where
  sampleRate := 0x472C4400
  fMin := 0x41A00000
  fMax := 0x457A0000
  defaultFreq := 0x435C0000
  combCap := 4096
  apCap := 2048
  chaosFloor := 0x3E19999A
  tremDepth := 0x3F800000
  vibDepth := 0x3CA3D70A
  foldDrive := 0x40800000
  foldMaxIter := 16
  impulseAmp := 0x3F800000
  burstInit := 0x3F000000
  excDecay := 0x3F7F7CEE
  dampMax := 0x3F733333
  masterGain := 0x3F4CCCCD
  safetyBound := 0x3FC00000
  retriggerFromZero := true
  fns := .reference
  modSource := .lorenz

namespace Config

/-- COMB_MIN of 00_scope.md R10: the minimum comb length in samples. -/
def combMin : Nat := 8

/-- AP_MIN of 00_scope.md R10: the minimum allpass length in samples. -/
def apMin : Nat := 4

/-- The four basic operations, as names for the free NaN below. -/
inductive BasicOp where
  | add
  | mul
  | div
  deriving DecidableEq, Repr

/-- FREE VALUE (log entry 3). The sign and payload of a NaN that a basic operation produces: "The NaN payload is
not specified, and no rule reads it" (40_numerics.md R141; 93_implementation_defined.md P3, any value). -/
opaque nanBits : BasicOp → F32 → F32 → F32

/-- FREE VALUE (log entry 3). The sign and payload of a NaN that sinF or tanhF answers
(40_numerics.md R142, R143). -/
opaque nanOfFn : F32 → F32

/-- FREE VALUE (log entry 4). powF of a base or an exponent outside its stated domain: "It is used only with a
finite base b > 0 and a finite exponent e" (40_numerics.md R144). -/
opaque powOutside : F32 → F32 → F32

/-- FREE VALUE (log entry 5). floorI and roundI of a NaN or an infinity: "no rule applies them to NaN or infinity"
(40_numerics.md R145). -/
opaque intOutside : F32 → Int

/-- FREE VALUE (log entry 2). The sine of another instance of 40_numerics.md R142, by the instance's number. -/
opaque otherSin : Nat → F32 → F32

/-- FREE VALUE (log entry 2). The hyperbolic tangent of another instance of 40_numerics.md R143, for arguments
of either sign cleared, before the model makes it odd and monotone. -/
opaque otherTanh : Nat → F32 → F32

/-- FREE VALUE (log entry 2). The power of another instance of 40_numerics.md R144, before the model makes it
monotone in the exponent. -/
opaque otherPow : Nat → F32 → F32 → F32

/-- FREE VALUE (log entry 16). The initial state `mod_init` of another modulation source (00_scope.md R12). -/
opaque otherModInit : Nat → List Word

/-- FREE VALUE (log entry 16). The next state of another modulation source (00_scope.md R12). -/
opaque otherModNext : Nat → List Word → List Word

/-- FREE VALUE (log entry 16). The output of another modulation source before the model holds it in [-1.0, 1.0]
(00_scope.md R12). -/
opaque otherModOut : Nat → List Word → F32

end Config

end Sys2Proof
end

