-- ==== Sys2Proof/Machine/Float.lean ====
section
/-!
DEFINITION. binary32 arithmetic (40_numerics.md R140, R141, R145, R149, R164, R167). A finite f32 is a whole multiple of
2^-149, so its value is the integer `units`. An operation computes exactly on those integers and rounds once.
-/

namespace Sys2Proof.Machine

/-- The encoding without its sign bit; also the rank of the magnitude among the f32 magnitudes (R140). -/
def magBits (x : F32) : Nat := x.toNat % 2 ^ 31

/-- The sign bit, bit 31 (R140). -/
def signBit (x : F32) : Bool := x.getLsbD 31

/-- The magnitude bits of an infinity: exponent 255, fraction 0. -/
def infMag : Nat := 0x7F800000

/-- A NaN: exponent 255 with a fraction that is not 0 (R140). -/
def isNaN (x : F32) : Bool := decide (infMag < magBits x)

/-- An infinity of either sign (R140). -/
def isInf (x : F32) : Bool := magBits x == infMag

/-- Neither a NaN nor an infinity (R149). -/
def isFinite (x : F32) : Bool := decide (magBits x < infMag)

/-- The magnitude that magnitude bits encode, in units of 2^-149: the fraction alone when the exponent is 0
(subnormals are kept, R141), else with the hidden bit, shifted by the exponent less 1. -/
def unitsOfMag (m : Nat) : Nat :=
  if m < 2 ^ 23 then m else (2 ^ 23 + m % 2 ^ 23) * 2 ^ (m / 2 ^ 23 - 1)

/-- The magnitude of a finite f32 in units of 2^-149; for an infinity a number above every finite one. -/
def magUnits (x : F32) : Nat := unitsOfMag (magBits x)

/-- The value of a finite f32 in units of 2^-149, and the rank of an infinity among them. -/
def units (x : F32) : Int := if signBit x then -(magUnits x : Int) else (magUnits x : Int)

/-- p / q rounded to the nearest integer, ties to even (R141). -/
def roundQuot (p q : Nat) : Nat :=
  if q < 2 * (p % q) ∨ (2 * (p % q) = q ∧ (p / q) % 2 = 1) then p / q + 1 else p / q

/-- The magnitude bits of the f32 nearest to p / q units of 2^-149, ties to even; infinity from half an ulp above
the largest finite number on (R141). The rounded significand carries into the exponent by itself. -/
def roundMag (p q : Nat) : Nat :=
  min infMag ((Nat.log2 (p / q) - 23) * 2 ^ 23 + roundQuot p (q * 2 ^ (Nat.log2 (p / q) - 23)))

/-- The f32 of a sign and magnitude bits. -/
def pack (s : Bool) (m : Nat) : F32 := BitVec.ofNat 32 (if s then 2 ^ 31 + m else m)

/-- The f32 nearest to (-1)^s × p / q units of 2^-149. -/
def roundTo (s : Bool) (p q : Nat) : F32 := pack s (roundMag p q)

/-- A NaN whose sign and payload are those of w where w is one, so that every NaN can result (log entry 3). -/
def nanFrom (w : F32) : F32 := if isNaN w then w else 0x7FC00000

/-- The NaN that a basic operation answers; its payload is a free value (R141). -/
def nanOf (op : Config.BasicOp) (x y : F32) : F32 := nanFrom (Config.nanBits op x y)

/-- x with its sign changed. -/
def fNeg (x : F32) : F32 := x ^^^ 0x80000000

/-- x + y (R141): a NaN operand or Inf - Inf gives a NaN; an exact zero sum is +0 unless both are negative zeros. -/
def fAdd (x y : F32) : F32 :=
  if isNaN x || isNaN y then nanOf .add x y
  else if isInf x then (if isInf y && signBit x != signBit y then nanOf .add x y else x)
  else if isInf y then y
  else if units x + units y = 0 then pack (signBit x && signBit y) 0
  else roundTo (decide (units x + units y < 0)) (units x + units y).natAbs 1

/-- x - y, which is x + (-y) (R141). -/
def fSub (x y : F32) : F32 := fAdd x (fNeg y)

/-- x × y (R141): a NaN operand or 0 × Inf gives a NaN. -/
def fMul (x y : F32) : F32 :=
  if isNaN x || isNaN y then nanOf .mul x y
  else if isInf x || isInf y then
    (if magBits x == 0 || magBits y == 0 then nanOf .mul x y else pack (signBit x != signBit y) infMag)
  else roundTo (signBit x != signBit y) (magUnits x * magUnits y) (2 ^ 149)

/-- x / y (R141): a NaN operand, 0/0 or Inf/Inf gives a NaN; x/0 a signed infinity; a finite x / Inf a signed zero. -/
def fDiv (x y : F32) : F32 :=
  if isNaN x || isNaN y then nanOf .div x y
  else if isInf x then (if isInf y then nanOf .div x y else pack (signBit x != signBit y) infMag)
  else if isInf y then pack (signBit x != signBit y) 0
  else if magBits y == 0 then
    (if magBits x == 0 then nanOf .div x y else pack (signBit x != signBit y) infMag)
  else roundTo (signBit x != signBit y) (magUnits x * 2 ^ 149) (magUnits y)

/-- x < y, false for a NaN operand; -0.0 equals +0.0 (R167). -/
def fLt (x y : F32) : Bool := !isNaN x && !isNaN y && decide (units x < units y)

/-- x <= y, false for a NaN operand (R167). -/
def fLe (x y : F32) : Bool := !isNaN x && !isNaN y && decide (units x ≤ units y)

/-- x > y (R167). -/
def fGt (x y : F32) : Bool := fLt y x

/-- x >= y (R167). -/
def fGe (x y : F32) : Bool := fLe y x

/-- The greatest integer <= x (R145), for every finite x; a free value for a NaN or an infinity (log entry 5). -/
def floorI (x : F32) : Int := if isFinite x then units x / 2 ^ 149 else Config.intOutside x

/-- The integer nearest to x, ties away from zero (R145), for every finite x; a free value for a NaN or an infinity
(log entry 5). -/
def roundI (x : F32) : Int :=
  if isFinite x then
    (if signBit x then -(((2 * magUnits x + 2 ^ 149) / 2 ^ 150 : Nat) : Int) else ((2 * magUnits x + 2 ^ 149) / 2 ^ 150 : Nat))
  else Config.intOutside x

/-- `f32i(n)`: the f32 of an int, exact for |n| <= 2^24 (R145); beyond, the nearest f32, which no rule uses
(log entry 6). -/
def f32i (n : Int) : F32 := roundTo (decide (n < 0)) (n.natAbs * 2 ^ 149) 1

/-- The f32 nearest to the decimal (-1)^neg × digits × 10^exp10, ties to even (00_scope.md R14, 40_numerics.md R163). -/
def f32OfDecimal (neg : Bool) (digits : Nat) (exp10 : Int) : F32 :=
  if 0 ≤ exp10 then roundTo neg (digits * 10 ^ exp10.toNat * 2 ^ 149) 1
  else roundTo neg (digits * 2 ^ 149) (10 ^ (-exp10).toNat)

end Sys2Proof.Machine
end

