-- ==== Sys2Proof/Machine/Numerics.lean ====
section
/-!
DEFINITION. The literals and the shared datapath functions that need no elementary function: clamps, minimum, maximum,
absolute value, phase wrap, triangle fold and crossfade (40_numerics.md R145 to R148, R160, R161, R163, R166).
-/

namespace Sys2Proof.Machine

/-- 0.0 -/
def lit0 : F32 := 0x00000000
/-- 1.0 -/
def lit1 : F32 := 0x3F800000
/-- -1.0 -/
def litNeg1 : F32 := 0xBF800000
/-- 2.0 -/
def lit2 : F32 := 0x40000000
/-- -2.0 -/
def litNeg2 : F32 := 0xC0000000
/-- 0.001 (R163) -/
def lit0_001 : F32 := 0x3A83126F
/-- 0.01 (R163) -/
def lit0_01 : F32 := 0x3C23D70A
/-- 0.05 (R163) -/
def lit0_05 : F32 := 0x3D4CCCCD
/-- 0.1 (R163) -/
def lit0_1 : F32 := 0x3DCCCCCD
/-- 0.0001 (R163) -/
def lit0_0001 : F32 := 0x38D1B717
/-- 0.125 (R163) -/
def lit0_125 : F32 := 0x3E000000
/-- 0.15 (R163) -/
def lit0_15 : F32 := 0x3E19999A
/-- 0.25 (R163) -/
def lit0_25 : F32 := 0x3E800000
/-- 0.42 (R163) -/
def lit0_42 : F32 := 0x3ED70A3D
/-- 0.45 (R163), AA_FRACTION of 00_scope.md R10 -/
def lit0_45 : F32 := 0x3EE66666
/-- 0.5 (R163), AP_G of 00_scope.md R10 -/
def lit0_5 : F32 := 0x3F000000
/-- -0.5 (44_resonator.md R281) -/
def litNeg0_5 : F32 := 0xBF000000
/-- 0.75 (R163) -/
def lit0_75 : F32 := 0x3F400000
/-- 0.9 (R163), FM_FB_MAX of 00_scope.md R10 -/
def lit0_9 : F32 := 0x3F666666
/-- 0.999 (R163), METER_KEEP of 00_scope.md R10 -/
def lit0_999 : F32 := 0x3F7FBE77
/-- 1.333 (R163) -/
def lit1_333 : F32 := 0x3FAA9FBE
/-- 1.5 (R163) -/
def lit1_5 : F32 := 0x3FC00000
/-- 2.6666667 (R163) -/
def lit2_6666667 : F32 := 0x402AAAAB
/-- 5.75 (R163) -/
def lit5_75 : F32 := 0x40B80000
/-- 7.0, MAX_HARMONICS - 1 (42_cascade.md R210) -/
def lit7 : F32 := 0x40E00000
/-- 10.0, RES_BOOST of 00_scope.md R10, and sigma of 42_cascade.md R206 -/
def lit10 : F32 := 0x41200000
/-- 28.0 (42_cascade.md R206) -/
def lit28 : F32 := 0x41E00000
/-- TWO_PI (R163) -/
def litTwoPi : F32 := 0x40C90FDB
/-- IDX_RATIO, 53.333333 (R163) -/
def litIdxRatio : F32 := 0x42555555
/-- 800.0 (R163) -/
def lit800 : F32 := 0x44480000
/-- 2000.0 (R163) -/
def lit2000 : F32 := 0x44FA0000

/-- `clampF(x, lo, hi)` (R146): a NaN becomes the lower bound, and -0.0 stays -0.0 at a bound of 0.0. -/
def clampF (x lo hi : F32) : F32 :=
  if isNaN x then lo else if fLt x lo then lo else if fGt x hi then hi else x

/-- `clampI(n, lo, hi)` (R146). -/
def clampI (n lo hi : Int) : Int := if n < lo then lo else if hi < n then hi else n

/-- The clamp of a normalised control to [0.0, 1.0] (R146, 10_state.md R42). -/
def clamp01 (x : F32) : F32 := clampF x lit0 lit1

/-- `maxF(a, b)`: a NaN b yields a (R147). -/
def maxF (a b : F32) : F32 := if fGt b a then b else a

/-- `minF(a, b)`: a NaN b yields a (R147). -/
def minF (a b : F32) : F32 := if fLt b a then b else a

/-- `absF(x)`: bit 31 cleared (R147). -/
def absF (x : F32) : F32 := x &&& 0x7FFFFFFF

/-- `wrap01(p)`: p less its integer part (R148). -/
def wrap01 (p : F32) : F32 := fSub p (f32i (floorI p))

/-- One reflection of the triangle fold (R160). -/
def foldOnce (y : F32) : F32 := if fGt y lit1 then fSub lit2 y else fSub litNeg2 y

/-- `triFold(y)` with at most `k` reflections (R160). -/
def triFold : Nat → F32 → F32
  | 0, y => y
  | k + 1, y => if fGt y lit1 || fLt y litNeg1 then triFold k (foldOnce y) else y

/-- `foldMix(x, w)` (R161): drive, fold, crossfade. -/
def foldMix (c : Params) (x w : F32) : F32 :=
  fAdd (fMul (fSub lit1 w) x)
    (fMul w (triFold c.foldMaxIter (fMul x (fAdd lit1 (fMul c.foldDrive w)))))

/-- The fold stage with its threshold: no fold unless w > 0.01 (42_cascade.md R209, 43_fm.md R248). -/
def foldStage (c : Params) (x w : F32) : F32 := if fGt w lit0_01 then foldMix c x w else x

/-- `linMap(x, lo, span)` (R166). -/
def linMap (x lo span : F32) : F32 := fAdd lo (fMul x span)

end Sys2Proof.Machine
end

