-- ==== Sys2Proof/Machine/Elementary.lean ====
section
/-!
DEFINITION. sinF, tanhF and powF (40_numerics.md R142, R143, R144), softclip (R162) and expMap (R165). The reference
instances are computed with integers in units of 2^-192 and rounded once (log entry 2); any other instance is a
constant without a body, held to the stated bounds.
-/

namespace Sys2Proof.Machine

/-- 1.0 in the fixed-point format of the reference functions: 192 fraction bits. -/
def fixOne : Nat := 2 ^ 192

/-- ln 2 × 2^192, rounded down. -/
def fixLn2 : Nat := 0xb17217f7d1cf79abc9e3b39803f2f6af40f343267298b62d

/-- (pi / 2) × 2^384, rounded down: enough for the range reduction of every finite f32. -/
def halfPi384 : Nat :=
  0x1921fb54442d18469898cc51701b839a252049c1114cf98e804177d4c76273644a29410f31c6809bbdf2a33679a748636

/-- The Taylor series of exp at r, `k` terms from the j-th on: 1 + r/j × (1 + r/(j+1) × …). -/
def expSeries (r : Nat) : Nat → Nat → Nat
  | 0, _ => fixOne
  | k + 1, j => fixOne + r * expSeries r k (j + 1) / (j * fixOne)

/-- The alternating series 1 - r2/(d(d+1)) × (1 - r2/((d+2)(d+3)) × …), `k` terms: with d = 2 it is sin(r)/r, with
d = 1 it is cos(r), for r2 = r squared. -/
def altSeries (r2 : Nat) : Nat → Nat → Nat
  | 0, _ => fixOne
  | k + 1, d => fixOne - r2 * altSeries r2 k (d + 2) / (d * (d + 1) * fixOne)

/-- The series of artanh(z)/z, `k` terms from the j-th on: 1/(2j+1) + z2 × (1/(2j+3) + …), for z2 = z squared. -/
def artanhSeries (z2 : Nat) : Nat → Nat → Nat
  | 0, _ => 0
  | k + 1, j => fixOne / (2 * j + 1) + z2 * artanhSeries z2 k (j + 1) / fixOne

/-- exp(r) for 0 <= r < 1, fixed point. -/
def fixExp (r : Nat) : Nat := expSeries r 48 1

/-- sin(r) for 0 <= r <= pi/2, fixed point. -/
def fixSin (r : Nat) : Nat := r * altSeries (r * r / fixOne) 30 2 / fixOne

/-- cos(r) for 0 <= r <= pi/2, fixed point. -/
def fixCos (r : Nat) : Nat := altSeries (r * r / fixOne) 30 1

/-- The natural logarithm of n × 2^-149, n > 0, fixed point: n = 2^L × m with 1 <= m < 2,
ln m = 2 artanh((m - 1)/(m + 1)). -/
def fixLn (n : Nat) : Int :=
  let m := n * fixOne / 2 ^ Nat.log2 n
  let z := (m - fixOne) * fixOne / (m + fixOne)
  (2 * z * artanhSeries (z * z / fixOne) 64 0 / fixOne : Nat) + ((Nat.log2 n : Int) - 149) * fixLn2

/-- Magnitudes below 2^-13 (in units of 2^-149): there sin x and tanh x round to x. -/
def smallArg : Nat := 2 ^ 136

/-- The reduction of an argument of n × 2^-149 by multiples of pi/2: the quadrant, and the rest in fixed point. -/
def quadrant (n : Nat) : Nat × Nat :=
  (n * 2 ^ 235 / halfPi384 % 4, n * 2 ^ 235 % halfPi384 / 2 ^ 192)

/-- The binary32 value nearest to the real sine of a finite x (R142, reference instance). -/
def sinRef (x : F32) : F32 :=
  if magUnits x < smallArg then x
  else
    let q := (quadrant (magUnits x)).1
    let r := (quadrant (magUnits x)).2
    let v := if q % 2 = 0 then fixSin r else fixCos r
    roundTo (signBit x != decide (2 ≤ q)) (v * 2 ^ 149) fixOne

/-- The binary32 value nearest to the real tanh of a finite x >= 0 (R143, reference instance):
(e^2x - 1)/(e^2x + 1), and 1.0 from 10.0 on. -/
def tanhRef (x : F32) : F32 :=
  if magUnits x < smallArg then x
  else if 10 * 2 ^ 149 ≤ magUnits x then lit1
  else
    let y := magUnits x * 2 ^ 44
    let e := fixExp (y % fixLn2) * 2 ^ (y / fixLn2)
    roundTo false ((e - fixOne) * 2 ^ 149) (e + fixOne)

/-- The binary32 value nearest to the real b^e for finite b > 0 and finite e (R144, reference instance):
exp(e × ln b). The rounding to 152 fraction bits before the last rounding lets an exact tie be seen as one. -/
def powRef (b e : F32) : F32 :=
  let y : Int := units e * fixLn (magUnits b) / 2 ^ 149
  let k : Int := y / fixLn2
  let v := (fixExp (y - k * fixLn2).toNat + 2 ^ 39) / 2 ^ 40 * 2 ^ 40
  if 200 < k then pack false infMag
  else if k < -400 then pack false 0
  else if 0 ≤ k + 149 then roundTo false (v * 2 ^ (k + 149).toNat) fixOne
  else roundTo false v (fixOne * 2 ^ (-(k + 149)).toNat)

/-- `sinF` (R142): NaN for a NaN or an infinity, x for a zero, and held in [-1.0, 1.0] for every instance. -/
def sinF (i : FnInstance) (x : F32) : F32 :=
  if !isFinite x then nanFrom (Config.nanOfFn x)
  else if magBits x == 0 then x
  else
    match i with
    | .reference => clampF (sinRef x) litNeg1 lit1
    | .other k => clampF (Config.otherSin k x) litNeg1 lit1

/-- The greatest of f 0, f 1, …, f n: monotone in n, and f itself where f is monotone. -/
def runMax (f : Nat → Nat) : Nat → Nat
  | 0 => f 0
  | n + 1 => max (runMax f n) (f (n + 1))

/-- The magnitude instance k gives tanh at the f32 of magnitude n, held in [0.0, min(|x|, 1.0)] (R143). -/
def otherTanhMag (k n : Nat) : Nat := min (magBits (Config.otherTanh k (BitVec.ofNat 32 n))) (min n (magBits lit1))

/-- `tanhF` (R143): NaN for a NaN, ±1.0 for an infinity; computed on |x| and given the sign of x, so that it is odd;
held in [0.0, min(|x|, 1.0)] there for every instance, and monotone: another instance is the running maximum of its
constant, which is the constant itself where that is monotone. -/
def tanhF (i : FnInstance) (x : F32) : F32 :=
  if isNaN x then nanFrom (Config.nanOfFn x)
  else if isInf x then pack (signBit x) (magBits lit1)
  else
    match i with
    | .reference => pack (signBit x) (magBits (clampF (tanhRef (absF x)) lit0 (minF lit1 (absF x))))
    | .other k => pack (signBit x) (runMax (otherTanhMag k) (magBits x))

/-- The lower bound R144 sets powF by its monotonicity and its values at the exponents 0 and 1: between them the
smaller of 1.0 and b, beyond them 1.0, b, or the least positive f32; for b = 1.0, of which R144 says no more, the
least positive f32. -/
def powLo (b e : F32) : F32 :=
  if fGt b lit1 then (if fGt e lit1 then b else if fLt e lit0 then 0x00000001 else lit1)
  else if fLt b lit1 then (if fGt e lit1 then 0x00000001 else if fLt e lit0 then lit1 else b)
  else 0x00000001

/-- The upper bound R144 sets powF in the same way. -/
def powHi (b e : F32) : F32 :=
  if fGt b lit1 then (if fGt e lit1 then 0x7F800000 else if fLt e lit0 then lit1 else b)
  else if fLt b lit1 then (if fGt e lit1 then b else if fLt e lit0 then 0x7F800000 else lit1)
  else 0x7F800000

/-- The place of an exponent in the order of the f32, counted from -infinity; both zeros have one place. -/
def placeOf (e : F32) : Nat := if signBit e then infMag - magBits e else infMag + magBits e

/-- The exponent at a place. -/
def atPlace (n : Nat) : F32 := if n < infMag then pack true (infMag - n) else pack false (n - infMag)

/-- The exponents in the order in which R144 says powF does not fall: rising for b > 1, falling for b < 1. -/
def powOrder (b e : F32) : F32 := if fLt b lit1 then fNeg e else e

/-- The magnitude instance k gives b^e, within the bounds of R144. -/
def otherPowMag (k : Nat) (b e : F32) : Nat := magBits (clampF (Config.otherPow k b e) (powLo b e) (powHi b e))

/-- `powF` (R144), for finite b > 0 and finite e: 1.0 at an exponent 0, b at 1.0, held between the bounds of R144 for
every instance, and monotone in e: another instance is the running maximum of its constant over the exponents in the
order of `powOrder`, which is the constant itself where that is monotone; at b = 1.0 it is the constant. Outside that
domain it is a free value (log entry 4). -/
def powF (i : FnInstance) (b e : F32) : F32 :=
  if !isFinite b || !isFinite e || !fGt b lit0 then Config.powOutside b e
  else if magBits e == 0 then lit1
  else if e == lit1 then b
  else
    match i with
    | .reference => clampF (powRef b e) (powLo b e) (powHi b e)
    | .other k =>
      if b == lit1 then pack false (otherPowMag k b e)
      else pack false (runMax (fun n => otherPowMag k b (powOrder b (atPlace n))) (placeOf (powOrder b e)))

/-- `softclip(x) = tanhF(x)` (R162). -/
def softclip (c : Params) (x : F32) : F32 := tanhF c.fns x

/-- `expMap(x, lo, ratio)` (R165). -/
def expMap (c : Params) (x lo ratio : F32) : F32 := fMul lo (powF c.fns ratio x)

end Sys2Proof.Machine
end

