-- ==== Sys2Proof/Machine/Tuning.lean ====
section
/-!
DEFINITION. The functions that derive a value from control registers, frequencies and parameters: envelope rates,
delay lengths, parameter maps and the modulation source. They read no state; State.reset and the meanings share them.
-/

namespace Sys2Proof.Machine

/-- `env.attack_rate` as a function of the register ATTACK (41_envelope.md R170). -/
def attackRateOf (c : Params) (attack : F32) : F32 :=
  fDiv lit1 (fMul (expMap c attack lit0_001 lit2000) c.sampleRate)

/-- `env.decay_coeff` as a function of the register DECAY (41_envelope.md R171). -/
def decayCoeffOf (c : Params) (decay : F32) : F32 :=
  powF c.fns lit0_001 (fDiv lit1 (fMul (expMap c decay lit0_01 lit800) c.sampleRate))

/-- The clamp of a frequency to the playable range (45_engine.md R310, 42_cascade.md R204). -/
def clampFreq (c : Params) (f : F32) : F32 := clampF f c.fMin c.fMax

/-- `numHarmonics(spread)` (42_cascade.md R210). -/
def numHarmonics (spread : F32) : Nat := (1 + floorI (fMul spread lit7)).toNat

/-- `baseAmp(n, cascade)` (42_cascade.md R211). -/
def baseAmp (n cascade : F32) : F32 := fAdd lit1 (fMul cascade (fSub (fDiv lit1 n) lit1))

/-- `cm` of `chaosMul`: chaos × m × w with w = n × 0.125 (42_cascade.md R212). -/
def chaosDepth (n chaos m : F32) : F32 := fMul (fMul chaos m) (fMul n lit0_125)

/-- `trem` of `chaosMul(n, chaos, m)` (42_cascade.md R212). -/
def tremMul (c : Params) (n chaos m : F32) : F32 :=
  maxF c.chaosFloor (fAdd lit1 (fMul (chaosDepth n chaos m) c.tremDepth))

/-- `vib` of `chaosMul(n, chaos, m)` (42_cascade.md R212). -/
def vibMul (c : Params) (n chaos m : F32) : F32 :=
  maxF c.chaosFloor (fAdd lit1 (fMul (chaosDepth n chaos m) c.vibDepth))

/-- `limit`, the anti-aliasing limit (42_cascade.md R209, R213). -/
def aaLimit (c : Params) : F32 := fMul lit0_45 c.sampleRate

/-- One step of the Lorenz reference source (42_cascade.md R206). -/
def lorenzNext (s : ModState) : ModState where
  words := s.words
  lx := fAdd s.lx (fMul (fMul lit10 (fSub s.ly s.lx)) lit0_0001)
  ly := fAdd s.ly (fMul (fSub (fMul s.lx (fSub lit28 s.lz)) s.ly) lit0_0001)
  lz := fAdd s.lz (fMul (fSub (fMul s.lx s.ly) (fMul lit2_6666667 s.lz)) lit0_0001)

/-- `mod_init` (42_cascade.md R207). -/
def modInit : ModSource → ModState
  | .lorenz => ⟨lit0_1, lit0, lit0, []⟩
  | .other k => ⟨lit0, lit0, lit0, Config.otherModInit k⟩

/-- The next state of `mod_advance` (00_scope.md R12, 42_cascade.md R206). -/
def modNext : ModSource → ModState → ModState
  | .lorenz, s => lorenzNext s
  | .other k, s => { s with words := Config.otherModNext k s.words }

/-- The output m of `mod_advance`: for the Lorenz source of the state after the step (42_cascade.md R206), and in
[-1.0, 1.0] for every source (00_scope.md R12). -/
def modOut : ModSource → ModState → F32
  | .lorenz, s => clampF (fMul (lorenzNext s).lx lit0_05) litNeg1 lit1
  | .other k, s => clampF (Config.otherModOut k s.words) litNeg1 lit1

/-- `ratioOf(x)` (43_fm.md R244). -/
def ratioOf (x : F32) : F32 := linMap x lit0_25 lit5_75

/-- `indexOf(x)` (43_fm.md R244). -/
def indexOf (c : Params) (x : F32) : F32 := expMap c x lit0_15 litIdxRatio

/-- `feedbackOf(x)` (43_fm.md R244). -/
def feedbackOf (x : F32) : F32 := fMul x lit0_9

/-- `dampCoef(x)` (44_resonator.md R284). -/
def dampCoef (c : Params) (x : F32) : F32 := fMul x c.dampMax

/-- `combGain(x)` (44_resonator.md R284). -/
def combGain (x : F32) : F32 := linMap x lit0_5 lit0_42

/-- `bd` of `lengths(f)` (44_resonator.md R274). -/
def baseDelayOf (c : Params) (f : F32) : Nat := (clampI (roundI (fDiv c.sampleRate f)) 1 (c.combCap - 1)).toNat

/-- One comb length of `lengths(f)`, for one ratio of COMB_RATIOS (44_resonator.md R274). -/
def combLenOf (c : Params) (bd : Nat) (ratio : F32) : Nat :=
  (clampI (floorI (fMul (f32i bd) ratio)) Config.combMin (c.combCap - 1)).toNat

/-- One allpass length of `lengths(f)`, for one ratio of AP_RATIOS (44_resonator.md R274). -/
def apLenOf (c : Params) (bd : Nat) (ratio : F32) : Nat :=
  (clampI (floorI (fMul (f32i bd) ratio)) Config.apMin (c.apCap - 1)).toNat

/-- The four comb lengths, COMB_RATIOS {1.0, 1.333, 1.5, 2.0} (44_resonator.md R274). -/
def combLens (c : Params) (bd : Nat) : Vector Nat 4 :=
  #v[combLenOf c bd lit1, combLenOf c bd lit1_333, combLenOf c bd lit1_5, combLenOf c bd lit2]

/-- The two allpass lengths, AP_RATIOS {0.5, 0.75} (44_resonator.md R274). -/
def apLens (c : Params) (bd : Nat) : Vector Nat 2 := #v[apLenOf c bd lit0_5, apLenOf c bd lit0_75]

/-- `absF(f - base) > 2.0`: far enough from the base frequency for a retune (44_resonator.md R276). -/
def retuneNeeded (f base : F32) : Bool := fGt (absF (fSub f base)) lit2

end Sys2Proof.Machine
end

