-- ==== Sys2Proof/Machine/State.lean ====
section
/-!
DEFINITION. The state of the block and of its surroundings, as plain data (10_state.md, 20_memory.md R100, R104, R116,
R117); the reasons a step can stop; the state after hardware reset (70_reset_and_hazards.md R391, R392).
-/

namespace Sys2Proof.Machine

/-- `env.stage` (10_state.md R50). -/
inductive Stage where
  | idle
  | attack
  | decay
  | sustain
  deriving DecidableEq, Repr

/-- `eng.voice`, a closed sum of three (10_state.md R70, 45_engine.md R327). -/
inductive Voice where
  | cascade
  | fm
  | resonator
  deriving DecidableEq, Repr

/-- The control registers with storage of their own, ids 0x01 to 0x0E (10_state.md R42). -/
structure Regs where
  attack : F32
  decay : F32
  spread : F32
  cascade : F32
  wavefold : F32
  chaos : F32
  fmIndex : F32
  fmRatio : F32
  fmFeedback : F32
  fmFold : F32
  resFeedback : F32
  resDamp : F32
  resMix : F32
  verbExcite : F32
  deriving DecidableEq, Repr

/-- ENV (10_state.md R50 to R53). -/
structure EnvState where
  stage : Stage
  level : F32
  attackRate : F32
  decayCoeff : F32
  deriving DecidableEq, Repr

/-- CAS (10_state.md R55 to R58). -/
structure CasState where
  freq : F32
  phase : Vector F32 8
  henv : Vector F32 8
  mod : ModState
  deriving DecidableEq, Repr

/-- FM (10_state.md R60 to R62). -/
structure FmState where
  freq : F32
  modPhase : F32
  carPhase : F32
  lastMod : F32
  deriving DecidableEq, Repr

/-- One delay memory: its cells that differ from +0.0, as (index, f32) pairs with rising indices. An unlisted cell
reads as +0.0, its reset contents (10_state.md R68). A cell is one f32; nothing smaller is addressable
(20_memory.md R104, R106; log entry 14). -/
abbrev DelayLine := List (Nat × F32)

/-- RES (10_state.md R63 to R68). `lines` holds the six delay memories by their number: comb_buf[0..3] are lines 0
to 3, ap_buf[0..1] are lines 4 and 5 (20_memory.md R104). -/
structure ResState where
  freq : F32
  baseFreq : F32
  impulse : F32
  burst : F32
  baseDelay : Nat
  combLen : Vector Nat 4
  apLen : Vector Nat 2
  combW : Vector Nat 4
  apW : Vector Nat 2
  lp : Vector F32 4
  lines : Vector DelayLine 6
  deriving DecidableEq, Repr

/-- ENG (10_state.md R70). `curFreq`, `voice` and `gate` are also the registers FREQ, VOICE and GATE (R44). -/
structure EngState where
  voice : Voice
  curFreq : F32
  gate : Bool
  meter : F32
  lastSample : F32
  deriving DecidableEq, Repr

/-- The three outbound status ports (20_memory.md R100, R117). -/
structure StatusPorts where
  level : Word
  playing : Bool
  freq : Word
  deriving DecidableEq, Repr

/-- A command accepted and not yet answered, and how many clock edges still pass before the edge that executes it
(20_memory.md R101, 70_reset_and_hazards.md R390). -/
structure Accepted where
  frame : Frame
  wait : Nat
  deriving DecidableEq, Repr

/-- The command port: at most one command in flight, and the response word with its valid bit (20_memory.md R100,
R101). -/
structure PortState where
  inFlight : Option Accepted
  rspValid : Bool
  rspData : Word
  deriving DecidableEq, Repr

/-- One value of the inbound parameter record, the registers of 10_state.md R42 as the control agent delivers them
(20_memory.md R116). -/
structure ParamRecord where
  attack : F32
  decay : F32
  spread : F32
  cascade : F32
  wavefold : F32
  chaos : F32
  fmIndex : F32
  fmRatio : F32
  fmFeedback : F32
  fmFold : F32
  resFeedback : F32
  resDamp : F32
  resMix : F32
  verbExcite : F32
  freq : F32
  voice : Word
  gate : Bool
  deriving DecidableEq, Repr

/-- What the two agents do with the mailbox before a clock edge (20_memory.md R116): nothing, the control agent's
write of a record, or the audio agent's read. -/
inductive MailAct where
  | none
  | write (r : ParamRecord)
  | read
  deriving DecidableEq, Repr

/-- What the outside does at one rising edge of clk: the rst pin, the frame on the command port when cmd_valid is 1,
and the mailbox; `latency` is CMD_LATENCY less 1 of a frame accepted at this edge (20_memory.md R100, R101). -/
structure EdgeInput where
  rst : Bool
  cmd : Option Frame
  latency : Nat
  mail : MailAct
  deriving DecidableEq, Repr

/-- The surroundings of the block: the inputs of the coming clock edges (the model's own field, log entry 7), the
mailbox slot, the frames of a drained record that are still to be issued, and whether the audio agent has read the slot
since the last PROCESS it issued (20_memory.md R116, log entry 12). -/
structure HostSide where
  inputs : List EdgeInput
  mailbox : Option ParamRecord
  issue : List Frame
  polled : Bool
  deriving DecidableEq, Repr

/-- The whole machine as one record (10_state.md R71): the configuration, which no step changes (log entry 1), the
control registers, the five parts, the ports, and the surroundings. -/
structure State where
  cfg : Params
  reg : Regs
  env : EnvState
  cas : CasState
  fm : FmState
  res : ResState
  eng : EngState
  status : StatusPorts
  port : PortState
  host : HostSide
  deriving DecidableEq, Repr

/-- The faults of the block: none. "The table of exception causes and codes is empty" (60_exceptions.md R360). -/
inductive Fault where
  deriving DecidableEq, Repr

/-- Why a step can be refused. Each refusal is safe: the model stops where the block would go on. -/
inductive Refusal where
  /-- An arm of exec without a meaning raises it. Safe. No arm does. -/
  | notModelled (mnemonic : String)
  /-- The step raises it for a frame whose opcode is not in 30_encoding.md R132: "A model should refuse a frame with
  an unassigned opcode rather than step it" (R134). Safe (log entry 10). -/
  | unassignedOpcode (op : BitVec 8)
  /-- The step raises it when the configuration breaks a constraint of 00_scope.md R13: "A model refuses a
  configuration that breaks one". Safe (log entry 11). -/
  | illegalConfiguration
  deriving DecidableEq, Repr

namespace State

/-- The control registers after reset (10_state.md R42). -/
def resetRegs : Regs where
  attack := lit0
  decay := lit0
  spread := lit0
  cascade := lit0
  wavefold := lit0
  chaos := lit0
  fmIndex := lit0
  fmRatio := lit0
  fmFeedback := lit0
  fmFold := lit0
  resFeedback := lit0
  resDamp := lit0
  resMix := lit0
  verbExcite := lit1

/-- The state hardware reset leaves, for a configuration and surroundings, which reset does not reach
(70_reset_and_hazards.md R390, R391, R392). -/
def resetWith (c : Params) (h : HostSide) : State where
  cfg := c
  reg := resetRegs
  env := { stage := .idle, level := lit0, attackRate := attackRateOf c lit0, decayCoeff := decayCoeffOf c lit0 }
  cas := { freq := c.defaultFreq, phase := Vector.replicate 8 lit0, henv := Vector.replicate 8 lit1,
           mod := modInit c.modSource }
  fm := { freq := c.defaultFreq, modPhase := lit0, carPhase := lit0, lastMod := lit0 }
  res := { freq := c.defaultFreq, baseFreq := c.defaultFreq, impulse := lit0, burst := lit0,
           baseDelay := baseDelayOf c c.defaultFreq,
           combLen := combLens c (baseDelayOf c c.defaultFreq), apLen := apLens c (baseDelayOf c c.defaultFreq),
           combW := Vector.replicate 4 0, apW := Vector.replicate 2 0, lp := Vector.replicate 4 lit0,
           lines := Vector.replicate 6 [] }
  eng := { voice := .cascade, curFreq := c.defaultFreq, gate := false, meter := lit0, lastSample := lit0 }
  status := { level := 0, playing := false, freq := c.defaultFreq }
  port := { inFlight := none, rspValid := false, rspData := 0 }
  host := h

/-- The machine right after reset with the default parameters, an empty mailbox and nothing offered
(70_reset_and_hazards.md R391; log entries 1, 7, 12). -/
def reset : State := resetWith Params.default { inputs := [], mailbox := none, issue := [], polled := true }

end State

end Sys2Proof.Machine
end

