-- ==== Sys2Proof/Machine/Ops.lean ====
section
/-!
DEFINITION. The named operations over memory and registers: the delay memories (20_memory.md R104, R107, R110), the
writes to the parts of State, the response word (00_scope.md R17, 30_encoding.md R133). The block takes no exception
and returns from none (60_exceptions.md R360, R366, R367), so no operation here does.
-/

namespace Sys2Proof.Machine

/-- What an unlisted cell of a delay memory reads as: +0.0, the value RES.reset and hardware reset leave
(10_state.md R68, 20_memory.md R110). -/
def unlistedCell : F32 := 0x00000000

/-- The canonical form of a delay memory from index `lo` on: rising indices, no cell listed that holds what an
unlisted one reads as. -/
def Memory.wfFrom : Nat → DelayLine → Bool
  | _, [] => true
  | lo, (i, v) :: l => decide (lo ≤ i) && v != unlistedCell && Memory.wfFrom (i + 1) l

/-- The canonical form of a delay memory. -/
def Memory.wf (l : DelayLine) : Bool := Memory.wfFrom 0 l

/-- The cell at an index of one delay memory. -/
def lineRead : DelayLine → Nat → F32
  | [], _ => unlistedCell
  | (j, w) :: l, i => if i = j then w else lineRead l i

/-- Storing one cell of one delay memory, in canonical form. -/
def lineWrite : DelayLine → Nat → F32 → DelayLine
  | [], i, v => if v = unlistedCell then [] else [(i, v)]
  | (j, w) :: l, i, v =>
    if i < j then (if v = unlistedCell then (j, w) :: l else (i, v) :: (j, w) :: l)
    else if i = j then (if v = unlistedCell then l else (i, v) :: l)
    else (j, w) :: lineWrite l i v

/-- `cap(line)` (20_memory.md R110). -/
def lineCap (c : Params) (line : Fin 6) : Nat := if line.val ≤ 3 then c.combCap else c.apCap

/-- The line number of comb line k (20_memory.md R104). -/
def combLine (k : Fin 4) : Fin 6 := ⟨k.val, by omega⟩

/-- The line number 4 + j of allpass line j (20_memory.md R104). -/
def apLine (j : Fin 2) : Fin 6 := ⟨4 + j.val, by omega⟩

/-- `DelayRead(line, idx)` (20_memory.md R110). -/
def delayRead (r : ResState) (line : Fin 6) (idx : Nat) : F32 := lineRead r.lines[line] idx

/-- `DelayWrite(line, idx, v)` (20_memory.md R110). -/
def delayWrite (r : ResState) (line : Fin 6) (idx : Nat) (v : F32) : ResState :=
  { r with lines := r.lines.set line (lineWrite r.lines[line] idx v) }

/-- Every cell of every line at 0.0 (44_resonator.md R278). -/
def clearLines (r : ResState) : ResState := { r with lines := Vector.replicate 6 [] }

/-- Writes the control registers. -/
def State.putReg (s : State) (r : Regs) : State := { s with reg := r }

/-- Writes the envelope. -/
def State.putEnv (s : State) (e : EnvState) : State := { s with env := e }

/-- Writes the cascade oscillator. -/
def State.putCas (s : State) (x : CasState) : State := { s with cas := x }

/-- Writes the FM oscillator. -/
def State.putFm (s : State) (x : FmState) : State := { s with fm := x }

/-- Writes the resonator. -/
def State.putRes (s : State) (x : ResState) : State := { s with res := x }

/-- Writes the engine state. -/
def State.putEng (s : State) (x : EngState) : State := { s with eng := x }

/-- Writes the status ports. -/
def State.putStatus (s : State) (x : StatusPorts) : State := { s with status := x }

/-- Writes the command port. -/
def State.putPort (s : State) (x : PortState) : State := { s with port := x }

/-- Writes the surroundings. -/
def State.putHost (s : State) (x : HostSide) : State := { s with host := x }

/-- `respond(w)`: w is the response word of the command being executed (00_scope.md R17, 20_memory.md R101). -/
def respond (w : Word) (s : State) : State :=
  s.putPort { s.port with rspValid := true, rspData := w }

/-- The outcome of a command: its state, with its response word. -/
def answer (w : Word) (s : State) : Host.Outcome State Fault Refusal := .next (respond w s)

/-- The control register of an id in 0x01 to 0x0E (10_state.md R42); none for any other id. -/
def regOfId (r : Regs) (id : Nat) : Option F32 :=
  match id with
  | 0x01 => some r.attack
  | 0x02 => some r.decay
  | 0x03 => some r.spread
  | 0x04 => some r.cascade
  | 0x05 => some r.wavefold
  | 0x06 => some r.chaos
  | 0x07 => some r.fmIndex
  | 0x08 => some r.fmRatio
  | 0x09 => some r.fmFeedback
  | 0x0A => some r.fmFold
  | 0x0B => some r.resFeedback
  | 0x0C => some r.resDamp
  | 0x0D => some r.resMix
  | 0x0E => some r.verbExcite
  | _ => none

/-- The length of the line a selector names (20_memory.md R104, 45_engine.md R322); 0 for a selector of 6 or more. -/
def lineLen (r : ResState) (sel : Nat) : Nat :=
  if h : sel ≤ 3 then r.combLen[sel]
  else if h' : sel ≤ 5 then r.apLen[sel - 4]
  else 0

end Sys2Proof.Machine
end

