-- ==== Sys2Proof/Machine/Flags.lean ====
section
/-!
DEFINITION. The binary state flags of the block and its codes (10_state.md R45, R50, R70): it has no condition codes
and keeps no IEEE 754 exception flags.
-/

namespace Sys2Proof.Machine

/-- The code of a stage: Idle 0, Attack 1, Decay 2, Sustain 3 (10_state.md R50). -/
def stageCode : Stage → Word
  | .idle => 0
  | .attack => 1
  | .decay => 2
  | .sustain => 3

/-- The code of a voice: Cascade 0, FM 1, Resonator 2 (10_state.md R70). -/
def voiceCode : Voice → Word
  | .cascade => 0
  | .fm => 1
  | .resonator => 2

/-- The voice a u32 selects; a value above 2 selects the Resonator (45_engine.md R311). -/
def voiceOf (v : Word) : Voice :=
  if v = 0 then .cascade else if v = 1 then .fm else .resonator

/-- A bool as a word, 0 or 1 (00_scope.md R14, 30_encoding.md R133). -/
def boolWord (b : Bool) : Word := if b then 1 else 0

/-- `ENV.isActive()`, the derived flag isPlaying (41_envelope.md R175, 10_state.md R45). -/
def envIsActive (e : EnvState) : Bool := e.stage != .idle

/-- The armed flag `res.impulse != 0.0` (10_state.md R45): true for a NaN, false for either zero. -/
def armed (r : ResState) : Bool := !(fLe r.impulse lit0 && fGe r.impulse lit0)

end Sys2Proof.Machine
end

