-- ==== Sys2Proof/Machine/Envelope.lean ====
section
/-!
DEFINITION. ENV: SET_ATTACK, SET_DECAY and the internal operations of the envelope (41_envelope.md R170 to R175).
-/

namespace Sys2Proof.Machine

/-- `ENV.trigger` (41_envelope.md R172). -/
def envTrigger (c : Params) (e : EnvState) : EnvState :=
  { e with stage := .attack, level := if c.retriggerFromZero then lit0 else e.level }

/-- `ENV.release` (41_envelope.md R173). -/
def envRelease (e : EnvState) : EnvState :=
  { e with stage := if e.stage = .idle then .idle else .decay }

/-- `ENV.process` (41_envelope.md R174); the level it returns is the level of the state it leaves. -/
def envProcess (e : EnvState) : EnvState :=
  match e.stage with
  | .idle => { e with level := lit0 }
  | .attack =>
    if fGe (fAdd e.level e.attackRate) lit1 then { e with level := lit1, stage := .sustain }
    else { e with level := fAdd e.level e.attackRate }
  | .sustain => { e with level := lit1 }
  | .decay =>
    if fLt (fMul e.level e.decayCoeff) lit0_001 then { e with level := lit0, stage := .idle }
    else { e with level := fMul e.level e.decayCoeff }

/-- SET_ATTACK (41_envelope.md R170). -/
def execSetAttack (x : F32) (s : State) : Host.Outcome State Fault Refusal :=
  answer 0 ((s.putReg { s.reg with attack := clamp01 x }).putEnv
    { s.env with attackRate := attackRateOf s.cfg (clamp01 x) })

/-- SET_DECAY (41_envelope.md R171). -/
def execSetDecay (x : F32) (s : State) : Host.Outcome State Fault Refusal :=
  answer 0 ((s.putReg { s.reg with decay := clamp01 x }).putEnv
    { s.env with decayCoeff := decayCoeffOf s.cfg (clamp01 x) })

end Sys2Proof.Machine
end

