-- ==== Sys2Proof/Machine/Cascade.lean ====
section
/-!
DEFINITION. CAS: SET_SPREAD, SET_CASCADE, SET_WAVEFOLD, SET_CHAOS and the internal operations of the cascade oscillator
(42_cascade.md R200 to R213).
-/

namespace Sys2Proof.Machine

/-- SET_SPREAD (42_cascade.md R200). -/
def execSetSpread (x : F32) (s : State) : Host.Outcome State Fault Refusal :=
  answer 0 (s.putReg { s.reg with spread := clamp01 x })

/-- SET_CASCADE (42_cascade.md R201). -/
def execSetCascade (x : F32) (s : State) : Host.Outcome State Fault Refusal :=
  answer 0 (s.putReg { s.reg with cascade := clamp01 x })

/-- SET_WAVEFOLD (42_cascade.md R202). -/
def execSetWavefold (x : F32) (s : State) : Host.Outcome State Fault Refusal :=
  answer 0 (s.putReg { s.reg with wavefold := clamp01 x })

/-- SET_CHAOS (42_cascade.md R203). -/
def execSetChaos (x : F32) (s : State) : Host.Outcome State Fault Refusal :=
  answer 0 (s.putReg { s.reg with chaos := clamp01 x })

/-- `CAS.setFrequency` (42_cascade.md R204). -/
def casSetFrequency (c : Params) (f : F32) (x : CasState) : CasState := { x with freq := clampFreq c f }

/-- `CAS.trigger` (42_cascade.md R205). -/
def casTrigger (x : CasState) : CasState :=
  { x with phase := Vector.replicate 8 lit0, henv := Vector.replicate 8 lit1 }

/-- `CAS.reset` (42_cascade.md R208). -/
def casReset (c : Params) (x : CasState) : CasState :=
  { x with phase := Vector.replicate 8 lit0, henv := Vector.replicate 8 lit1, mod := modInit c.modSource }

/-- The running values of the harmonic loop: the phases, `out` and `total` (42_cascade.md R209, step 3). -/
structure HarmonicSum where
  phase : Vector F32 8
  out : F32
  total : F32
  deriving DecidableEq, Repr

/-- `amp` of harmonic i + 1 (42_cascade.md R209). -/
def harmonicAmp (c : Params) (r : Regs) (x : CasState) (m : F32) (i : Fin 8) : F32 :=
  fMul (fMul (baseAmp (f32i (i.val + 1)) r.cascade) x.henv[i]) (tremMul c (f32i (i.val + 1)) r.chaos m)

/-- `hf` of harmonic i + 1: cas.freq × n × vib (42_cascade.md R209, R213). -/
def harmonicFreq (c : Params) (r : Regs) (x : CasState) (m : F32) (i : Fin 8) : F32 :=
  fMul (fMul x.freq (f32i (i.val + 1))) (vibMul c (f32i (i.val + 1)) r.chaos m)

/-- One pass of the harmonic loop: a harmonic above the anti-aliasing limit is skipped and its phase held, any other
advances its phase and adds its sine (42_cascade.md R209, R213). -/
def harmonicStep (c : Params) (r : Regs) (x : CasState) (m : F32) (i : Fin 8) (a : HarmonicSum) : HarmonicSum :=
  if fGt (harmonicFreq c r x m i) (aaLimit c) then a
  else
    let p := wrap01 (fAdd a.phase[i] (fDiv (harmonicFreq c r x m i) c.sampleRate))
    { phase := a.phase.set i p
      out := fAdd a.out (fMul (sinF c.fns (fMul litTwoPi p)) (harmonicAmp c r x m i))
      total := fAdd a.total (harmonicAmp c r x m i) }

/-- The harmonics 1 to n in ascending order (42_cascade.md R209, 40_numerics.md R164); there are eight. -/
def harmonicSum (c : Params) (r : Regs) (x : CasState) (m : F32) : Nat → HarmonicSum
  | 0 => { phase := x.phase, out := lit0, total := lit0 }
  | n + 1 =>
    if h : n < 8 then harmonicStep c r x m ⟨n, h⟩ (harmonicSum c r x m n) else harmonicSum c r x m n

/-- Step 4 of `CAS.process`: divide by the amplitude total when it exceeds 1.0 (42_cascade.md R209). -/
def normalise (out total : F32) : F32 := if fGt total lit1 then fDiv out total else out

/-- `CAS.process(env)`: the oscillator after it, and the sample (42_cascade.md R209). -/
def casProcess (c : Params) (r : Regs) (x : CasState) (env : F32) : CasState × F32 :=
  let h := harmonicSum c r x (modOut c.modSource x.mod) (numHarmonics r.spread)
  ({ x with phase := h.phase, mod := modNext c.modSource x.mod },
    softclip c (fMul (foldStage c (normalise h.out h.total) r.wavefold) env))

end Sys2Proof.Machine
end

