-- ==== Sys2Proof/Machine/Fm.lean ====
section
/-!
DEFINITION. FM: SET_FM_INDEX, SET_FM_RATIO, SET_FM_FEEDBACK, SET_FM_FOLD and the internal operations of the two-operator
FM oscillator (43_fm.md R240 to R248).
-/

namespace Sys2Proof.Machine

/-- SET_FM_INDEX (43_fm.md R240). -/
def execSetFmIndex (x : F32) (s : State) : Host.Outcome State Fault Refusal :=
  answer 0 (s.putReg { s.reg with fmIndex := clamp01 x })

/-- SET_FM_RATIO (43_fm.md R241). -/
def execSetFmRatio (x : F32) (s : State) : Host.Outcome State Fault Refusal :=
  answer 0 (s.putReg { s.reg with fmRatio := clamp01 x })

/-- SET_FM_FEEDBACK (43_fm.md R242). -/
def execSetFmFeedback (x : F32) (s : State) : Host.Outcome State Fault Refusal :=
  answer 0 (s.putReg { s.reg with fmFeedback := clamp01 x })

/-- SET_FM_FOLD (43_fm.md R243). -/
def execSetFmFold (x : F32) (s : State) : Host.Outcome State Fault Refusal :=
  answer 0 (s.putReg { s.reg with fmFold := clamp01 x })

/-- `FM.setFrequency` (43_fm.md R245). -/
def fmSetFrequency (c : Params) (f : F32) (x : FmState) : FmState := { x with freq := clampFreq c f }

/-- `FM.trigger` (43_fm.md R246). -/
def fmTrigger (x : FmState) : FmState := { x with modPhase := lit0, carPhase := lit0, lastMod := lit0 }

/-- `FM.reset`, exactly the effect of `FM.trigger` (43_fm.md R247). -/
def fmReset (x : FmState) : FmState := fmTrigger x

/-- The modulator phase after its advance (43_fm.md R248). -/
def fmNextModPhase (c : Params) (r : Regs) (x : FmState) : F32 :=
  wrap01 (fAdd x.modPhase (fDiv (fMul x.freq (ratioOf r.fmRatio)) c.sampleRate))

/-- The modulator output, from the modulator output of the previous sample (43_fm.md R248,
70_reset_and_hazards.md R407). -/
def fmNextMod (c : Params) (r : Regs) (x : FmState) : F32 :=
  sinF c.fns (fMul litTwoPi (fAdd (fmNextModPhase c r x) (fMul x.lastMod (feedbackOf r.fmFeedback))))

/-- The carrier phase after its advance (43_fm.md R248). -/
def fmNextCarPhase (c : Params) (x : FmState) : F32 := wrap01 (fAdd x.carPhase (fDiv x.freq c.sampleRate))

/-- The carrier output before the fold (43_fm.md R248). -/
def fmCarrier (c : Params) (r : Regs) (x : FmState) : F32 :=
  sinF c.fns (fMul litTwoPi (fAdd (fmNextCarPhase c x) (fMul (fmNextMod c r x) (indexOf c r.fmIndex))))

/-- `FM.process(env)`: the oscillator after it, and the sample (43_fm.md R248). -/
def fmProcess (c : Params) (r : Regs) (x : FmState) (env : F32) : FmState × F32 :=
  ({ x with modPhase := fmNextModPhase c r x, carPhase := fmNextCarPhase c x, lastMod := fmNextMod c r x },
    softclip c (fMul (foldStage c (fmCarrier c r x) r.fmFold) env))

end Sys2Proof.Machine
end

