-- ==== Sys2Proof/Machine/Resonator.lean ====
section
/-!
DEFINITION. RES: SET_RES_FEEDBACK, SET_RES_DAMP, SET_RES_MIX, SET_VERB_EXCITE and the internal operations of the
resonator (44_resonator.md R270 to R284).
-/

namespace Sys2Proof.Machine

/-- SET_RES_FEEDBACK (44_resonator.md R270). -/
def execSetResFeedback (x : F32) (s : State) : Host.Outcome State Fault Refusal :=
  answer 0 (s.putReg { s.reg with resFeedback := clamp01 x })

/-- SET_RES_DAMP (44_resonator.md R271). -/
def execSetResDamp (x : F32) (s : State) : Host.Outcome State Fault Refusal :=
  answer 0 (s.putReg { s.reg with resDamp := clamp01 x })

/-- SET_RES_MIX (44_resonator.md R272). -/
def execSetResMix (x : F32) (s : State) : Host.Outcome State Fault Refusal :=
  answer 0 (s.putReg { s.reg with resMix := clamp01 x })

/-- SET_VERB_EXCITE (44_resonator.md R273). -/
def execSetVerbExcite (x : F32) (s : State) : Host.Outcome State Fault Refusal :=
  answer 0 (s.putReg { s.reg with verbExcite := clamp01 x })

/-- `retune(f)`: base frequency, all lengths, all write indices and all filter states at once; the buffer contents
are kept (44_resonator.md R275). -/
def retune (c : Params) (f : F32) (x : ResState) : ResState :=
  { x with
    baseFreq := f
    baseDelay := baseDelayOf c f
    combLen := combLens c (baseDelayOf c f)
    apLen := apLens c (baseDelayOf c f)
    combW := Vector.replicate 4 0
    apW := Vector.replicate 2 0
    lp := Vector.replicate 4 lit0 }

/-- `RES.setFrequency` (44_resonator.md R276). -/
def resSetFrequency (c : Params) (f : F32) (x : ResState) : ResState :=
  if retuneNeeded (clampFreq c f) x.baseFreq then retune c (clampFreq c f) { x with freq := clampFreq c f }
  else { x with freq := clampFreq c f }

/-- `RES.trigger` (44_resonator.md R277). -/
def resTrigger (c : Params) (verbExcite : F32) (x : ResState) : ResState :=
  { x with impulse := fMul c.impulseAmp verbExcite, burst := fMul c.burstInit verbExcite }

/-- `RES.reset` (44_resonator.md R278). -/
def resReset (x : ResState) : ResState :=
  { clearLines x with
    combW := Vector.replicate 4 0
    apW := Vector.replicate 2 0
    lp := Vector.replicate 4 lit0
    impulse := lit0
    burst := lit0 }

/-- `exc` of the excitation step (44_resonator.md R279). -/
def excitation (x : ResState) : F32 := fAdd x.impulse x.burst

/-- The excitation step's writes: the impulse is spent, the burst decays (44_resonator.md R279). -/
def exciteStep (c : Params) (x : ResState) : ResState :=
  { x with impulse := lit0, burst := fMul x.burst c.excDecay }

/-- The index comb line k uses this sample (44_resonator.md R280, 20_memory.md R107). -/
def combIdx (x : ResState) (k : Fin 4) : Nat := x.combW[k] % x.combLen[k]

/-- The filter state of comb line k after its update (44_resonator.md R280). -/
def combLp (a : F32) (x : ResState) (k : Fin 4) : F32 :=
  fAdd (fMul (fSub lit1 a) (delayRead x (combLine k) (combIdx x k))) (fMul a x.lp[k])

/-- The value comb line k writes back and gives out (44_resonator.md R280). -/
def combOut (c : Params) (exc a g : F32) (x : ResState) (k : Fin 4) : F32 :=
  softclip c (fAdd (fMul (combLp a x k) g) exc)

/-- `combStep(k, exc, a, g)`: the resonator after it; its result is `combOut` (44_resonator.md R280). -/
def combStep (c : Params) (exc a g : F32) (x : ResState) (k : Fin 4) : ResState :=
  { delayWrite x (combLine k) (combIdx x k) (combOut c exc a g x k) with
    lp := x.lp.set k (combLp a x k)
    combW := x.combW.set k ((combIdx x k + 1) % x.combLen[k]) }

/-- The comb lines 0 to n - 1 in ascending order, with their running sum (44_resonator.md R282); there are four. -/
def combBank (c : Params) (exc a g : F32) (x : ResState) : Nat → ResState × F32
  | 0 => (x, lit0)
  | n + 1 =>
    let y := combBank c exc a g x n
    if h : n < 4 then (combStep c exc a g y.1 ⟨n, h⟩, fAdd y.2 (combOut c exc a g y.1 ⟨n, h⟩)) else y

/-- The index allpass j uses this sample (44_resonator.md R281, 20_memory.md R107). -/
def apIdx (x : ResState) (j : Fin 2) : Nat := x.apW[j] % x.apLen[j]

/-- The output of `apStep(j, x)`: -g · input + delayed (44_resonator.md R281). -/
def apOut (v : F32) (x : ResState) (j : Fin 2) : F32 :=
  fAdd (fMul litNeg0_5 v) (delayRead x (apLine j) (apIdx x j))

/-- The value `apStep(j, x)` stores: input + g · delayed (44_resonator.md R281). -/
def apStored (v : F32) (x : ResState) (j : Fin 2) : F32 :=
  fAdd v (fMul lit0_5 (delayRead x (apLine j) (apIdx x j)))

/-- `apStep(j, x)`: the resonator after it; its result is `apOut` (44_resonator.md R281). -/
def apStep (v : F32) (x : ResState) (j : Fin 2) : ResState :=
  { delayWrite x (apLine j) (apIdx x j) (apStored v x j) with
    apW := x.apW.set j ((apIdx x j + 1) % x.apLen[j]) }

/-- The two allpasses in series: the resonator after them and the diffused sample (44_resonator.md R282). -/
def apChain (v : F32) (x : ResState) : ResState × F32 :=
  (apStep (apOut v x 0) (apStep v x 0) 1, apOut (apOut v x 0) (apStep v x 0) 1)

/-- The blend of the comb average and the diffused sample, scaled by env × 10 (44_resonator.md R282). -/
def resBlend (r : Regs) (avg diffused env : F32) : F32 :=
  fMul (fAdd (fMul (fSub lit1 r.resMix) avg) (fMul r.resMix diffused)) (fMul env lit10)

/-- `RES.process(env)`: the resonator after it, and the sample (44_resonator.md R282). -/
def resProcess (c : Params) (r : Regs) (x : ResState) (env : F32) : ResState × F32 :=
  let b := combBank c (excitation x) (dampCoef c r.resDamp) (combGain r.resFeedback) (exciteStep c x) 4
  let avg := fMul b.2 lit0_25
  let d := apChain avg b.1
  (d.1, softclip c (resBlend r avg d.2 env))

end Sys2Proof.Machine
end

