-- ==== Sys2Proof/Machine/Engine.lean ====
section
/-!
DEFINITION. ENG: the engine commands (45_engine.md R310 to R326).
-/

namespace Sys2Proof.Machine

/-- NOP (45_engine.md R324). -/
def execNop (s : State) : Host.Outcome State Fault Refusal := answer 0 s

/-- The frequency part of SET_FREQUENCY and NOTE_ON: the engine and all three oscillators, whatever the voice
(45_engine.md R310, R313). -/
def applyFrequency (f : F32) (s : State) : State :=
  (((s.putEng { s.eng with curFreq := clampFreq s.cfg f }).putCas
    (casSetFrequency s.cfg (clampFreq s.cfg f) s.cas)).putFm
    (fmSetFrequency s.cfg (clampFreq s.cfg f) s.fm)).putRes
    (resSetFrequency s.cfg (clampFreq s.cfg f) s.res)

/-- `trigger_all()` (45_engine.md R326). -/
def triggerAll (s : State) : State :=
  (((s.putCas (casTrigger s.cas)).putFm (fmTrigger s.fm)).putRes
    (resTrigger s.cfg s.reg.verbExcite s.res)).putEnv (envTrigger s.cfg s.env)

/-- The full reset of the three oscillators (45_engine.md R313). -/
def resetOscillators (s : State) : State :=
  ((s.putCas (casReset s.cfg s.cas)).putFm (fmReset s.fm)).putRes (resReset s.res)

/-- Writes the gate flag. -/
def setGate (b : Bool) (s : State) : State := s.putEng { s.eng with gate := b }

/-- SET_FREQUENCY (45_engine.md R310). -/
def execSetFrequency (f : F32) (s : State) : Host.Outcome State Fault Refusal := answer 0 (applyFrequency f s)

/-- The voice change of SET_VOICE to another voice, with the resonator's excitation when it is switched into while
the gate is held (45_engine.md R311). -/
def switchVoice (v : Voice) (s : State) : State :=
  if v = .resonator ∧ s.eng.gate = true then
    (s.putEng { s.eng with voice := v }).putRes (resTrigger s.cfg s.reg.verbExcite s.res)
  else s.putEng { s.eng with voice := v }

/-- SET_VOICE (45_engine.md R311, R328). -/
def execSetVoice (v : Word) (s : State) : Host.Outcome State Fault Refusal :=
  answer 0 (if voiceOf v = s.eng.voice then s else switchVoice (voiceOf v) s)

/-- GATE: the rising edge triggers, the falling edge releases the envelope, a level that does not change does nothing
(45_engine.md R312). -/
def execGate (b : Bool) (s : State) : Host.Outcome State Fault Refusal :=
  answer 0
    (if b = true ∧ s.eng.gate = false then setGate true (triggerAll s)
     else if b = false ∧ s.eng.gate = true then setGate false (s.putEnv (envRelease s.env))
     else s)

/-- NOTE_ON (45_engine.md R313). -/
def execNoteOn (f : F32) (s : State) : Host.Outcome State Fault Refusal :=
  answer 0 (setGate true (triggerAll (resetOscillators (applyFrequency f s))))

/-- NOTE_OFF (45_engine.md R314). -/
def execNoteOff (s : State) : Host.Outcome State Fault Refusal :=
  answer 0 (setGate false (s.putEnv (envRelease s.env)))

/-- The active oscillator's sample at the envelope level, with only that oscillator advanced (45_engine.md R315,
70_reset_and_hazards.md R406). -/
def dispatchVoice (env : F32) (s : State) : State × F32 :=
  match s.eng.voice with
  | .cascade => (s.putCas (casProcess s.cfg s.reg s.cas env).1, (casProcess s.cfg s.reg s.cas env).2)
  | .fm => (s.putFm (fmProcess s.cfg s.reg s.fm env).1, (fmProcess s.cfg s.reg s.fm env).2)
  | .resonator => (s.putRes (resProcess s.cfg s.reg s.res env).1, (resProcess s.cfg s.reg s.res env).2)

/-- The master gain, the finiteness guard and the safety clamp, in that order (45_engine.md R315, 60_exceptions.md
R361). -/
def guardSample (c : Params) (raw : F32) : F32 :=
  clampF (if isFinite (fMul raw c.masterGain) then fMul raw c.masterGain else lit0) (fNeg c.safetyBound) c.safetyBound

/-- `minF(1.0, eng.meter × 2.0)`, the output level (45_engine.md R316). -/
def outputLevel (meter : F32) : F32 := minF lit1 (fMul meter lit2)

/-- The meter after one sample (45_engine.md R315). -/
def nextMeter (meter sample : F32) : F32 := fAdd (fMul meter lit0_999) (fMul (absF sample) lit0_001)

/-- What PROCESS does with a guarded sample: meter, last sample and status ports (45_engine.md R315, 20_memory.md
R117). -/
def recordSample (sample : F32) (s : State) : State :=
  (s.putEng { s.eng with meter := nextMeter s.eng.meter sample, lastSample := sample }).putStatus
    { level := outputLevel (nextMeter s.eng.meter sample), playing := envIsActive s.env, freq := s.eng.curFreq }

/-- The state and the raw sample after the envelope and the active oscillator have run (45_engine.md R315). -/
def synthesise (s : State) : State × F32 :=
  dispatchVoice (envProcess s.env).level (s.putEnv (envProcess s.env))

/-- PROCESS (45_engine.md R315). -/
def execProcess (s : State) : Host.Outcome State Fault Refusal :=
  answer (guardSample s.cfg (synthesise s).2)
    (recordSample (guardSample s.cfg (synthesise s).2) (synthesise s).1)

/-- GET_OUTPUT_LEVEL (45_engine.md R316). -/
def execGetOutputLevel (s : State) : Host.Outcome State Fault Refusal := answer (outputLevel s.eng.meter) s

/-- IS_PLAYING (45_engine.md R317). -/
def execIsPlaying (s : State) : Host.Outcome State Fault Refusal := answer (boolWord (envIsActive s.env)) s

/-- GET_CURRENT_FREQ (45_engine.md R318). -/
def execGetCurrentFreq (s : State) : Host.Outcome State Fault Refusal := answer s.eng.curFreq s

/-- GET_ENV_STAGE (45_engine.md R319). -/
def execGetEnvStage (s : State) : Host.Outcome State Fault Refusal := answer (stageCode s.env.stage) s

/-- GET_ENV_LEVEL (45_engine.md R320). -/
def execGetEnvLevel (s : State) : Host.Outcome State Fault Refusal := answer s.env.level s

/-- GET_RES_BASE_FREQ (45_engine.md R321). -/
def execGetResBaseFreq (s : State) : Host.Outcome State Fault Refusal := answer s.res.baseFreq s

/-- GET_RES_DELAY_LEN (45_engine.md R322). -/
def execGetResDelayLen (sel : Word) (s : State) : Host.Outcome State Fault Refusal :=
  answer (BitVec.ofNat 32 (lineLen s.res sel.toNat)) s

/-- The word READ_REG answers for a register id; 0 for an id that names no register (45_engine.md R323). -/
def regWord (s : State) (id : Nat) : Word :=
  match regOfId s.reg id with
  | some x => x
  | none =>
    if id = 0x10 then s.eng.curFreq
    else if id = 0x11 then voiceCode s.eng.voice
    else if id = 0x12 then boolWord s.eng.gate
    else 0

/-- READ_REG (45_engine.md R323). -/
def execReadReg (id : Word) (s : State) : Host.Outcome State Fault Refusal := answer (regWord s id.toNat) s

end Sys2Proof.Machine
end

