-- ==== Sys2Proof/Syntax.lean ====
section
/-!
DEFINITION. The commands of the block: one constructor per row of spec/opcode_table.json (30_encoding.md R132),
each with the operand its type gives it (R131); and the assembler's abstract lines (R138, R139).
-/

namespace Sys2Proof

/-- The 29 commands of 30_encoding.md R132. An f32 operand is its binary32 encoding, a u32 operand a word, a bool
operand the value of bit 0; an operand of type none is not part of the command (R131, R135). -/
inductive Instr where
  | nop
  | setAttack (x : F32)
  | setDecay (x : F32)
  | setSpread (x : F32)
  | setCascade (x : F32)
  | setWavefold (x : F32)
  | setChaos (x : F32)
  | setFmIndex (x : F32)
  | setFmRatio (x : F32)
  | setFmFeedback (x : F32)
  | setFmFold (x : F32)
  | setResFeedback (x : F32)
  | setResDamp (x : F32)
  | setResMix (x : F32)
  | setVerbExcite (x : F32)
  | setFrequency (f : F32)
  | setVoice (v : Word)
  | gate (b : Bool)
  | noteOn (f : F32)
  | noteOff
  | process
  | getOutputLevel
  | isPlaying
  | getCurrentFreq
  | getEnvStage
  | getEnvLevel
  | getResBaseFreq
  | getResDelayLen (sel : Word)
  | readReg (id : Word)
  deriving DecidableEq, Repr

/-- The operand spellings of an assembler line (30_encoding.md R138), as abstract syntax: a decimal literal
`(-1)^neg × digits × 10^exp10`, the words `inf`, `-inf` and `nan`, the raw pattern `bits:0x…`, and an integer (for u32
and bool). -/
inductive AsmOperand where
  | decimal (neg : Bool) (digits : Nat) (exp10 : Int)
  | infinity (neg : Bool)
  | nan
  | bits (w : Word)
  | int (n : Nat)
  deriving DecidableEq, Repr

/-- The operand types of 30_encoding.md R131. -/
inductive OperandType where
  | f32
  | u32
  | bool
  | none
  deriving DecidableEq, Repr

/-- One assembler line (30_encoding.md R138): the opcode its mnemonic names, and the operand if it has one. -/
structure AsmLine where
  opcode : BitVec 8
  operand : Option AsmOperand
  deriving DecidableEq, Repr

/-- The pseudo-commands of 30_encoding.md R139. -/
inductive Pseudo where
  | gateOn
  | gateOff
  | voiceCascade
  | voiceFm
  | voiceResonator
  | processN (n : Nat)
  deriving DecidableEq, Repr

end Sys2Proof
end

