-- ==== Sys2Proof/Machine/Dispatch.lean ====
section
/-!
DEFINITION. One arm per command of 30_encoding.md R132.
-/

namespace Sys2Proof.Machine

def exec (i : Instr) (s : State) : Host.Outcome State Fault Refusal :=
  match i with
  | .nop => Sys2Proof.Machine.execNop s
  | .setAttack x => Sys2Proof.Machine.execSetAttack x s
  | .setDecay x => Sys2Proof.Machine.execSetDecay x s
  | .setSpread x => Sys2Proof.Machine.execSetSpread x s
  | .setCascade x => Sys2Proof.Machine.execSetCascade x s
  | .setWavefold x => Sys2Proof.Machine.execSetWavefold x s
  | .setChaos x => Sys2Proof.Machine.execSetChaos x s
  | .setFmIndex x => Sys2Proof.Machine.execSetFmIndex x s
  | .setFmRatio x => Sys2Proof.Machine.execSetFmRatio x s
  | .setFmFeedback x => Sys2Proof.Machine.execSetFmFeedback x s
  | .setFmFold x => Sys2Proof.Machine.execSetFmFold x s
  | .setResFeedback x => Sys2Proof.Machine.execSetResFeedback x s
  | .setResDamp x => Sys2Proof.Machine.execSetResDamp x s
  | .setResMix x => Sys2Proof.Machine.execSetResMix x s
  | .setVerbExcite x => Sys2Proof.Machine.execSetVerbExcite x s
  | .setFrequency f => Sys2Proof.Machine.execSetFrequency f s
  | .setVoice v => Sys2Proof.Machine.execSetVoice v s
  | .gate b => Sys2Proof.Machine.execGate b s
  | .noteOn f => Sys2Proof.Machine.execNoteOn f s
  | .noteOff => Sys2Proof.Machine.execNoteOff s
  | .process => Sys2Proof.Machine.execProcess s
  | .getOutputLevel => Sys2Proof.Machine.execGetOutputLevel s
  | .isPlaying => Sys2Proof.Machine.execIsPlaying s
  | .getCurrentFreq => Sys2Proof.Machine.execGetCurrentFreq s
  | .getEnvStage => Sys2Proof.Machine.execGetEnvStage s
  | .getEnvLevel => Sys2Proof.Machine.execGetEnvLevel s
  | .getResBaseFreq => Sys2Proof.Machine.execGetResBaseFreq s
  | .getResDelayLen sel => Sys2Proof.Machine.execGetResDelayLen sel s
  | .readReg id => Sys2Proof.Machine.execReadReg id s

end Sys2Proof.Machine
end

