-- ==== Sys2Proof/Machine/Operands.lean ====
section
/-!
DEFINITION. The two fields of a command frame and the four operand forms (30_encoding.md R130, R131, R135, R137), and
the operand types of the opcode map (R132).
-/

namespace Sys2Proof.Machine

/-- frame[39:32], the opcode (R130). -/
def opcodeOf (f : Frame) : BitVec 8 := f.extractLsb' 32 8

/-- frame[31:0], the operand field (R130). -/
def operandField (f : Frame) : Word := f.extractLsb' 0 32

/-- `{opcode[7:0], operand[31:0]}` (R130, R138). -/
def frameOf (op : BitVec 8) (x : Word) : Frame := op ++ x

/-- `operand_of(f32, x) = f32of(x)`; every pattern is accepted (R131, R137). -/
def operandF32 (x : Word) : F32 := x

/-- `operand_of(u32, x) = x`, an unsigned integer (R131, R137). -/
def operandU32 (x : Word) : Word := x

/-- `operand_of(bool, x) = x[0]`; bits 31:1 are ignored (R131, R135, R137). -/
def operandBool (x : Word) : Bool := x.getLsbD 0

/-- The operand field of a bool operand: the value in bit 0, the other bits 0 (R138). -/
def boolField (b : Bool) : Word := if b then 1 else 0

/-- The operand type of an assigned opcode, none for an unassigned one (R132, R134). -/
def operandTypeOf (op : BitVec 8) : Option OperandType :=
  match op.toNat with
  | 0x00 => some .none
  | 0x01 | 0x02 | 0x03 | 0x04 | 0x05 | 0x06 | 0x07 | 0x08 | 0x09 | 0x0A | 0x0B | 0x0C | 0x0D | 0x0E => some .f32
  | 0x10 => some .f32
  | 0x11 => some .u32
  | 0x12 => some .bool
  | 0x13 => some .f32
  | 0x14 => some .none
  | 0x20 => some .none
  | 0x30 | 0x31 | 0x32 | 0x33 | 0x34 | 0x35 => some .none
  | 0x36 | 0x37 => some .u32
  | _ => none

end Sys2Proof.Machine
end

