-- ==== Sys2Proof/WellFormed.lean ====
section
/-!
DEFINITION. Well-formedness: of a configuration (00_scope.md R13), of an assembler line (30_encoding.md R138), and of a
command, which is well formed by its type because every operand bit pattern is accepted (R131).
-/

namespace Sys2Proof

open Sys2Proof.Machine

/-- The constraints of 00_scope.md R13, in its order. -/
def Params.legal (c : Params) : Bool :=
  fGt c.sampleRate lit0
    && (fLt lit0 c.fMin && fLe c.fMin c.defaultFreq && fLe c.defaultFreq c.fMax)
    && decide (2 * Config.combMin < c.combCap)
    && decide (2 * Config.apMin < c.apCap)
    && (fLe lit0 c.dampMax && fLt c.dampMax lit1)
    && (fLt lit0 c.excDecay && fLt c.excDecay lit1)
    && (fLe lit0 c.chaosFloor && fLt c.chaosFloor lit1)
    && decide (1 ≤ c.foldMaxIter)
    && fLt lit0 c.masterGain
    && fGt c.safetyBound lit1

/-- An operand spelling that stands for an operand of the type (30_encoding.md R138): a decimal, infinity, nan or raw
pattern for f32; an integer below 2^32 for u32; 0 or 1 for bool. -/
def AsmOperand.fits : AsmOperand → OperandType → Bool
  | .decimal _ _ _, .f32 => true
  | .infinity _, .f32 => true
  | .nan, .f32 => true
  | .bits _, .f32 => true
  | .int n, .u32 => decide (n < 2 ^ 32)
  | .int n, .bool => decide (n < 2)
  | _, _ => false

/-- A line is well formed when its opcode is assigned and it has an operand exactly when the opcode's type is not
`none`, of that type (30_encoding.md R138). -/
def AsmLine.wellFormed (l : AsmLine) : Bool :=
  match operandTypeOf l.opcode, l.operand with
  | some .none, none => true
  | some .none, some _ => false
  | some t, some a => a.fits t
  | _, _ => false

/-- Every command is well formed: "Every bit pattern is accepted, including NaN, infinities, subnormals and negative
zero" (30_encoding.md R131), and a bool operand is one bit. The check of the frame is the decoder's (R134). -/
def Instr.wellFormed (_ : Instr) : Bool := true

end Sys2Proof
end

