-- ==== Sys2Proof/Decode.lean ====
section
/-!
DEFINITION. Decoding and encoding of command frames (30_encoding.md R130 to R137), the byte transport (20_memory.md
R105), and the assembler (30_encoding.md R138, R139). The decoder is total on all 2^40 frames and rejects an unassigned
opcode by name.
-/

namespace Sys2Proof

open Sys2Proof.Machine

/-- Why a frame or a byte sequence is not a command. -/
inductive DecodeError where
  /-- The opcode is not in 30_encoding.md R132 (R134). -/
  | unassignedOpcode (op : BitVec 8)
  /-- Fewer than the five bytes of one frame: "there is no partial or misaligned frame" (20_memory.md R106). -/
  | partialFrame
  deriving DecidableEq, Repr

/-- The command of an opcode and an operand field, or none for an unassigned opcode (30_encoding.md R132, R137). -/
def instrOf (op : BitVec 8) (x : Word) : Option Instr :=
  match op.toNat with
  | 0x00 => some .nop
  | 0x01 => some (.setAttack (operandF32 x))
  | 0x02 => some (.setDecay (operandF32 x))
  | 0x03 => some (.setSpread (operandF32 x))
  | 0x04 => some (.setCascade (operandF32 x))
  | 0x05 => some (.setWavefold (operandF32 x))
  | 0x06 => some (.setChaos (operandF32 x))
  | 0x07 => some (.setFmIndex (operandF32 x))
  | 0x08 => some (.setFmRatio (operandF32 x))
  | 0x09 => some (.setFmFeedback (operandF32 x))
  | 0x0A => some (.setFmFold (operandF32 x))
  | 0x0B => some (.setResFeedback (operandF32 x))
  | 0x0C => some (.setResDamp (operandF32 x))
  | 0x0D => some (.setResMix (operandF32 x))
  | 0x0E => some (.setVerbExcite (operandF32 x))
  | 0x10 => some (.setFrequency (operandF32 x))
  | 0x11 => some (.setVoice (operandU32 x))
  | 0x12 => some (.gate (operandBool x))
  | 0x13 => some (.noteOn (operandF32 x))
  | 0x14 => some .noteOff
  | 0x20 => some .process
  | 0x30 => some .getOutputLevel
  | 0x31 => some .isPlaying
  | 0x32 => some .getCurrentFreq
  | 0x33 => some .getEnvStage
  | 0x34 => some .getEnvLevel
  | 0x35 => some .getResBaseFreq
  | 0x36 => some (.getResDelayLen (operandU32 x))
  | 0x37 => some (.readReg (operandU32 x))
  | _ => none

/-- `decode(frame)` (30_encoding.md R137). -/
def decode (f : Frame) : Except DecodeError Instr :=
  match instrOf (opcodeOf f) (operandField f) with
  | some i => .ok i
  | none => .error (.unassignedOpcode (opcodeOf f))

/-- The opcode of a command (30_encoding.md R132). -/
def Instr.opcode : Instr → BitVec 8
  | .nop => 0x00
  | .setAttack _ => 0x01
  | .setDecay _ => 0x02
  | .setSpread _ => 0x03
  | .setCascade _ => 0x04
  | .setWavefold _ => 0x05
  | .setChaos _ => 0x06
  | .setFmIndex _ => 0x07
  | .setFmRatio _ => 0x08
  | .setFmFeedback _ => 0x09
  | .setFmFold _ => 0x0A
  | .setResFeedback _ => 0x0B
  | .setResDamp _ => 0x0C
  | .setResMix _ => 0x0D
  | .setVerbExcite _ => 0x0E
  | .setFrequency _ => 0x10
  | .setVoice _ => 0x11
  | .gate _ => 0x12
  | .noteOn _ => 0x13
  | .noteOff => 0x14
  | .process => 0x20
  | .getOutputLevel => 0x30
  | .isPlaying => 0x31
  | .getCurrentFreq => 0x32
  | .getEnvStage => 0x33
  | .getEnvLevel => 0x34
  | .getResBaseFreq => 0x35
  | .getResDelayLen _ => 0x36
  | .readReg _ => 0x37

/-- The operand field of a command; an operand of type none is encoded as 0 (30_encoding.md R138). -/
def Instr.field : Instr → Word
  | .nop => 0
  | .setAttack x => x
  | .setDecay x => x
  | .setSpread x => x
  | .setCascade x => x
  | .setWavefold x => x
  | .setChaos x => x
  | .setFmIndex x => x
  | .setFmRatio x => x
  | .setFmFeedback x => x
  | .setFmFold x => x
  | .setResFeedback x => x
  | .setResDamp x => x
  | .setResMix x => x
  | .setVerbExcite x => x
  | .setFrequency f => f
  | .setVoice v => v
  | .gate b => boolField b
  | .noteOn f => f
  | .noteOff => 0
  | .process => 0
  | .getOutputLevel => 0
  | .isPlaying => 0
  | .getCurrentFreq => 0
  | .getEnvStage => 0
  | .getEnvLevel => 0
  | .getResBaseFreq => 0
  | .getResDelayLen sel => sel
  | .readReg id => id

/-- The frame of a command (30_encoding.md R130, R138). -/
def encode (i : Instr) : Frame := frameOf i.opcode i.field

/-- The frame that five bytes carry, most significant byte first (20_memory.md R105), and the rest of the bytes. -/
def frameOfBytes : List Byte → Option (Frame × List Byte)
  | b4 :: b3 :: b2 :: b1 :: b0 :: rest => some (b4 ++ b3 ++ b2 ++ b1 ++ b0, rest)
  | _ => none

/-- The five bytes of a frame, most significant byte first (20_memory.md R105). -/
def bytesOfFrame (f : Frame) : List Byte :=
  [f.extractLsb' 32 8, f.extractLsb' 24 8, f.extractLsb' 16 8, f.extractLsb' 8 8, f.extractLsb' 0 8]

/-- The four bytes of a response word, most significant byte first (20_memory.md R105). -/
def bytesOfResponse (w : Word) : List Byte :=
  [w.extractLsb' 24 8, w.extractLsb' 16 8, w.extractLsb' 8 8, w.extractLsb' 0 8]

/-- Decoding of a byte stream: the command of its first frame, and the rest. Total on any bytes. -/
def decodeBytes (bs : List Byte) : Except DecodeError (Instr × List Byte) :=
  match frameOfBytes bs with
  | none => .error .partialFrame
  | some (f, rest) =>
    match decode f with
    | .ok i => .ok (i, rest)
    | .error e => .error e

/-- The instruction the decoder reads from an opcode-table word: bit 0 of the table's numbering is bit 0 of the frame
(30_encoding.md R130; the table gives a row 40 bits). A word of more than 40 bits is no frame. -/
def decodeTableWord (nbits w : Nat) : Option Instr :=
  if 2 ^ 40 ≤ w % 2 ^ nbits then none
  else
    match decode (BitVec.ofNat 40 (w % 2 ^ nbits)) with
    | .ok i => some i
    | .error _ => none

/-- The operand field that an operand spelling stands for (30_encoding.md R138). -/
def AsmOperand.field : AsmOperand → Word
  | .decimal neg digits exp10 => f32OfDecimal neg digits exp10
  | .infinity neg => pack neg infMag
  | .nan => 0x7FC00000
  | .bits w => w
  | .int n => BitVec.ofNat 32 n

/-- The frame of a well-formed assembler line; "A `none` operand is encoded as 0" (30_encoding.md R138). -/
def AsmLine.assemble (l : AsmLine) : Option Frame :=
  if l.wellFormed then
    some (frameOf l.opcode (match l.operand with | some a => a.field | none => 0))
  else none

/-- The commands a pseudo-command expands to (30_encoding.md R139). -/
def Pseudo.expand : Pseudo → List Instr
  | .gateOn => [.gate true]
  | .gateOff => [.gate false]
  | .voiceCascade => [.setVoice 0]
  | .voiceFm => [.setVoice 1]
  | .voiceResonator => [.setVoice 2]
  | .processN n => List.replicate n .process

end Sys2Proof
end

