-- ==== Sys2Proof/Machine/Port.lean ====
section
/-!
DEFINITION. The command port, the hardware reset and the parameter mailbox, one rising edge of clk at a time
(20_memory.md R100, R101, R116, 60_exceptions.md R365, 70_reset_and_hazards.md R390).
-/

namespace Sys2Proof.Machine

/-- An edge at which the outside does nothing: rst 0, cmd_valid 0, the mailbox left alone (log entry 7). -/
def idleEdge : EdgeInput := { rst := false, cmd := none, latency := 0, mail := .none }

/-- What the outside does at the next edge; nothing when no input is listed (log entry 7). -/
def edgeInput (h : HostSide) : EdgeInput := h.inputs.headD idleEdge

/-- The commands the audio agent issues for a drained record: SET_ commands, SET_VOICE and GATE, in the order of
10_state.md R42 (20_memory.md R116). -/
def recordCommands (r : ParamRecord) : List Instr :=
  [.setAttack r.attack, .setDecay r.decay, .setSpread r.spread, .setCascade r.cascade, .setWavefold r.wavefold,
   .setChaos r.chaos, .setFmIndex r.fmIndex, .setFmRatio r.fmRatio, .setFmFeedback r.fmFeedback,
   .setFmFold r.fmFold, .setResFeedback r.resFeedback, .setResDamp r.resDamp, .setResMix r.resMix,
   .setVerbExcite r.verbExcite, .setFrequency r.freq, .setVoice r.voice, .gate r.gate]

/-- The mailbox: a write overwrites the slot and never waits; a read empties it, queues the record's commands, and does
not wait (20_memory.md R116, R118). -/
def mailStep (m : MailAct) (h : HostSide) : HostSide :=
  match m with
  | .none => h
  | .write r => { h with mailbox := some r }
  | .read =>
    match h.mailbox with
    | some r => { h with mailbox := none, issue := h.issue ++ (recordCommands r).map encode, polled := true }
    | none => { h with polled := true }

/-- The surroundings after the outside's part of an edge: its input is consumed, the mailbox has moved. -/
def hostStep (h : HostSide) : HostSide :=
  mailStep (edgeInput h).mail { h with inputs := h.inputs.tail }

/-- The frame is a PROCESS, whatever its operand bits (30_encoding.md R132, R135). -/
def isProcess (f : Frame) : Bool := opcodeOf f == 0x20

/-- The audio agent's read before its next PROCESS: an offered PROCESS finds the slot read since the last one, or it is
read now, so that no PROCESS goes past a full slot (20_memory.md R116; log entry 12). -/
def pollStep (cmd : Option Frame) (h : HostSide) : HostSide :=
  match cmd with
  | some f => if isProcess f && !h.polled then mailStep .read h else h
  | none => h

/-- The frame on the command port, and whether it is the head of the frames to be issued: a drained record's commands
go before the next PROCESS, any other offered frame goes first (20_memory.md R112, R116; log entry 12). -/
def drivenFrame (cmd : Option Frame) (issue : List Frame) : Option (Frame × Bool) :=
  match cmd, issue with
  | none, [] => none
  | none, g :: _ => some (g, true)
  | some f, [] => some (f, false)
  | some f, g :: _ => if isProcess f then some (g, true) else some (f, false)

/-- cmd_ready: 0 while rst is 1 and from the acceptance of a frame until its response (20_memory.md R101,
70_reset_and_hazards.md R390; log entry 8). -/
def cmdReady (rst : Bool) (s : State) : Bool := !rst && s.port.inFlight.isNone

/-- The surroundings after the acceptance of a frame: a queued frame leaves the queue, and after a PROCESS the slot is
to be read again before the next one (20_memory.md R116). -/
def takeFrame (f : Frame) (fromIssue : Bool) (h : HostSide) : HostSide :=
  { h with
    issue := if fromIssue then h.issue.tail else h.issue
    polled := if isProcess f then false else h.polled }

/-- An edge with no command in flight: the driven frame, if there is one, is accepted (20_memory.md R101). The
surroundings it takes are those after `pollStep`. -/
def acceptStep (e : EdgeInput) (s : State) : State :=
  match drivenFrame e.cmd s.host.issue with
  | none => s.putPort { s.port with rspValid := false }
  | some (f, fromIssue) =>
    (s.putPort { s.port with inFlight := some { frame := f, wait := e.latency }, rspValid := false }).putHost
      (takeFrame f fromIssue s.host)

/-- An edge that only brings the command in flight nearer to its response (20_memory.md R101). -/
def waitStep (f : Frame) (wait : Nat) (s : State) : State :=
  s.putPort { s.port with inFlight := some { frame := f, wait := wait }, rspValid := false }

/-- The state in which a command executes: it is no longer in flight, and no response is presented yet. -/
def releaseStep (s : State) : State := s.putPort { s.port with inFlight := none, rspValid := false }

/-- What one rising edge comes to: a settled state, or a command to execute. -/
inductive EdgeResult where
  | settled (s : State)
  | run (f : Frame) (s : State)
  deriving DecidableEq, Repr

/-- One rising edge of clk up to the execution of a command. Reset wins over everything (60_exceptions.md R365,
70_reset_and_hazards.md R390); then a command in flight waits or executes; then a frame is accepted
(20_memory.md R101). -/
def clockEdge (s : State) : EdgeResult :=
  if (edgeInput s.host).rst then .settled (State.resetWith s.cfg (hostStep s.host))
  else
    match s.port.inFlight with
    | some { frame := f, wait := 0 } => .run f (releaseStep (s.putHost (hostStep s.host)))
    | some { frame := f, wait := n + 1 } => .settled (waitStep f n (s.putHost (hostStep s.host)))
    | none =>
      .settled (acceptStep (edgeInput s.host) (s.putHost (pollStep (edgeInput s.host).cmd (hostStep s.host))))

/-- The output ports (20_memory.md R100). -/
structure PortOutputs where
  cmdReady : Bool
  rspValid : Bool
  rspData : Word
  sampleOut : Word
  statusLevel : Word
  statusPlaying : Bool
  statusFreq : Word
  deriving DecidableEq, Repr

/-- The output ports of a state, with the level of rst (20_memory.md R100, R117, 70_reset_and_hazards.md R390). -/
def portOutputs (rst : Bool) (s : State) : PortOutputs where
  cmdReady := cmdReady rst s
  rspValid := !rst && s.port.rspValid
  rspData := s.port.rspData
  sampleOut := s.eng.lastSample
  statusLevel := s.status.level
  statusPlaying := s.status.playing
  statusFreq := s.status.freq

/-- A frame accepted and due at the very next edge, at which the outside does nothing (log entry 13). -/
def loadFrame (f : Frame) (s : State) : State :=
  (s.putPort { s.port with inFlight := some { frame := f, wait := 0 } }).putHost
    { s.host with inputs := idleEdge :: s.host.inputs }

end Sys2Proof.Machine
end

