-- ==== Sys2Proof/Machine/Step.lean ====
section
/-!
DEFINITION. One step of the machine is one rising edge of clk (20_memory.md R100, R101).
-/

namespace Sys2Proof.Machine

/-- The execution of a frame: the meaning of the command it decodes to (30_encoding.md R137), or a refusal for an
unassigned opcode (R134). -/
def runFrame (f : Frame) (s : State) : Host.Outcome State Fault Refusal :=
  match decode f with
  | .ok i => exec i s
  | .error _ => .refused (.unassignedOpcode (opcodeOf f))

/-- One rising edge of clk. A configuration that breaks 00_scope.md R13 is refused. -/
def step (s : State) : Host.Outcome State Fault Refusal :=
  if s.cfg.legal then
    match clockEdge s with
    | .settled t => .next t
    | .run f t => runFrame f t
  else .refused .illegalConfiguration

/-- The state in which the opcode-table word w is the command in flight, due at the very next step
(20_memory.md R101; log entry 13). -/
def State.withFetchWord (s : State) (nbits w : Nat) : State :=
  loadFrame (BitVec.ofNat 40 (w % 2 ^ nbits)) s

end Sys2Proof.Machine
end

