-- ==== Sys2Proof/Safety.lean ====
section
/-!
DEFINITION. The terms claims use: ranges of f32 values, the invariants of 10_state.md R74, what a command leaves
unchanged, and the clamp of a control written out as cases.
-/

namespace Sys2Proof

open Sys2Proof.Machine

/-- x lies in [lo, hi]; no NaN does (40_numerics.md R167). -/
def within (lo hi x : F32) : Bool := fLe lo x && fLe x hi

/-- x lies in [lo, hi). -/
def withinBelow (lo hi x : F32) : Bool := fLe lo x && fLt x hi

/-- v is the operand x clamped to [lo, hi], case by case: a NaN gives the lower bound, a value outside the nearer
bound, any other value itself (40_numerics.md R146). -/
def ClampedTo (lo hi x v : F32) : Prop :=
  (isNaN x = true → v = lo) ∧ (fLt x lo = true → v = lo) ∧ (fGt x hi = true → v = hi) ∧ (within lo hi x = true → v = x)

/-- No cell of a delay memory differs (20_memory.md R110). -/
def SameCells (r r' : ResState) : Prop := ∀ (line : Fin 6) (idx : Nat), delayRead r' line idx = delayRead r line idx

/-- What no command changes: the configuration, the surroundings, and the command in flight. -/
def SameSurroundings (s t : State) : Prop := t.cfg = s.cfg ∧ t.host = s.host ∧ t.port.inFlight = s.port.inFlight

/-- The response word of the command just executed is w (20_memory.md R101, 30_encoding.md R133). -/
def Responds (w : Word) (t : State) : Prop := t.port.rspValid = true ∧ t.port.rspData = w

/-- Nothing but the control registers and the response differs. -/
def OnlyRegistersChange (s t : State) : Prop :=
  t.env = s.env ∧ t.cas = s.cas ∧ t.fm = s.fm ∧ t.res = s.res ∧ t.eng = s.eng ∧ t.status = s.status ∧
    SameSurroundings s t ∧ SameCells s.res t.res

/-- Nothing but the response differs. -/
def OnlyResponseChanges (s t : State) : Prop := t.reg = s.reg ∧ OnlyRegistersChange s t

/-- The block's own state: everything but the command port and the surroundings. -/
def SameBlock (s t : State) : Prop :=
  t.cfg = s.cfg ∧ t.reg = s.reg ∧ t.env = s.env ∧ t.cas = s.cas ∧ t.fm = s.fm ∧ t.res = s.res ∧ t.eng = s.eng ∧
    t.status = s.status

/-- Commands executed one after the other, stopping at the first that does not answer a next state
(20_memory.md R112, R113). -/
def execAll : List Instr → State → Host.Outcome State Fault Refusal
  | [], s => .next s
  | i :: is, s =>
    match exec i s with
    | .next t => execAll is t
    | .fault r => .fault r
    | .refused r => .refused r

/-- The two states agree on everything a PROCESS of the active voice may read: all but the other two oscillators, the
port and the surroundings (70_reset_and_hazards.md R406). -/
def AgreeOnActiveVoice (s t : State) : Prop :=
  t.cfg = s.cfg ∧ t.reg = s.reg ∧ t.env = s.env ∧ t.eng = s.eng ∧
    (s.eng.voice = .cascade → t.cas = s.cas) ∧ (s.eng.voice = .fm → t.fm = s.fm) ∧
    (s.eng.voice = .resonator → t.res = s.res)

/-- The sample x is in range for the configuration: finite, and within the safety bound (45_engine.md R327). -/
def InSafetyRange (c : Params) (x : F32) : Prop :=
  isFinite x = true ∧ within (fNeg c.safetyBound) c.safetyBound x = true

/-- The lengths of the six lines, by selector (45_engine.md R322). -/
def LengthsInRange (c : Params) (r : ResState) : Prop :=
  (∀ k : Fin 4, Config.combMin ≤ r.combLen[k] ∧ r.combLen[k] < c.combCap) ∧
    (∀ j : Fin 2, Config.apMin ≤ r.apLen[j] ∧ r.apLen[j] < c.apCap)

/-- Every write index is below the length of its line (10_state.md R66). -/
def IndicesBelowLengths (r : ResState) : Prop :=
  (∀ k : Fin 4, r.combW[k] < r.combLen[k]) ∧ (∀ j : Fin 2, r.apW[j] < r.apLen[j])

/-- The cells one RES.process stores to: of comb line k the cell at `combIdx`, of allpass j the cell at `apIdx`, both of
the state before it (44_resonator.md R280, R281). -/
def StoredBy (r : ResState) (line : Fin 6) (idx : Nat) : Prop :=
  (∃ k : Fin 4, line = combLine k ∧ idx = combIdx r k) ∨ (∃ j : Fin 2, line = apLine j ∧ idx = apIdx r j)

/-- Every control register lies in [0.0, 1.0] (10_state.md R42). -/
def Machine.Regs.normalised (r : Regs) : Prop := ∀ id x, regOfId r id = some x → within lit0 lit1 x = true

/-- The invariants of the resonator (10_state.md R63, R65, R66, R68, R74): frequencies in range, lengths in
[minimum, capacity), write indices below the lengths, the delay memories canonical and within capacity. -/
structure Machine.ResState.Inv (c : Params) (r : ResState) : Prop where
  freq : within c.fMin c.fMax r.freq = true
  baseFreq : within c.fMin c.fMax r.baseFreq = true
  baseDelay : 1 ≤ r.baseDelay ∧ r.baseDelay < c.combCap
  lengths : LengthsInRange c r
  indices : IndicesBelowLengths r
  canonical : ∀ line : Fin 6, Memory.wf r.lines[line] = true
  cells : ∀ (line : Fin 6) (p : Nat × F32), p ∈ r.lines[line] → p.1 < lineCap c line

/-- The invariants that hold for every legal configuration (10_state.md R42, R57, R70, R74, 45_engine.md R327). -/
structure Machine.State.Inv (s : State) : Prop where
  legal : s.cfg.legal = true
  regs : s.reg.normalised
  curFreq : within s.cfg.fMin s.cfg.fMax s.eng.curFreq = true
  casFreq : within s.cfg.fMin s.cfg.fMax s.cas.freq = true
  fmFreq : within s.cfg.fMin s.cfg.fMax s.fm.freq = true
  henv : s.cas.henv = Vector.replicate 8 lit1
  res : s.res.Inv s.cfg
  sample : InSafetyRange s.cfg s.eng.lastSample

/-- The default parameters of 00_scope.md R11, whatever the elementary functions and the modulation source. -/
def Params.isDefault (c : Params) : Prop :=
  { c with fns := FnInstance.reference, modSource := ModSource.lorenz } = Params.default

/-- -20.0, a bound of the filter states. -/
def litNeg20 : F32 := 0xC1A00000

/-- 20.0, a bound of the filter states. -/
def lit20 : F32 := 0x41A00000

/-- 5.0 (44_resonator.md R281). -/
def lit5 : F32 := 0x40A00000

/-- -5.0 (44_resonator.md R281). -/
def litNeg5 : F32 := 0xC0A00000

/-- The bound of the cells of one line: 1 for the comb lines, 2 and 5 for the allpass lines (44_resonator.md R280, R281). -/
def cellBound (line : Fin 6) : F32 := if line.val ≤ 3 then lit1 else if line.val = 4 then lit2 else lit5

/-- The numeric invariants of the resonator under the default parameters (44_resonator.md R279 to R282). -/
structure Machine.ResState.Numeric (r : ResState) : Prop where
  impulse : within lit0 lit1 r.impulse = true
  burst : within lit0 lit1 r.burst = true
  lp : ∀ k : Fin 4, within litNeg20 lit20 r.lp[k] = true
  cells : ∀ (line : Fin 6) (idx : Nat), within (fNeg (cellBound line)) (cellBound line) (delayRead r line idx) = true

/-- The numeric invariants under the default parameters (10_state.md R51, R56, R61, R62, R74, 44_resonator.md R282). -/
structure Machine.State.Numeric (s : State) : Prop where
  isDefault : s.cfg.isDefault
  level : within lit0 lit1 s.env.level = true
  attackRate : within lit0 lit1 s.env.attackRate = true
  decayCoeff : within lit0 lit1 s.env.decayCoeff = true
  phase : ∀ i : Fin 8, withinBelow lit0 lit1 s.cas.phase[i] = true
  modPhase : withinBelow lit0 lit1 s.fm.modPhase = true
  carPhase : withinBelow lit0 lit1 s.fm.carPhase = true
  lastMod : within litNeg1 lit1 s.fm.lastMod = true
  res : s.res.Numeric
  meter : within lit0 lit2 s.eng.meter = true
  statusLevel : within lit0 lit1 s.status.level = true

end Sys2Proof
end

