-- ==== Sys2Proof/Certificates/Slice0/Obligations.lean ====
section
/-!
DEFINITION. The statements for the provers. Each docstring names the rules of spec/ it formalises.
-/

open Sys2Proof
open Sys2Proof.Machine

/-! ## Encoding (30_encoding.md, 20_memory.md R105) -/

/-- Decoding the frame of a command gives the command back, with its operand at every value (R130, R137, R138). -/
def Obligations.DecodeOfEncode : Prop := ∀ i : Instr, decode (encode i) = .ok i

/-- Every frame that decodes: the command has the frame's opcode, and its operand is the whole operand field for f32 and
u32, bit 0 for bool, and nothing for none (R130, R131, R137). -/
def Obligations.DecodeReadsTheOperand : Prop :=
  ∀ (f : Frame) (i : Instr), decode f = .ok i →
    i.opcode = opcodeOf f ∧
      (operandTypeOf (opcodeOf f) = some .f32 → i.field = operandField f) ∧
      (operandTypeOf (opcodeOf f) = some .u32 → i.field = operandField f) ∧
      (operandTypeOf (opcodeOf f) = some .bool → i.field = operandField f &&& 1) ∧
      (operandTypeOf (opcodeOf f) = some .none → i.field = 0)

/-- A frame is rejected exactly when its opcode is one of the unassigned ones (R134), by the opcode's name; every other
frame decodes. -/
def Obligations.UnassignedOpcodes : Prop :=
  ∀ f : Frame,
    ((∃ i, decode f = .ok i) ∨ decode f = .error (.unassignedOpcode (opcodeOf f))) ∧
      ((¬∃ i, decode f = .ok i) ↔
        (opcodeOf f).toNat = 0x0F ∨ (0x15 ≤ (opcodeOf f).toNat ∧ (opcodeOf f).toNat ≤ 0x1F) ∨
          (0x21 ≤ (opcodeOf f).toNat ∧ (opcodeOf f).toNat ≤ 0x2F) ∨ 0x38 ≤ (opcodeOf f).toNat)

/-- Ignored operand bits never change what is decoded or executed, and reserve no frame (R135). -/
def Obligations.DontCareBits : Prop :=
  ∀ (op : BitVec 8) (x y : Word) (s : State),
    (operandTypeOf op = some .none ∨ (op = 0x12 ∧ x.getLsbD 0 = y.getLsbD 0)) →
      decode (frameOf op x) = decode (frameOf op y) ∧ runFrame (frameOf op x) s = runFrame (frameOf op y) s ∧
        ∃ i, decode (frameOf op x) = .ok i

/-- A byte transport carries a frame as five bytes and a response as four, the most significant byte first, and gives
back what was sent (20_memory.md R105; log entry 17). -/
def Obligations.ByteTransport : Prop :=
  ∀ (f : Frame) (rest : List Byte) (w : Word),
    frameOfBytes (bytesOfFrame f ++ rest) = some (f, rest) ∧
      (∃ b4 b3 b2 b1 b0, bytesOfFrame f = [b4, b3, b2, b1, b0] ∧ b4 ++ b3 ++ b2 ++ b1 ++ b0 = f ∧ b4 = opcodeOf f) ∧
      (∀ i, decode f = .ok i → decodeBytes (bytesOfFrame f ++ rest) = .ok (i, rest)) ∧
      (∃ b3 b2 b1 b0, bytesOfResponse w = [b3, b2, b1, b0] ∧ b3 ++ b2 ++ b1 ++ b0 = w)

/-- A few frames written out from the spec's encodings and examples decode to the commands they stand for (R132, R138). -/
def Obligations.SampleFramesDecode : Prop :=
  decode 0x0000000000 = .ok .nop ∧
    decode 0x013F000000 = .ok (.setAttack 0x3F000000) ∧
    decode 0x033F800000 = .ok (.setSpread 0x3F800000) ∧
    decode 0x0A7FC00000 = .ok (.setFmFold 0x7FC00000) ∧
    decode 0x10459C4000 = .ok (.setFrequency 0x459C4000) ∧
    decode 0x1100000002 = .ok (.setVoice 2) ∧
    decode 0x12FFFFFFFE = .ok (.gate false) ∧
    decode 0x1200000001 = .ok (.gate true) ∧
    decode 0x13435C0000 = .ok (.noteOn 0x435C0000) ∧
    decode 0x20DEADBEEF = .ok .process ∧
    decode 0x3600000005 = .ok (.getResDelayLen 5) ∧
    decode 0x370000000E = .ok (.readReg 0x0E) ∧
    decode 0x0F00000000 = .error (.unassignedOpcode 0x0F)

/-- A well-formed assembler line becomes a frame that decodes to a command of the line's opcode, with operand field 0 for
an operand of type none; a line that is not well formed becomes no frame. The spellings: nan, inf, -inf, a raw pattern, an
integer, and a decimal (-1)^neg × digits × 10^exp10, which stands for the nearest f32, ties to even, and for a finite one
whenever it is no larger than the largest finite f32 (R138). -/
def Obligations.AssembledLinesDecode : Prop :=
  (∀ l : AsmLine,
    (l.wellFormed = true →
      ∃ f i, l.assemble = some f ∧ decode f = .ok i ∧ i.opcode = l.opcode ∧
        (operandTypeOf l.opcode = some .none → operandField f = 0) ∧
        ∀ a, l.operand = some a → operandField f = a.field) ∧
      (l.wellFormed = false → l.assemble = none)) ∧
    AsmOperand.nan.field = 0x7FC00000 ∧ (AsmOperand.infinity false).field = 0x7F800000 ∧
    (AsmOperand.infinity true).field = 0xFF800000 ∧ (∀ w : Word, (AsmOperand.bits w).field = w) ∧
    (∀ n : Nat, n < 2 ^ 32 → (AsmOperand.int n).field.toNat = n) ∧
    ∀ (neg : Bool) (digits : Nat) (exp10 : Int),
      let x := (AsmOperand.decimal neg digits exp10).field
      let p : Nat := digits * 10 ^ exp10.toNat * 2 ^ 149
      let q : Nat := 10 ^ (-exp10).toNat
      let v : Int := if neg then -(p : Int) else p
      signBit x = neg ∧ isNaN x = false ∧ (p ≤ magUnits 0x7F7FFFFF * q → isFinite x = true) ∧
        (isFinite x = true → ∀ z, isFinite z = true →
          (units x * q - v).natAbs ≤ (units z * q - v).natAbs ∧
            ((units x * q - v).natAbs = (units z * q - v).natAbs → units z ≠ units x → magBits x % 2 = 0))

/-! ## Reset (70_reset_and_hazards.md R390 to R394) -/

/-- One rising edge with rst = 1 leaves the reset state, whatever the state before it; the reset state of the default
configuration in numbers (R391, R392). -/
def Obligations.HardwareReset : Prop :=
  (State.reset = State.resetWith Params.default State.reset.host ∧ State.reset.env.attackRate = 0x3CB9C277 ∧
    State.reset.env.decayCoeff = 0x3F7C0574 ∧ State.reset.eng.curFreq = 0x435C0000 ∧
    State.reset.cas.mod = ⟨0x3DCCCCCD, 0x00000000, 0x00000000, []⟩ ∧ State.reset.res.baseDelay = 200 ∧
    State.reset.res.combLen = #v[200, 266, 300, 400] ∧ State.reset.res.apLen = #v[100, 150] ∧
    State.reset.status.freq = 0x435C0000) ∧
  ∀ s : State, s.cfg.legal = true → (edgeInput s.host).rst = true →
    ∃ t, step s = .next t ∧ t.cfg = s.cfg ∧ t.host = hostStep s.host ∧
      (∀ id, 0x01 ≤ id → id ≤ 0x0D → regOfId t.reg id = some lit0) ∧ regOfId t.reg 0x0E = some lit1 ∧
      t.eng = { voice := .cascade, curFreq := s.cfg.defaultFreq, gate := false, meter := lit0, lastSample := lit0 } ∧
      t.env = { stage := .idle, level := lit0
                attackRate := fDiv lit1 (fMul lit0_001 s.cfg.sampleRate)
                decayCoeff := powF s.cfg.fns lit0_001 (fDiv lit1 (fMul lit0_01 s.cfg.sampleRate)) } ∧
      t.cas.freq = s.cfg.defaultFreq ∧ (∀ i : Fin 8, t.cas.phase[i] = lit0) ∧ (∀ i : Fin 8, t.cas.henv[i] = lit1) ∧
      t.cas.mod = modInit s.cfg.modSource ∧
      t.fm = { freq := s.cfg.defaultFreq, modPhase := lit0, carPhase := lit0, lastMod := lit0 } ∧
      t.res.freq = s.cfg.defaultFreq ∧ t.res.baseFreq = s.cfg.defaultFreq ∧ t.res.impulse = lit0 ∧ t.res.burst = lit0 ∧
      t.res.baseDelay = (clampI (roundI (fDiv s.cfg.sampleRate s.cfg.defaultFreq)) 1 (s.cfg.combCap - 1)).toNat ∧
      t.res.combLen = combLens s.cfg t.res.baseDelay ∧ t.res.apLen = apLens s.cfg t.res.baseDelay ∧
      (∀ k : Fin 4, t.res.combW[k] = 0 ∧ t.res.lp[k] = lit0) ∧ (∀ j : Fin 2, t.res.apW[j] = 0) ∧
      (∀ (line : Fin 6) (idx : Nat), delayRead t.res line idx = lit0) ∧
      t.status = { level := 0, playing := false, freq := s.cfg.defaultFreq } ∧
      (portOutputs true t).rspValid = false ∧ (portOutputs true t).cmdReady = false

/-- Reset wins over a command in flight and over an offered frame: the next state is the same whatever was in flight, the
command gets no response, nothing is accepted, and both port outputs are 0 while rst is 1; with rst 0 the block is ready
(R390, 60_exceptions.md R365). -/
def Obligations.ResetWins : Prop :=
  ∀ (s : State) (p : PortState), s.cfg.legal = true → (edgeInput s.host).rst = true →
    step (s.putPort p) = step s ∧
      ∃ t, step s = .next t ∧ t.port.inFlight = none ∧ t.port.rspValid = false ∧
        (portOutputs true t).cmdReady = false ∧ (portOutputs true t).rspValid = false ∧
        (portOutputs false t).cmdReady = true ∧ (portOutputs false t).rspValid = false

/-- The constraints of a configuration, and the default configuration, which keeps them all (00_scope.md R13). That a
step refuses a configuration that breaks one, at every edge and at reset edges too, is the model's choice: R13 does not
say where a model refuses it (log entry 11). -/
def Obligations.ConfigurationConstraints : Prop :=
  Params.default.legal = true ∧
    ∀ s : State,
      (s.cfg.legal = true ↔
        fGt s.cfg.sampleRate lit0 = true ∧ fLt lit0 s.cfg.fMin = true ∧ fLe s.cfg.fMin s.cfg.defaultFreq = true ∧
          fLe s.cfg.defaultFreq s.cfg.fMax = true ∧ 2 * 8 < s.cfg.combCap ∧ 2 * 4 < s.cfg.apCap ∧
          fLe lit0 s.cfg.dampMax = true ∧ fLt s.cfg.dampMax lit1 = true ∧ fLt lit0 s.cfg.excDecay = true ∧
          fLt s.cfg.excDecay lit1 = true ∧ fLe lit0 s.cfg.chaosFloor = true ∧ fLt s.cfg.chaosFloor lit1 = true ∧
          1 ≤ s.cfg.foldMaxIter ∧ fLt lit0 s.cfg.masterGain = true ∧ fGt s.cfg.safetyBound lit1 = true) ∧
        (s.cfg.legal = false → step s = .refused .illegalConfiguration)

/-! ## The command port (20_memory.md R100 to R102, R112, R113) -/

/-- A step runs the decoded command: with a command due and rst 0, the step is exec of the decoded command on the state
in which the command is no longer in flight, no response is presented, and the outside has done its part of the edge. In
particular the very next step runs a frame that `withFetchWord` puts in flight (20_memory.md R101, 30_encoding.md R137; log
entry 13). -/
def Obligations.StepRunsTheDecodedCommand : Prop :=
  (∀ (s : State) (f : Frame) (i : Instr), s.cfg.legal = true → (edgeInput s.host).rst = false →
    s.port.inFlight = some { frame := f, wait := 0 } → decode f = .ok i →
      ∃ u, step s = exec i u ∧ SameBlock s u ∧ u.host = hostStep s.host ∧
        u.port = { inFlight := none, rspValid := false, rspData := s.port.rspData }) ∧
    ∀ (s : State) (i : Instr), s.cfg.legal = true →
      step (s.withFetchWord 40 (encode i).toNat) =
        exec i (s.putPort { inFlight := none, rspValid := false, rspData := s.port.rspData })

/-- The handshake, with rst 0: a frame is accepted only while none is in flight; from then on the block is not ready; an
edge that only waits, or finds no frame, presents no response; none of these edges changes the block. The accepted frame:
an offered one that is no PROCESS, and the queue is kept; with nothing offered the head of the queue, which leaves it;
with nothing offered and nothing queued none (20_memory.md R101, R102; log entry 12). An offered PROCESS is
MailboxKeepsTheNewest's. -/
def Obligations.Handshake : Prop :=
  ∀ s : State, s.cfg.legal = true → (edgeInput s.host).rst = false →
    (s.port.inFlight = none → ∃ t, step s = .next t ∧ SameBlock s t ∧ t.port.rspValid = false ∧
      (∀ f b, drivenFrame (edgeInput s.host).cmd (pollStep (edgeInput s.host).cmd (hostStep s.host)).issue = some (f, b) →
        t.port.inFlight = some { frame := f, wait := (edgeInput s.host).latency } ∧ (portOutputs false t).cmdReady = false) ∧
      (drivenFrame (edgeInput s.host).cmd (pollStep (edgeInput s.host).cmd (hostStep s.host)).issue = none →
        t.port.inFlight = none ∧ (portOutputs false t).cmdReady = true) ∧
      (∀ f, (edgeInput s.host).cmd = some f → opcodeOf f ≠ 0x20 →
        t.port.inFlight = some { frame := f, wait := (edgeInput s.host).latency } ∧
          t.host.issue = (hostStep s.host).issue ∧ (portOutputs false t).cmdReady = false) ∧
      (∀ g rest, (edgeInput s.host).cmd = none → (hostStep s.host).issue = g :: rest →
        t.port.inFlight = some { frame := g, wait := (edgeInput s.host).latency } ∧ t.host.issue = rest ∧
          (portOutputs false t).cmdReady = false) ∧
      ((edgeInput s.host).cmd = none → (hostStep s.host).issue = [] →
        t.port.inFlight = none ∧ t.host.issue = [] ∧ (portOutputs false t).cmdReady = true)) ∧
    (∀ f n, s.port.inFlight = some { frame := f, wait := n + 1 } → ∃ t, step s = .next t ∧ SameBlock s t ∧
      t.port.rspValid = false ∧ t.port.inFlight = some { frame := f, wait := n } ∧ (portOutputs false t).cmdReady = false)

/-- The latency of a command never matters to the block: a command that waits n edges executes at the edge after them,
on the block as it was, and answers then (20_memory.md R101, 70_reset_and_hazards.md R410). -/
def Obligations.LatencyDoesNotMatter : Prop :=
  ∀ (n : Nat) (s : State) (f : Frame) (i : Instr), s.cfg.legal = true →
    (∀ k, k ≤ n → (edgeInput (hostStep^[k] s.host)).rst = false) →
    s.port.inFlight = some { frame := f, wait := n } → decode f = .ok i →
      ∃ t, Host.Core.run Sys2Proof.core (n + 1) s = .next t ∧ exec i (releaseStep (s.putHost (hostStep^[n + 1] s.host))) = .next t ∧
        t.port.rspValid = true ∧ t.port.inFlight = none

/-- Every command answers a next state from every state, with a response, and touches neither the configuration nor the
surroundings nor the command in flight (60_exceptions.md R360, R368; 30_encoding.md R133). -/
def Obligations.EveryCommandAnswers : Prop :=
  ∀ (i : Instr) (s : State), ∃ t, exec i s = .next t ∧ t.port.rspValid = true ∧ SameSurroundings s t

/-- A step stops only where the spec asks a model to: at a configuration that breaks a constraint, and at a due frame with
an unassigned opcode, which it names. Everywhere else it answers a next state (60_exceptions.md R360, 00_scope.md R13,
30_encoding.md R134; log entries 10, 11). -/
def Obligations.StepStopsOnlyWhereAsked : Prop :=
  ∀ s : State,
    (s.cfg.legal = false → step s = .refused .illegalConfiguration) ∧
    (∀ f, s.cfg.legal = true → (edgeInput s.host).rst = false → s.port.inFlight = some { frame := f, wait := 0 } →
      operandTypeOf (opcodeOf f) = none → step s = .refused (.unassignedOpcode (opcodeOf f))) ∧
    (s.cfg.legal = true → ((edgeInput s.host).rst = true ∨ ∀ f, s.port.inFlight = some { frame := f, wait := 0 } →
      operandTypeOf (opcodeOf f) ≠ none) → ∃ t, step s = .next t)

/-- What a command does depends on the block alone: from two states with the same block it leaves the same block and
gives the same response, whatever the port and the surroundings (20_memory.md R102, R113; 70_reset_and_hazards.md R410). -/
def Obligations.CommandsReadTheBlockAlone : Prop :=
  ∀ (i : Instr) (s s' t t' : State), SameBlock s s' → exec i s = .next t → exec i s' = .next t' →
    SameBlock t t' ∧ t'.port.rspData = t.port.rspData

/-! ## The parameter mailbox (20_memory.md R116, R118, 70_reset_and_hazards.md R402) -/

/-- The mailbox holds the newest record only: a record overwritten before a read is lost; a read empties the slot and
queues the record's seventeen commands behind what is already queued; a read of an empty slot queues nothing. Between two
PROCESS commands the audio agent reads the slot: a PROCESS offered when the slot has not been read since the last one
finds it read at that edge at the latest, so no PROCESS goes past a full slot, and it is accepted only when nothing is
queued; from then on the slot is to be read again (20_memory.md R116, R118, 70_reset_and_hazards.md R402; that a PROCESS
that cannot go yet is to be offered again is log entry 12). -/
def Obligations.MailboxKeepsTheNewest : Prop :=
  (∀ (h : HostSide) (r r' : ParamRecord),
    mailStep (.write r') (mailStep (.write r) h) = mailStep (.write r') h ∧
      (mailStep (.write r) h).mailbox = some r ∧
      (mailStep .read (mailStep (.write r) h)).mailbox = none ∧
      (mailStep .read (mailStep (.write r) h)).issue = h.issue ++ (recordCommands r).map encode ∧
      (h.mailbox = none → mailStep .read h = { h with polled := true })) ∧
    ∀ (s : State) (f : Frame) (q : List Frame), s.cfg.legal = true → (edgeInput s.host).rst = false →
      s.port.inFlight = none → (edgeInput s.host).cmd = some f → decode f = .ok .process →
      q = (hostStep s.host).issue ++ (match (hostStep s.host).polled, (hostStep s.host).mailbox with
        | false, some r => (recordCommands r).map encode
        | _, _ => []) →
        ∃ t, step s = .next t ∧ SameBlock s t ∧
          ((hostStep s.host).polled = false → t.host.mailbox = none) ∧
          ((hostStep s.host).polled = true → t.host.mailbox = (hostStep s.host).mailbox) ∧
          (q = [] → t.port.inFlight = some { frame := f, wait := (edgeInput s.host).latency } ∧ t.host.issue = [] ∧
            t.host.polled = false) ∧
          (∀ g rest, q = g :: rest → t.port.inFlight = some { frame := g, wait := (edgeInput s.host).latency } ∧
            t.host.issue = rest)

/-- The commands of a drained record are those of the registers in the order of their ids, FREQ, VOICE and GATE last, and
executed in that order they leave every register at the record's clamped value (20_memory.md R116, 10_state.md R42,
45_engine.md R311). -/
def Obligations.RecordDelivery : Prop :=
  ∀ (r : ParamRecord) (s : State),
    (recordCommands r).map Instr.opcode = [0x01, 0x02, 0x03, 0x04, 0x05, 0x06, 0x07, 0x08, 0x09, 0x0A, 0x0B, 0x0C, 0x0D,
      0x0E, 0x10, 0x11, 0x12] ∧
    ∃ t, execAll (recordCommands r) s = .next t ∧
    ClampedTo lit0 lit1 r.attack t.reg.attack ∧ ClampedTo lit0 lit1 r.decay t.reg.decay ∧
    ClampedTo lit0 lit1 r.spread t.reg.spread ∧ ClampedTo lit0 lit1 r.cascade t.reg.cascade ∧
    ClampedTo lit0 lit1 r.wavefold t.reg.wavefold ∧ ClampedTo lit0 lit1 r.chaos t.reg.chaos ∧
    ClampedTo lit0 lit1 r.fmIndex t.reg.fmIndex ∧ ClampedTo lit0 lit1 r.fmRatio t.reg.fmRatio ∧
    ClampedTo lit0 lit1 r.fmFeedback t.reg.fmFeedback ∧ ClampedTo lit0 lit1 r.fmFold t.reg.fmFold ∧
    ClampedTo lit0 lit1 r.resFeedback t.reg.resFeedback ∧ ClampedTo lit0 lit1 r.resDamp t.reg.resDamp ∧
    ClampedTo lit0 lit1 r.resMix t.reg.resMix ∧ ClampedTo lit0 lit1 r.verbExcite t.reg.verbExcite ∧
    (s.cfg.legal = true → ClampedTo s.cfg.fMin s.cfg.fMax r.freq t.eng.curFreq) ∧
    t.eng.voice = (if r.voice = 0 then .cascade else if r.voice = 1 then .fm else .resonator) ∧ t.eng.gate = r.gate

/-! ## Numerics (40_numerics.md) -/

/-- A sum, product or quotient of finite numbers (the divisor not 0) is finite whenever the exact one is no larger than
the largest finite f32, and a finite result is the exact one rounded to the nearest f32, ties to the even one, subnormals
kept; a NaN operand gives a NaN, Inf - Inf and 0/0 are NaN, and a nonzero finite number divided by a zero is the infinity
of the sign the operands give (R141). -/
def Obligations.BasicOperations : Prop :=
  ∀ x y : F32,
    (isFinite x = true → isFinite y = true →
      ((units x + units y).natAbs ≤ magUnits 0x7F7FFFFF → isFinite (fAdd x y) = true) ∧
      ((units x * units y).natAbs ≤ magUnits 0x7F7FFFFF * 2 ^ 149 → isFinite (fMul x y) = true) ∧
      (magBits y ≠ 0 → magUnits x * 2 ^ 149 ≤ magUnits 0x7F7FFFFF * magUnits y → isFinite (fDiv x y) = true)) ∧
    (isFinite x = true → isFinite y = true → isFinite (fAdd x y) = true → ∀ z, isFinite z = true →
      (units (fAdd x y) - (units x + units y)).natAbs ≤ (units z - (units x + units y)).natAbs ∧
        ((units (fAdd x y) - (units x + units y)).natAbs = (units z - (units x + units y)).natAbs →
          units z ≠ units (fAdd x y) → magBits (fAdd x y) % 2 = 0)) ∧
    (isFinite x = true → isFinite y = true → isFinite (fMul x y) = true → ∀ z, isFinite z = true →
      (units (fMul x y) * 2 ^ 149 - units x * units y).natAbs ≤ (units z * 2 ^ 149 - units x * units y).natAbs ∧
        ((units (fMul x y) * 2 ^ 149 - units x * units y).natAbs = (units z * 2 ^ 149 - units x * units y).natAbs →
          units z ≠ units (fMul x y) → magBits (fMul x y) % 2 = 0)) ∧
    (isFinite x = true → isFinite y = true → magBits y ≠ 0 → isFinite (fDiv x y) = true → ∀ z, isFinite z = true →
      (units (fDiv x y) * units y - units x * 2 ^ 149).natAbs ≤ (units z * units y - units x * 2 ^ 149).natAbs ∧
        ((units (fDiv x y) * units y - units x * 2 ^ 149).natAbs = (units z * units y - units x * 2 ^ 149).natAbs →
          units z ≠ units (fDiv x y) → magBits (fDiv x y) % 2 = 0)) ∧
    (isNaN x = true ∨ isNaN y = true →
      isNaN (fAdd x y) = true ∧ isNaN (fSub x y) = true ∧ isNaN (fMul x y) = true ∧ isNaN (fDiv x y) = true) ∧
    (isInf x = true → isInf y = true → signBit x = signBit y → isNaN (fSub x y) = true) ∧
    (magBits x = 0 → magBits y = 0 → isNaN (fDiv x y) = true) ∧
    (isFinite x = true → magBits x ≠ 0 → magBits y = 0 →
      isInf (fDiv x y) = true ∧ signBit (fDiv x y) = (signBit x != signBit y))

/-- Conversions: floorI is the greatest integer at or below x, roundI the nearest one with ties away from zero, f32i is
exact up to 2^24 (R145). -/
def Obligations.IntegerConversions : Prop :=
  (∀ x : F32, isFinite x = true → 0 ≤ units x → units x ≤ 2 ^ 24 * 2 ^ 149 →
    (floorI x * 2 ^ 149 ≤ units x ∧ units x < (floorI x + 1) * 2 ^ 149) ∧
      (∀ n : Int, (roundI x * 2 ^ 149 - units x).natAbs ≤ (n * 2 ^ 149 - units x).natAbs) ∧
      (∀ n : Int, 2 * (units x - n * 2 ^ 149) = 2 ^ 149 → roundI x = n + 1)) ∧
    ∀ n : Int, -(2 ^ 24) ≤ n → n ≤ 2 ^ 24 → isFinite (f32i n) = true ∧ units (f32i n) = n * 2 ^ 149

/-- The clamps of an f32 and of an int, and minimum, maximum and absolute value with their behaviour on a NaN (R146, R147,
R167). -/
def Obligations.ClampsAndExtremes : Prop :=
  (∀ x lo hi : F32, fLe lo hi = true → ClampedTo lo hi x (clampF x lo hi) ∧ within lo hi (clampF x lo hi) = true ∧
      (isInf x = true → signBit x = false → isFinite hi = true → clampF x lo hi = hi) ∧
      (isInf x = true → signBit x = true → isFinite lo = true → clampF x lo hi = lo)) ∧
    (∀ n lo hi : Int, lo ≤ hi →
      (n < lo → clampI n lo hi = lo) ∧ (hi < n → clampI n lo hi = hi) ∧ (lo ≤ n → n ≤ hi → clampI n lo hi = n)) ∧
    ∀ a b : F32,
      (isNaN a = true ∨ isNaN b = true → maxF a b = a ∧ minF a b = a) ∧
        (isNaN a = false → isNaN b = false →
          (units a < units b → maxF a b = b ∧ minF a b = a) ∧ (units b < units a → maxF a b = a ∧ minF a b = b) ∧
            (units a = units b → maxF a b = a ∧ minF a b = a)) ∧
        (absF a).toNat = a.toNat % 2 ^ 31

/-- The contracts of sinF, tanhF and powF, whatever the instance: sinF in [-1, 1] on finite arguments, zeros to
themselves, NaN on NaN and infinity (R142); tanhF in [-1, 1], odd, monotone non-decreasing, no larger than its argument in
magnitude, ±1.0 at the infinities, NaN on NaN (R143); powF 1.0 at exponent +0, the base at exponent 1.0, positive, and
monotone in the exponent, non-decreasing for a base above 1.0 and non-increasing for one below (R144; log entry 2). -/
def Obligations.FunctionContracts : Prop :=
  ∀ i : FnInstance,
    (∀ x : F32, (isFinite x = true → within litNeg1 lit1 (sinF i x) = true) ∧ (isFinite x = false → isNaN (sinF i x) = true) ∧
      (isNaN x = false → within litNeg1 lit1 (tanhF i x) = true ∧ tanhF i (fNeg x) = fNeg (tanhF i x) ∧
        magUnits (tanhF i x) ≤ magUnits x) ∧
      (isNaN x = true → isNaN (tanhF i x) = true)) ∧
    sinF i 0x00000000 = 0x00000000 ∧ sinF i 0x80000000 = 0x80000000 ∧
    tanhF i 0x00000000 = 0x00000000 ∧ tanhF i 0x80000000 = 0x80000000 ∧ tanhF i 0x7F800000 = lit1 ∧
    tanhF i 0xFF800000 = litNeg1 ∧ (∀ x y : F32, fLe x y = true → fLe (tanhF i x) (tanhF i y) = true) ∧
    ∀ b e : F32, isFinite b = true → fGt b lit0 = true → isFinite e = true →
      powF i b 0x00000000 = lit1 ∧ powF i b lit1 = b ∧ fGt (powF i b e) lit0 = true ∧
        ∀ e' : F32, isFinite e' = true → fLe e e' = true →
          (fGt b lit1 = true → fLe (powF i b e) (powF i b e') = true) ∧
            (fLt b lit1 = true → fLe (powF i b e') (powF i b e) = true)

/-- The triangle fold reflects at 1.0 and at -1.0, one reflection at a time, up to its count of them;
so it brings every finite |y| <= 1 + 2k into [-1, 1] within k reflections, returns a value already there unchanged,
returns a NaN unchanged, and an infinity as an infinity (R160). The fold stage above the threshold 0.01 drives,
folds and crossfades, and up to it is the identity; under the default parameters it keeps [-1, 1] (R161,
42_cascade.md R209, 43_fm.md R248). -/
def Obligations.WaveFolding : Prop :=
  (∀ (k : Nat) (y : F32), triFold 0 y = y ∧ (fGt y lit1 = true → triFold (k + 1) y = triFold k (fSub lit2 y)) ∧
    (fLt y litNeg1 = true → triFold (k + 1) y = triFold k (fSub litNeg2 y))) ∧
  (∀ (c : Params) (x w : F32),
    (fGt w lit0_01 = true → foldStage c x w = fAdd (fMul (fSub lit1 w) x)
      (fMul w (triFold c.foldMaxIter (fMul x (fAdd lit1 (fMul c.foldDrive w)))))) ∧
    (fGt w lit0_01 = false → foldStage c x w = x)) ∧
  (∀ (k : Nat) (y : F32), k ≤ 16 →
    (isFinite y = true → magUnits y ≤ (1 + 2 * k) * 2 ^ 149 → within litNeg1 lit1 (triFold k y) = true) ∧
      (within litNeg1 lit1 y = true → triFold k y = y) ∧ (isNaN y = true → triFold k y = y) ∧
      (isInf y = true → isInf (triFold k y) = true)) ∧
    ∀ (c : Params) (x w : F32), c.isDefault → within litNeg1 lit1 x = true → within lit0 lit1 w = true →
      within litNeg1 lit1 (foldStage c x w) = true ∧ (fLe w lit0_01 = true → foldStage c x w = x)

/-- The exponential map at its ends and between them, whatever the instance of powF: lo at 0, lo × ratio at 1, and 2.0,
8.0 and 8.0 for attack, decay and FM index (R165). -/
def Obligations.ExponentialMap : Prop :=
  ∀ c : Params,
    (∀ lo ratio : F32, isFinite lo = true → isFinite ratio = true → fGt ratio lit0 = true →
      units (expMap c lit0 lo ratio) = units lo ∧ expMap c lit1 lo ratio = fMul lo ratio) ∧
    expMap c lit1 lit0_001 lit2000 = 0x40000000 ∧ expMap c lit1 lit0_01 lit800 = 0x41000000 ∧
    expMap c lit1 lit0_15 litIdxRatio = 0x41000000 ∧
    ∀ x : F32, within lit0 lit1 x = true →
      within lit0_001 0x40000000 (expMap c x lit0_001 lit2000) = true ∧
        within lit0_01 0x41000000 (expMap c x lit0_01 lit800) = true ∧
        within lit0_15 0x41000000 (indexOf c x) = true

/-! ## Control registers (10_state.md R42, R44) -/

/-- The four CAS setters store the clamped operand, and change nothing else (42_cascade.md R200 to R203, 10_state.md R42). -/
def Obligations.CascadeSetters : Prop :=
  ∀ (x : F32) (s : State), ∃ v, ClampedTo lit0 lit1 x v ∧
    (∃ t, exec (.setSpread x) s = .next t ∧ t.reg = { s.reg with spread := v } ∧ OnlyRegistersChange s t ∧ Responds 0 t) ∧
    (∃ t, exec (.setCascade x) s = .next t ∧ t.reg = { s.reg with cascade := v } ∧ OnlyRegistersChange s t ∧ Responds 0 t) ∧
    (∃ t, exec (.setWavefold x) s = .next t ∧ t.reg = { s.reg with wavefold := v } ∧ OnlyRegistersChange s t ∧
      Responds 0 t) ∧
    (∃ t, exec (.setChaos x) s = .next t ∧ t.reg = { s.reg with chaos := v } ∧ OnlyRegistersChange s t ∧ Responds 0 t)

/-- The four FM setters store the clamped operand, and change nothing else (43_fm.md R240 to R243). -/
def Obligations.FmSetters : Prop :=
  ∀ (x : F32) (s : State), ∃ v, ClampedTo lit0 lit1 x v ∧
    (∃ t, exec (.setFmIndex x) s = .next t ∧ t.reg = { s.reg with fmIndex := v } ∧ OnlyRegistersChange s t ∧
      Responds 0 t) ∧
    (∃ t, exec (.setFmRatio x) s = .next t ∧ t.reg = { s.reg with fmRatio := v } ∧ OnlyRegistersChange s t ∧
      Responds 0 t) ∧
    (∃ t, exec (.setFmFeedback x) s = .next t ∧ t.reg = { s.reg with fmFeedback := v } ∧ OnlyRegistersChange s t ∧
      Responds 0 t) ∧
    (∃ t, exec (.setFmFold x) s = .next t ∧ t.reg = { s.reg with fmFold := v } ∧ OnlyRegistersChange s t ∧ Responds 0 t)

/-- The four RES setters store the clamped operand, and change nothing else: an excitation already armed keeps its height
(44_resonator.md R270 to R273). -/
def Obligations.ResonatorSetters : Prop :=
  ∀ (x : F32) (s : State), ∃ v, ClampedTo lit0 lit1 x v ∧
    (∃ t, exec (.setResFeedback x) s = .next t ∧ t.reg = { s.reg with resFeedback := v } ∧ OnlyRegistersChange s t ∧
      Responds 0 t) ∧
    (∃ t, exec (.setResDamp x) s = .next t ∧ t.reg = { s.reg with resDamp := v } ∧ OnlyRegistersChange s t ∧
      Responds 0 t) ∧
    (∃ t, exec (.setResMix x) s = .next t ∧ t.reg = { s.reg with resMix := v } ∧ OnlyRegistersChange s t ∧ Responds 0 t) ∧
    (∃ t, exec (.setVerbExcite x) s = .next t ∧ t.reg = { s.reg with verbExcite := v } ∧ OnlyRegistersChange s t ∧
      Responds 0 t)

/-- SET_ATTACK and SET_DECAY store the clamped operand and derive the rate and the coefficient from it; the stage, the
level and everything else are unchanged (41_envelope.md R170, R171, 70_reset_and_hazards.md R409). -/
def Obligations.EnvelopeSetters : Prop :=
  ∀ (x : F32) (s : State), ∃ v, ClampedTo lit0 lit1 x v ∧
    (∃ t, exec (.setAttack x) s = .next t ∧ Responds 0 t ∧ t.reg = { s.reg with attack := v } ∧
      t.env = { s.env with
        attackRate := fDiv lit1 (fMul (fMul lit0_001 (powF s.cfg.fns lit2000 v)) s.cfg.sampleRate) } ∧
      t.cas = s.cas ∧ t.fm = s.fm ∧ t.res = s.res ∧ t.eng = s.eng ∧ t.status = s.status ∧ SameSurroundings s t ∧
      SameCells s.res t.res) ∧
    (∃ t, exec (.setDecay x) s = .next t ∧ Responds 0 t ∧ t.reg = { s.reg with decay := v } ∧
      t.env = { s.env with
        decayCoeff := powF s.cfg.fns lit0_001
          (fDiv lit1 (fMul (fMul lit0_01 (powF s.cfg.fns lit800 v)) s.cfg.sampleRate)) } ∧
      t.cas = s.cas ∧ t.fm = s.fm ∧ t.res = s.res ∧ t.eng = s.eng ∧ t.status = s.status ∧ SameSurroundings s t ∧
      SameCells s.res t.res)

/-- READ_REG answers the stored value of every register id and 0 for any other id, and changes nothing but the response;
a register written with a NaN reads back as 0.0, and FREQ as F_MIN (45_engine.md R323, 10_state.md R42, R44). -/
def Obligations.ReadRegister : Prop :=
  ∀ (id : Word) (s : State), ∃ t w, exec (.readReg id) s = .next t ∧ OnlyResponseChanges s t ∧ Responds w t ∧
    (id = 0x01 → w = s.reg.attack) ∧ (id = 0x02 → w = s.reg.decay) ∧ (id = 0x03 → w = s.reg.spread) ∧
    (id = 0x04 → w = s.reg.cascade) ∧ (id = 0x05 → w = s.reg.wavefold) ∧ (id = 0x06 → w = s.reg.chaos) ∧
    (id = 0x07 → w = s.reg.fmIndex) ∧ (id = 0x08 → w = s.reg.fmRatio) ∧ (id = 0x09 → w = s.reg.fmFeedback) ∧
    (id = 0x0A → w = s.reg.fmFold) ∧ (id = 0x0B → w = s.reg.resFeedback) ∧ (id = 0x0C → w = s.reg.resDamp) ∧
    (id = 0x0D → w = s.reg.resMix) ∧ (id = 0x0E → w = s.reg.verbExcite) ∧ (id = 0x10 → w = s.eng.curFreq) ∧
    (id = 0x11 → w = (match s.eng.voice with | .cascade => 0 | .fm => 1 | .resonator => 2)) ∧
    (id = 0x12 → w = if s.eng.gate then 1 else 0) ∧
    (id = 0x00 ∨ id = 0x0F ∨ 0x12 < id.toNat → w = 0) ∧
    (∀ (f : Word) (u : State), exec (.setFrequency f) s = .next u → isNaN f = true →
      ∃ v, exec (.readReg 0x10) u = .next v ∧ v.port.rspData = s.cfg.fMin) ∧
    ∀ (op : BitVec 8) (x : Word) (i : Instr) (u : State), 0x01 ≤ op.toNat → op.toNat ≤ 0x0E → instrOf op x = some i →
      exec i s = .next u → isNaN x = true → ∃ v, exec (.readReg (op.setWidth 32)) u = .next v ∧ v.port.rspData = lit0

/-- A register written by the SET_ command of its id reads back clamped: a NaN as 0.0, a value above 1.0 as 1.0
(10_state.md R42, 40_numerics.md R146, 70_reset_and_hazards.md R395). -/
def Obligations.WrittenRegisterReadsBackClamped : Prop :=
  ∀ (op : BitVec 8) (x : F32) (i : Instr) (s : State), 0x01 ≤ op.toNat → op.toNat ≤ 0x0E → instrOf op x = some i →
    ∃ t u, exec i s = .next t ∧ exec (.readReg (op.setWidth 32)) t = .next u ∧ ClampedTo lit0 lit1 x u.port.rspData

/-! ## Engine commands (45_engine.md) -/

/-- NOP, the status reads and the diagnostic reads answer their word and change nothing but the response (R316 to R322,
R324, 10_state.md R50, 20_memory.md R104, R108). -/
def Obligations.ReadsAndNop : Prop :=
  ∀ s : State,
    (∃ t, exec .nop s = .next t ∧ Responds 0 t ∧ OnlyResponseChanges s t) ∧
    (∃ t, exec .getOutputLevel s = .next t ∧ Responds (minF lit1 (fMul s.eng.meter lit2)) t ∧ OnlyResponseChanges s t) ∧
    (∃ t, exec .isPlaying s = .next t ∧ Responds (if s.env.stage = .idle then 0 else 1) t ∧ OnlyResponseChanges s t) ∧
    (∃ t, exec .getCurrentFreq s = .next t ∧ Responds s.eng.curFreq t ∧ OnlyResponseChanges s t) ∧
    (∃ t, exec .getEnvStage s = .next t ∧
      Responds (match s.env.stage with | .idle => 0 | .attack => 1 | .decay => 2 | .sustain => 3) t ∧
      OnlyResponseChanges s t) ∧
    (∃ t, exec .getEnvLevel s = .next t ∧ Responds s.env.level t ∧ OnlyResponseChanges s t) ∧
    (∃ t, exec .getResBaseFreq s = .next t ∧ Responds s.res.baseFreq t ∧ OnlyResponseChanges s t) ∧
    ∀ sel : Word, ∃ t w, exec (.getResDelayLen sel) s = .next t ∧ Responds w t ∧ OnlyResponseChanges s t ∧
      (∀ k : Fin 4, sel.toNat = k.val → w = BitVec.ofNat 32 s.res.combLen[k]) ∧
      (∀ j : Fin 2, sel.toNat = 4 + j.val → w = BitVec.ofNat 32 s.res.apLen[j]) ∧
      (6 ≤ sel.toNat → w = 0)

/-- SET_FREQUENCY sets the clamped frequency in the engine and all three oscillators, whatever the voice; the resonator
retunes, whole, exactly when the frequency lies more than 2.0 from the one it was last tuned to; phases, cells, envelope,
gate and voice are unchanged (R310, 42_cascade.md R204, 43_fm.md R245, 44_resonator.md R274, R275, R276,
70_reset_and_hazards.md R401, R403). -/
def Obligations.SetFrequency : Prop :=
  ∀ (f : F32) (s : State), s.cfg.legal = true →
    ∃ t fc, exec (.setFrequency f) s = .next t ∧ Responds 0 t ∧ ClampedTo s.cfg.fMin s.cfg.fMax f fc ∧
      t.eng = { s.eng with curFreq := fc } ∧ t.cas = { s.cas with freq := fc } ∧ t.fm = { s.fm with freq := fc } ∧
      (fGt (absF (fSub fc s.res.baseFreq)) lit2 = false → t.res = { s.res with freq := fc }) ∧
      (fGt (absF (fSub fc s.res.baseFreq)) lit2 = true →
        t.res = { s.res with
          freq := fc, baseFreq := fc, baseDelay := baseDelayOf s.cfg fc
          combLen := combLens s.cfg (baseDelayOf s.cfg fc), apLen := apLens s.cfg (baseDelayOf s.cfg fc)
          combW := #v[0, 0, 0, 0], apW := #v[0, 0], lp := #v[lit0, lit0, lit0, lit0] }) ∧
      SameCells s.res t.res ∧ t.reg = s.reg ∧ t.env = s.env ∧ t.status = s.status ∧ SameSurroundings s t

/-- SET_VOICE: the voice already active changes nothing; another becomes active, a value above 2 being the Resonator, and
a switch into the Resonator with the gate held arms its excitation; nothing else changes; repeating the command changes
nothing more (R311, R328, 20_memory.md R108,
44_resonator.md R277, 70_reset_and_hazards.md R404). -/
def Obligations.SetVoice : Prop :=
  ∀ (v : Word) (s : State), ∃ t vc, exec (.setVoice v) s = .next t ∧ Responds 0 t ∧
    (v = 0 → vc = Voice.cascade) ∧ (v = 1 → vc = Voice.fm) ∧ (2 ≤ v.toNat → vc = Voice.resonator) ∧
    (vc = s.eng.voice → OnlyResponseChanges s t) ∧ t.eng = { s.eng with voice := vc } ∧
    (∃ u, exec (.setVoice v) t = .next u ∧ SameBlock t u) ∧
    (vc ≠ s.eng.voice → vc = .resonator → s.eng.gate = true →
      t.res = { s.res with
        impulse := fMul s.cfg.impulseAmp s.reg.verbExcite, burst := fMul s.cfg.burstInit s.reg.verbExcite }) ∧
    (vc ≠ .resonator ∨ s.eng.gate = false → t.res = s.res) ∧
    t.reg = s.reg ∧ t.env = s.env ∧ t.cas = s.cas ∧ t.fm = s.fm ∧ t.status = s.status ∧ SameCells s.res t.res ∧
    SameSurroundings s t

/-- GATE acts on edges only: a rising edge triggers the three oscillators and the envelope, a falling edge releases the
envelope and nothing else, a level that does not change does nothing (R312, R326, 41_envelope.md R172, R173,
42_cascade.md R205, 43_fm.md R246, 44_resonator.md R277). -/
def Obligations.GateEdges : Prop :=
  ∀ (b : Bool) (s : State), ∃ t, exec (.gate b) s = .next t ∧ Responds 0 t ∧ t.eng = { s.eng with gate := b } ∧
    (b = s.eng.gate → OnlyResponseChanges s t) ∧
    (b = true → s.eng.gate = false →
      t.cas.freq = s.cas.freq ∧ t.cas.mod = s.cas.mod ∧ (∀ i : Fin 8, t.cas.phase[i] = lit0 ∧ t.cas.henv[i] = lit1) ∧
      t.fm = { freq := s.fm.freq, modPhase := lit0, carPhase := lit0, lastMod := lit0 } ∧
      t.res = { s.res with
        impulse := fMul s.cfg.impulseAmp s.reg.verbExcite, burst := fMul s.cfg.burstInit s.reg.verbExcite } ∧
      t.env = { s.env with stage := .attack, level := if s.cfg.retriggerFromZero then lit0 else s.env.level }) ∧
    (b = false → s.eng.gate = true →
      t.cas = s.cas ∧ t.fm = s.fm ∧ t.res = s.res ∧
      t.env = { s.env with stage := if s.env.stage = .idle then .idle else .decay }) ∧
    t.reg = s.reg ∧ t.status = s.status ∧ SameCells s.res t.res ∧ SameSurroundings s t

/-- NOTE_ON: the clamped frequency everywhere, all three oscillators reset and triggered, every delay cell cleared, the
envelope triggered, the gate 1; voice, meter, registers and rates are kept (R313, R326, 42_cascade.md R205, R208,
43_fm.md R247, 44_resonator.md R277, R278). -/
def Obligations.NoteOn : Prop :=
  ∀ (f : F32) (s : State), s.cfg.legal = true →
    ∃ t fc, exec (.noteOn f) s = .next t ∧ Responds 0 t ∧ ClampedTo s.cfg.fMin s.cfg.fMax f fc ∧
      t.eng = { s.eng with curFreq := fc, gate := true } ∧
      t.cas.freq = fc ∧ t.cas.mod = modInit s.cfg.modSource ∧ (∀ i : Fin 8, t.cas.phase[i] = lit0 ∧ t.cas.henv[i] = lit1) ∧
      t.fm = { freq := fc, modPhase := lit0, carPhase := lit0, lastMod := lit0 } ∧
      t.res.freq = fc ∧ t.res.impulse = fMul s.cfg.impulseAmp s.reg.verbExcite ∧
      t.res.burst = fMul s.cfg.burstInit s.reg.verbExcite ∧
      (fGt (absF (fSub fc s.res.baseFreq)) lit2 = true → t.res.baseFreq = fc ∧ t.res.baseDelay = baseDelayOf s.cfg fc ∧
        t.res.combLen = combLens s.cfg (baseDelayOf s.cfg fc) ∧ t.res.apLen = apLens s.cfg (baseDelayOf s.cfg fc)) ∧
      (fGt (absF (fSub fc s.res.baseFreq)) lit2 = false → t.res.baseFreq = s.res.baseFreq ∧
        t.res.baseDelay = s.res.baseDelay ∧ t.res.combLen = s.res.combLen ∧ t.res.apLen = s.res.apLen) ∧
      (∀ k : Fin 4, t.res.combW[k] = 0 ∧ t.res.lp[k] = lit0) ∧ (∀ j : Fin 2, t.res.apW[j] = 0) ∧
      (∀ (line : Fin 6) (idx : Nat), delayRead t.res line idx = lit0) ∧
      t.env = { s.env with stage := .attack, level := if s.cfg.retriggerFromZero then lit0 else s.env.level } ∧
      t.reg = s.reg ∧ t.status = s.status ∧ SameSurroundings s t

/-- NOTE_OFF releases the envelope and clears the gate, whatever the gate was; nothing else changes (R314,
41_envelope.md R173). -/
def Obligations.NoteOff : Prop :=
  ∀ s : State, ∃ t, exec .noteOff s = .next t ∧ Responds 0 t ∧ t.eng = { s.eng with gate := false } ∧
    t.env = { s.env with stage := if s.env.stage = .idle then .idle else .decay } ∧
    t.reg = s.reg ∧ t.cas = s.cas ∧ t.fm = s.fm ∧ t.res = s.res ∧ t.status = s.status ∧ SameCells s.res t.res ∧
    SameSurroundings s t

/-- After NOTE_ON the gate is 1 whatever it was; a following GATE 1 changes nothing; a following GATE 0, or NOTE_OFF,
releases the note and clears the gate, and a GATE 1 after either of them triggers again; no other command clears a gate
that is 1, so nothing else makes a retrigger through GATE possible (70_reset_and_hazards.md R405). -/
def Obligations.NoteOnForcesTheGate : Prop :=
  (∀ (i : Instr) (s t : State), exec i s = .next t → s.eng.gate = true → i ≠ .gate false → i ≠ .noteOff →
    t.eng.gate = true) ∧
  ∀ (f : F32) (s : State), ∃ t u v w v' w', exec (.noteOn f) s = .next t ∧ t.eng.gate = true ∧
    exec (.gate true) t = .next u ∧ SameBlock t u ∧
    exec (.gate false) t = .next v ∧ v.env.stage = .decay ∧ v.eng.gate = false ∧
    exec (.gate true) v = .next w ∧ w.env.stage = .attack ∧ w.eng.gate = true ∧
    exec .noteOff t = .next v' ∧ v'.env.stage = .decay ∧ v'.eng.gate = false ∧
    exec (.gate true) v' = .next w' ∧ w'.env.stage = .attack ∧ w'.eng.gate = true

/-- PROCESS: the envelope advances, the active oscillator's sample is scaled, guarded and clamped, then the meter, the last
sample and the status ports are written; the response is the sample. The other oscillators, the registers, the voice, the
frequency and the gate are unchanged (R315, 20_memory.md R117, 60_exceptions.md R361, R365, 70_reset_and_hazards.md R406). -/
def Obligations.ProcessOneSample : Prop :=
  ∀ s : State, s.cfg.legal = true →
    ∃ t raw y, exec .process s = .next t ∧ Responds y t ∧ t.env = envProcess s.env ∧
      (s.eng.voice = .cascade → (t.cas, raw) = casProcess s.cfg s.reg s.cas t.env.level ∧ t.fm = s.fm ∧ t.res = s.res) ∧
      (s.eng.voice = .fm → (t.fm, raw) = fmProcess s.cfg s.reg s.fm t.env.level ∧ t.cas = s.cas ∧ t.res = s.res) ∧
      (s.eng.voice = .resonator → (t.res, raw) = resProcess s.cfg s.reg s.res t.env.level ∧ t.cas = s.cas ∧
        t.fm = s.fm) ∧
      (isFinite (fMul raw s.cfg.masterGain) = false → y = lit0) ∧
      (isFinite (fMul raw s.cfg.masterGain) = true →
        ClampedTo (fNeg s.cfg.safetyBound) s.cfg.safetyBound (fMul raw s.cfg.masterGain) y) ∧
      t.eng = { s.eng with meter := fAdd (fMul s.eng.meter lit0_999) (fMul (absF y) lit0_001), lastSample := y } ∧
      t.status = { level := minF lit1 (fMul t.eng.meter lit2), playing := t.env.stage != .idle, freq := s.eng.curFreq } ∧
      t.reg = s.reg ∧ SameSurroundings s t

/-- The status ports take the values the reads would return right after a PROCESS, and no other command moves them
(20_memory.md R117). -/
def Obligations.StatusPorts : Prop :=
  (∀ (s t : State) (i : Instr), exec i s = .next t →
    (i ≠ .process → t.status = s.status) ∧
    (i = .process → ∃ u v w, exec .getOutputLevel t = .next u ∧ u.port.rspData = t.status.level ∧
      exec .isPlaying t = .next v ∧ v.port.rspData = (if t.status.playing then 1 else 0) ∧
      exec .getCurrentFreq t = .next w ∧ w.port.rspData = t.status.freq)) ∧
  (∀ s t : State, step s = .next t → (edgeInput s.host).rst = false →
    (∀ f, s.port.inFlight = some { frame := f, wait := 0 } → decode f ≠ .ok .process) → t.status = s.status) ∧
  ∀ (s : State) (c : Params) (h : HostSide),
    (State.resetWith c h).status = { level := 0, playing := false, freq := c.defaultFreq } ∧
    (portOutputs false s).statusLevel = s.status.level ∧ (portOutputs false s).statusPlaying = s.status.playing ∧
    (portOutputs false s).statusFreq = s.status.freq

/-- Every PROCESS answers a finite sample within the safety bound, from every state with a legal configuration and for
every instance of the functions and the source. Under the default parameters it is within the master gain, for every
instance, and the output level reads in [0, 1]. The voice is one of exactly three cases (R327, R316, 42_cascade.md R214,
43_fm.md R248, 44_resonator.md R282). -/
def Obligations.OutputBound : Prop :=
  (∀ s t : State, s.cfg.legal = true → exec .process s = .next t → InSafetyRange s.cfg t.port.rspData ∧
    t.eng.lastSample = t.port.rspData) ∧
  (∀ s t : State, s.cfg.legal = true → exec .process s = .next t →
    within (fNeg s.cfg.masterGain) s.cfg.masterGain t.port.rspData = true) ∧
  (∀ s t : State, s.Inv → s.Numeric → exec .process s = .next t →
    within 0xBF4CCCCD 0x3F4CCCCD t.port.rspData = true ∧ within lit0 lit1 t.status.level = true) ∧
  ∀ v : Voice, v = .cascade ∨ v = .fm ∨ v = .resonator

/-- PROCESS reads nothing of the two oscillators that are not active: two states that differ only there answer the same
sample and leave the same envelope and engine state (70_reset_and_hazards.md R406). -/
def Obligations.InactiveVoicesAreUnread : Prop :=
  ∀ s s' t t' : State, AgreeOnActiveVoice s s' → exec .process s = .next t → exec .process s' = .next t' →
    t'.port.rspData = t.port.rspData ∧ t'.env = t.env ∧ t'.eng = t.eng ∧ t'.status = t.status

/-- While the envelope is Idle, PROCESS answers ±0.0 on every voice and leaves it Idle at level 0.0, whatever else the
state holds (70_reset_and_hazards.md R394, 41_envelope.md R174). -/
def Obligations.IdleIsSilent : Prop :=
  ∀ s t : State, s.cfg.legal = true → s.env.stage = .idle → exec .process s = .next t →
    magBits t.port.rspData = 0 ∧ t.env.stage = .idle ∧ t.env.level = lit0

/-- Which commands write a piece of state: any command that changes it is one of those the rules name as its writers
(10_state.md R51 to R53, R55 to R58, R60 to R63, R65 to R68, R70). -/
def Obligations.WhoWritesWhat : Prop :=
  ∀ (i : Instr) (s t : State), exec i s = .next t →
    (t.env.level ≠ s.env.level → i = .process ∨ i = .gate true ∨ ∃ f, i = .noteOn f) ∧
    (t.env.stage ≠ s.env.stage → i = .process ∨ (∃ b, i = .gate b) ∨ (∃ f, i = .noteOn f) ∨ i = .noteOff) ∧
    (t.env.attackRate ≠ s.env.attackRate → ∃ x, i = .setAttack x) ∧
    (t.env.decayCoeff ≠ s.env.decayCoeff → ∃ x, i = .setDecay x) ∧
    (t.cas.phase ≠ s.cas.phase → i = .process ∨ i = .gate true ∨ ∃ f, i = .noteOn f) ∧
    (t.cas.henv ≠ s.cas.henv → i = .gate true ∨ ∃ f, i = .noteOn f) ∧
    (t.cas.mod ≠ s.cas.mod → i = .process ∨ ∃ f, i = .noteOn f) ∧
    (t.fm.modPhase ≠ s.fm.modPhase ∨ t.fm.carPhase ≠ s.fm.carPhase ∨ t.fm.lastMod ≠ s.fm.lastMod →
      i = .process ∨ i = .gate true ∨ ∃ f, i = .noteOn f) ∧
    (t.eng.curFreq ≠ s.eng.curFreq ∨ t.cas.freq ≠ s.cas.freq ∨ t.fm.freq ≠ s.fm.freq ∨ t.res.freq ≠ s.res.freq ∨
      t.res.baseFreq ≠ s.res.baseFreq ∨ t.res.baseDelay ≠ s.res.baseDelay ∨ t.res.combLen ≠ s.res.combLen ∨
      t.res.apLen ≠ s.res.apLen → (∃ f, i = .setFrequency f) ∨ ∃ f, i = .noteOn f) ∧
    (t.res.combW ≠ s.res.combW ∨ t.res.apW ≠ s.res.apW ∨ t.res.lp ≠ s.res.lp →
      i = .process ∨ (∃ f, i = .setFrequency f) ∨ ∃ f, i = .noteOn f) ∧
    (t.res.impulse ≠ s.res.impulse ∨ t.res.burst ≠ s.res.burst →
      i = .process ∨ i = .gate true ∨ (∃ f, i = .noteOn f) ∨ ∃ v, i = .setVoice v) ∧
    ((∃ line idx, delayRead t.res line idx ≠ delayRead s.res line idx) → i = .process ∨ ∃ f, i = .noteOn f) ∧
    (t.eng.voice ≠ s.eng.voice → ∃ v, i = .setVoice v) ∧
    (t.eng.gate ≠ s.eng.gate → (∃ b, i = .gate b) ∨ (∃ f, i = .noteOn f) ∨ i = .noteOff) ∧
    (t.eng.meter ≠ s.eng.meter ∨ t.eng.lastSample ≠ s.eng.lastSample ∨ t.status ≠ s.status → i = .process) ∧
    (t.reg ≠ s.reg → 0x01 ≤ i.opcode.toNat ∧ i.opcode.toNat ≤ 0x0E)

/-! ## Envelope (41_envelope.md) -/

/-- One step of the envelope from each stage: what the level and the stage become; the rates are kept (R174). -/
def Obligations.EnvelopeStep : Prop :=
  ∀ (s t : State), exec .process s = .next t →
    t.env.attackRate = s.env.attackRate ∧ t.env.decayCoeff = s.env.decayCoeff ∧
    (s.env.stage = .idle → t.env.stage = .idle ∧ t.env.level = lit0) ∧
    (s.env.stage = .sustain → t.env.stage = .sustain ∧ t.env.level = lit1) ∧
    (s.env.stage = .attack →
      (fGe (fAdd s.env.level s.env.attackRate) lit1 = true → t.env.stage = .sustain ∧ t.env.level = lit1) ∧
      (fGe (fAdd s.env.level s.env.attackRate) lit1 = false → t.env.stage = .attack ∧
        t.env.level = fAdd s.env.level s.env.attackRate)) ∧
    (s.env.stage = .decay →
      (fLt (fMul s.env.level s.env.decayCoeff) lit0_001 = true → t.env.stage = .idle ∧ t.env.level = lit0) ∧
      (fLt (fMul s.env.level s.env.decayCoeff) lit0_001 = false → t.env.stage = .decay ∧
        t.env.level = fMul s.env.level s.env.decayCoeff))

/-- The attack: from Attack at a level in [0, 1), with the rate of any legal ATTACK under the default parameters, repeated
steps raise the level strictly until a step answers exactly 1.0 and sets Sustain; such a rate lies in
[1.1337868e-05, 0.022675736] (R170, R177). -/
def Obligations.AttackRisesToSustain : Prop :=
  ∀ (c : Params) (x : F32) (e : EnvState), c.isDefault → within lit0 lit1 x = true → e.stage = .attack →
    withinBelow lit0 lit1 e.level = true → e.attackRate = attackRateOf c x →
      within 0x373E37C6 0x3CB9C277 e.attackRate = true ∧
      ∃ n, (envProcess^[n + 1] e).stage = .sustain ∧ (envProcess^[n + 1] e).level = lit1 ∧
        ∀ k, k ≤ n → (envProcess^[k] e).stage = .attack ∧
          fLt (envProcess^[k] e).level (envProcess^[k + 1] e).level = true

/-- The decay: from Decay at a level in [0.001, 1] with a coefficient no larger than the largest legal one, repeated steps
lower the level strictly until a step answers 0.0 and sets Idle (R177); under the default parameters with the reference
functions every legal DECAY gives such a coefficient (R171). -/
def Obligations.DecayFallsToIdle : Prop :=
  (∀ (c : Params) (x : F32), c.isDefault → c.fns = .reference → within lit0 lit1 x = true →
    within lit0 0x3F7FFEB8 (decayCoeffOf c x) = true) ∧
  ∀ e : EnvState, e.stage = .decay → within lit0_001 lit1 e.level = true →
    within lit0 0x3F7FFEB8 e.decayCoeff = true →
    ∃ n, (envProcess^[n + 1] e).stage = .idle ∧ (envProcess^[n + 1] e).level = lit0 ∧
      ∀ k, k ≤ n → (envProcess^[k] e).stage = .decay ∧ fLt (envProcess^[k + 1] e).level (envProcess^[k] e).level = true

/-! ## Cascade oscillator (42_cascade.md) -/

/-- The harmonic count is 1 + floorI(spread × 7.0), is in [1, 8], never falls as spread rises, and has the rule's values (R210). -/
def Obligations.HarmonicCount : Prop :=
  (∀ x y : F32, within lit0 lit1 x = true → within lit0 lit1 y = true →
    (numHarmonics x : Int) = 1 + floorI (fMul x lit7) ∧ 1 ≤ numHarmonics x ∧ numHarmonics x ≤ 8 ∧
    (fLe x y = true → numHarmonics x ≤ numHarmonics y)) ∧
    numHarmonics lit0 = 1 ∧ numHarmonics lit0_15 = 2 ∧ numHarmonics lit0_5 = 4 ∧ numHarmonics 0x3F7FFFFF = 7 ∧
    numHarmonics lit1 = 8

/-- The weights of harmonics 1 to 8. The base amplitude is exactly 1.0 at cascade 0, in (0, 1] for every cascade, and 1/n
up to one rounding at cascade 1 (R211). Under the default parameters trem is in [0.15, 2.0] and vib in [0.98, 1.02] for
every chaos in [0, 1] and every modulator output in [-1, 1], and both are exactly 1.0 at chaos 0 (R212). -/
def Obligations.HarmonicWeights : Prop :=
  (∀ (i : Fin 8) (x : F32), within lit0 lit1 x = true → fGt (baseAmp (f32i (i.val + 1)) x) lit0 = true ∧
    fLe (baseAmp (f32i (i.val + 1)) x) lit1 = true ∧ baseAmp (f32i (i.val + 1)) lit0 = lit1) ∧
    baseAmp (f32i 1) lit1 = lit1 ∧ baseAmp (f32i 2) lit1 = lit0_5 ∧ baseAmp (f32i 3) lit1 = 0x3EAAAAAC ∧
    baseAmp (f32i 4) lit1 = lit0_25 ∧ baseAmp (f32i 5) lit1 = 0x3E4CCCCC ∧ baseAmp (f32i 6) lit1 = 0x3E2AAAAC ∧
    baseAmp (f32i 7) lit1 = 0x3E124924 ∧ baseAmp (f32i 8) lit1 = lit0_125 ∧
    ∀ (c : Params) (i : Fin 8) (chaos m : F32), c.isDefault → within lit0 lit1 chaos = true →
      within litNeg1 lit1 m = true →
      within lit0_15 lit2 (tremMul c (f32i (i.val + 1)) chaos m) = true ∧
        within 0x3F7AE148 0x3F828F5C (vibMul c (f32i (i.val + 1)) chaos m) = true ∧
        tremMul c (f32i (i.val + 1)) lit0 m = lit1 ∧ vibMul c (f32i (i.val + 1)) lit0 m = lit1

/-- The phases. One pass of the harmonic loop changes the phase of its own harmonic only, and a harmonic above
0.45 × SAMPLE_RATE adds nothing and keeps its phase; the fundamental always sounds under the default parameters. PROCESS
changes no phase of a harmonic beyond the count, and leaves the frequency and the per-harmonic envelopes alone, while the
modulation source advances once, whatever CHAOS is: for the Lorenz source by its step, with the output of the state after
the step (R203, R206, R209, R213). The phase wrap keeps exactly the fraction of every p in [0, 2^23), which is in [0, 1)
(40_numerics.md R148). -/
def Obligations.HarmonicPhases : Prop :=
  (∀ p : F32, isFinite p = true → 0 ≤ units p → units p < 2 ^ 23 * 2 ^ 149 →
    isFinite (wrap01 p) = true ∧ units (wrap01 p) = units p % 2 ^ 149 ∧ withinBelow lit0 lit1 (wrap01 p) = true) ∧
  (∀ (c : Params) (r : Regs) (x : CasState) (m : F32) (i : Fin 8) (a : HarmonicSum),
    (fGt (harmonicFreq c r x m i) (fMul lit0_45 c.sampleRate) = true → harmonicStep c r x m i a = a) ∧
    (fGt (harmonicFreq c r x m i) (fMul lit0_45 c.sampleRate) = false →
      (harmonicStep c r x m i a).phase[i] = wrap01 (fAdd a.phase[i] (fDiv (harmonicFreq c r x m i) c.sampleRate))) ∧
    (∀ j : Fin 8, j ≠ i → (harmonicStep c r x m i a).phase[j] = a.phase[j]) ∧
    (c.isDefault → r.normalised → within c.fMin c.fMax x.freq = true → within litNeg1 lit1 m = true → i = 0 →
      fGt (harmonicFreq c r x m i) (fMul lit0_45 c.sampleRate) = false)) ∧
    ∀ s t : State, s.eng.voice = .cascade → exec .process s = .next t →
      (∀ i : Fin 8, numHarmonics s.reg.spread ≤ i.val → t.cas.phase[i] = s.cas.phase[i]) ∧
        t.cas.freq = s.cas.freq ∧ t.cas.henv = s.cas.henv ∧ t.cas.mod = modNext s.cfg.modSource s.cas.mod ∧
        (s.cfg.modSource = .lorenz →
          t.cas.mod.lx = fAdd s.cas.mod.lx (fMul (fMul lit10 (fSub s.cas.mod.ly s.cas.mod.lx)) lit0_0001) ∧
          t.cas.mod.ly = fAdd s.cas.mod.ly
            (fMul (fSub (fMul s.cas.mod.lx (fSub lit28 s.cas.mod.lz)) s.cas.mod.ly) lit0_0001) ∧
          t.cas.mod.lz = fAdd s.cas.mod.lz
            (fMul (fSub (fMul s.cas.mod.lx s.cas.mod.ly) (fMul lit2_6666667 s.cas.mod.lz)) lit0_0001) ∧
          modOut .lorenz s.cas.mod = clampF (fMul t.cas.mod.lx lit0_05) litNeg1 lit1)

/-- With spread, cascade, chaos and wavefold 0 the cascade voice is the soft-clipped sine of its advanced fundamental
phase at the envelope level (R209 to R213, 40_numerics.md R162). -/
def Obligations.FundamentalOnly : Prop :=
  ∀ (c : Params) (r : Regs) (x : CasState) (env : F32), c.isDefault → r.spread = lit0 → r.cascade = lit0 →
    r.chaos = lit0 → r.wavefold = lit0 → within c.fMin c.fMax x.freq = true → x.henv = Vector.replicate 8 lit1 →
    withinBelow lit0 lit1 x.phase[0] = true →
      (casProcess c r x env).2 = tanhF c.fns (fMul (fAdd lit0 (sinF c.fns (fMul litTwoPi
        (wrap01 (fAdd x.phase[0] (fDiv x.freq c.sampleRate)))))) env)

/-- CAS on one PROCESS, for every setting of its registers. The modulation output m is that of the source, for the Lorenz
source of the state after its step. Over the N harmonics in ascending order, out and total start at 0.0; a harmonic above
the anti-aliasing limit is skipped, any other advances its phase and adds its sine times its amplitude to out and its
amplitude to total; out is divided by total when total exceeds 1.0; the fold acts when wavefold exceeds 0.01; the envelope
and the soft clip follow (R206, R209 to R213, 40_numerics.md R161, R162). -/
def Obligations.CascadeSample : Prop :=
  ∀ s t : State, s.eng.voice = .cascade → within lit0 lit1 s.reg.spread = true → exec .process s = .next t →
    ∃ (m : F32) (out total : Nat → F32), m = modOut s.cfg.modSource s.cas.mod ∧ within litNeg1 lit1 m = true ∧
      (s.cfg.modSource = .lorenz → m = clampF (fMul t.cas.mod.lx lit0_05) litNeg1 lit1) ∧
      out 0 = lit0 ∧ total 0 = lit0 ∧
      (∀ i : Fin 8,
        let n := f32i (i.val + 1)
        let cm := fMul (fMul s.reg.chaos m) (fMul n lit0_125)
        let trem := maxF s.cfg.chaosFloor (fAdd lit1 (fMul cm s.cfg.tremDepth))
        let vib := maxF s.cfg.chaosFloor (fAdd lit1 (fMul cm s.cfg.vibDepth))
        let amp := fMul (fMul (fAdd lit1 (fMul s.reg.cascade (fSub (fDiv lit1 n) lit1))) s.cas.henv[i]) trem
        let hf := fMul (fMul s.cas.freq n) vib
        (i.val < numHarmonics s.reg.spread → fGt hf (fMul lit0_45 s.cfg.sampleRate) = true →
          t.cas.phase[i] = s.cas.phase[i] ∧ out (i.val + 1) = out i.val ∧ total (i.val + 1) = total i.val) ∧
        (i.val < numHarmonics s.reg.spread → fGt hf (fMul lit0_45 s.cfg.sampleRate) = false →
          t.cas.phase[i] = wrap01 (fAdd s.cas.phase[i] (fDiv hf s.cfg.sampleRate)) ∧
          out (i.val + 1) = fAdd (out i.val) (fMul (sinF s.cfg.fns (fMul litTwoPi t.cas.phase[i])) amp) ∧
          total (i.val + 1) = fAdd (total i.val) amp) ∧
        (numHarmonics s.reg.spread ≤ i.val → t.cas.phase[i] = s.cas.phase[i])) ∧
      (let N := numHarmonics s.reg.spread
       let w := s.reg.wavefold
       let y := if fGt (total N) lit1 then fDiv (out N) (total N) else out N
       let z := if fGt w lit0_01 then
           fAdd (fMul (fSub lit1 w) y)
             (fMul w (triFold s.cfg.foldMaxIter (fMul y (fAdd lit1 (fMul s.cfg.foldDrive w)))))
         else y
       t.port.rspData = guardSample s.cfg (tanhF s.cfg.fns (fMul z t.env.level)))

/-! ## FM oscillator (43_fm.md) -/

/-- The maps of FM and RES: their ranges, and their values at 0, 0.5 and 1 (R244 with the reference functions;
44_resonator.md R284). -/
def Obligations.ParameterMaps : Prop :=
  (∀ (c : Params) (x : F32), within lit0 lit1 x = true → within lit0_25 0x40C00000 (ratioOf x) = true ∧
    within lit0_15 0x41000000 (indexOf c x) = true ∧ within lit0 lit0_9 (feedbackOf x) = true ∧
    within lit0_5 0x3F6B851E (combGain x) = true ∧ (c.isDefault → within lit0 0x3F733333 (dampCoef c x) = true)) ∧
    ratioOf lit0 = lit0_25 ∧ ratioOf lit0_5 = 0x40480000 ∧ ratioOf lit1 = 0x40C00000 ∧
    indexOf Params.default lit0 = lit0_15 ∧ indexOf Params.default lit0_5 = 0x3F8C378C ∧
    indexOf Params.default lit1 = 0x41000000 ∧
    feedbackOf lit0 = lit0 ∧ feedbackOf lit0_5 = 0x3EE66666 ∧ feedbackOf lit1 = lit0_9 ∧
    combGain lit0 = lit0_5 ∧ combGain lit0_5 = 0x3F35C28F ∧ combGain lit1 = 0x3F6B851E ∧
    dampCoef Params.default lit0 = lit0 ∧ dampCoef Params.default lit0_5 = 0x3EF33333 ∧
    dampCoef Params.default lit1 = 0x3F733333

/-- FM on one PROCESS: the modulator is computed from the modulator output of the previous PROCESS, which it then replaces;
the carrier uses the new one; the fold, the envelope and the soft clip follow (R248, 40_numerics.md R162,
70_reset_and_hazards.md R407). -/
def Obligations.FmSample : Prop :=
  ∀ s t : State, s.eng.voice = .fm → exec .process s = .next t →
    t.fm.modPhase = wrap01 (fAdd s.fm.modPhase
      (fDiv (fMul s.fm.freq (fAdd lit0_25 (fMul s.reg.fmRatio lit5_75))) s.cfg.sampleRate)) ∧
    t.fm.lastMod = sinF s.cfg.fns (fMul litTwoPi (fAdd t.fm.modPhase (fMul s.fm.lastMod (fMul s.reg.fmFeedback lit0_9)))) ∧
    t.fm.carPhase = wrap01 (fAdd s.fm.carPhase (fDiv s.fm.freq s.cfg.sampleRate)) ∧ t.fm.freq = s.fm.freq ∧
    t.port.rspData = guardSample s.cfg (tanhF s.cfg.fns (fMul (foldStage s.cfg
      (sinF s.cfg.fns (fMul litTwoPi (fAdd t.fm.carPhase
        (fMul t.fm.lastMod (fMul lit0_15 (powF s.cfg.fns litIdxRatio s.reg.fmIndex)))))) s.reg.fmFold) t.env.level))

/-! ## Resonator (44_resonator.md) and delay memories (20_memory.md) -/

/-- A cell reads as the last value written to it, and a write changes no other cell; after RES.reset and after hardware
reset every cell reads 0.0; lines 0 to 3 have COMB_CAP cells, lines 4 and 5 AP_CAP (20_memory.md R110, 44_resonator.md
R278). -/
def Obligations.DelayMemory : Prop :=
  (∀ (c : Params) (h : HostSide) (line : Fin 6) (idx : Nat), (line.val ≤ 3 → lineCap c line = c.combCap) ∧
    (4 ≤ line.val → lineCap c line = c.apCap) ∧ delayRead (State.resetWith c h).res line idx = lit0) ∧
  ∀ (r : ResState) (line : Fin 6) (idx : Nat) (v : F32), (∀ m : Fin 6, Memory.wf r.lines[m] = true) →
    delayRead (delayWrite r line idx v) line idx = v ∧
      (∀ line' idx', (line', idx') ≠ (line, idx) →
        delayRead (delayWrite r line idx v) line' idx' = delayRead r line' idx') ∧
      (∀ m : Fin 6, Memory.wf (delayWrite r line idx v).lines[m] = true) ∧
      ∀ line' idx', delayRead (resReset r) line' idx' = lit0

/-- The delay lengths of every frequency: bd is SAMPLE_RATE / f rounded and clamped to [1, COMB_CAP - 1], and each line's
length is bd times its ratio, truncated and clamped between the line's minimum and its capacity less 1. So they lie in
[minimum, capacity) for all six lines, whatever the parameters; a retune sets every index to 0, and each line's step
leaves its index below its length (R274, R275, R283; R107 of 20_memory.md). -/
def Obligations.LengthLaw : Prop :=
  ∀ (c : Params) (f : F32) (x : ResState), c.legal = true →
    (let bd := clampI (roundI (fDiv c.sampleRate f)) 1 (c.combCap - 1)
     let comb := fun ratio : F32 => clampI (floorI (fMul (f32i bd) ratio)) 8 (c.combCap - 1)
     let ap := fun ratio : F32 => clampI (floorI (fMul (f32i bd) ratio)) 4 (c.apCap - 1)
     ((retune c f x).baseDelay : Int) = bd ∧ ((retune c f x).combLen[0] : Int) = comb lit1 ∧
       ((retune c f x).combLen[1] : Int) = comb lit1_333 ∧ ((retune c f x).combLen[2] : Int) = comb lit1_5 ∧
       ((retune c f x).combLen[3] : Int) = comb lit2 ∧ ((retune c f x).apLen[0] : Int) = ap lit0_5 ∧
       ((retune c f x).apLen[1] : Int) = ap lit0_75) ∧
    LengthsInRange c (retune c f x) ∧ IndicesBelowLengths (retune c f x) ∧
      1 ≤ (retune c f x).baseDelay ∧ (retune c f x).baseDelay < c.combCap ∧
      (LengthsInRange c x → ∀ (exc a g v : F32) (k : Fin 4) (j : Fin 2),
        (combStep c exc a g x k).combW[k] < x.combLen[k] ∧ (apStep v x j).apW[j] < x.apLen[j] ∧
          combIdx x k < x.combLen[k] ∧ apIdx x j < x.apLen[j])

/-- RES on one PROCESS. It stores to six cells, one per line, at the indices the state before it gives; every other cell
keeps its value, and on the other voices every cell does (70_reset_and_hazards.md R406). On the resonator voice the filter
states, the stored values, the indices and the sample are those of the rules: each comb writes its soft-clipped feedback,
the average passes the two allpasses in series, the blend is scaled by ten times the level and soft-clipped (R279 to
R282, R284). -/
def Obligations.ResonatorSample : Prop :=
  ∀ s t : State, s.Inv → exec .process s = .next t →
    (s.eng.voice ≠ .resonator → SameCells s.res t.res) ∧
    (∀ (line : Fin 6) (idx : Nat), ¬StoredBy s.res line idx → delayRead t.res line idx = delayRead s.res line idx) ∧
    (s.eng.voice = .resonator →
      let a := fMul s.reg.resDamp s.cfg.dampMax
      let g := fAdd lit0_5 (fMul s.reg.resFeedback lit0_42)
      let exc := fAdd s.res.impulse s.res.burst
      let y := fun k : Fin 4 => delayRead t.res (combLine k) (combIdx s.res k)
      let d := fun j : Fin 2 => delayRead s.res (apLine j) (apIdx s.res j)
      let avg := fMul (fAdd (fAdd (fAdd (fAdd lit0 (y 0)) (y 1)) (y 2)) (y 3)) lit0_25
      let o := fAdd (fMul litNeg0_5 avg) (d 0)
      let x := fAdd (fMul litNeg0_5 o) (d 1)
      (∀ k : Fin 4,
        t.res.lp[k] = fAdd (fMul (fSub lit1 a) (delayRead s.res (combLine k) (combIdx s.res k))) (fMul a s.res.lp[k]) ∧
        y k = tanhF s.cfg.fns (fAdd (fMul t.res.lp[k] g) exc) ∧
        t.res.combW[k] = (s.res.combW[k] + 1) % s.res.combLen[k]) ∧
      delayRead t.res (apLine 0) (apIdx s.res 0) = fAdd avg (fMul lit0_5 (d 0)) ∧
      delayRead t.res (apLine 1) (apIdx s.res 1) = fAdd o (fMul lit0_5 (d 1)) ∧
      (∀ j : Fin 2, t.res.apW[j] = (s.res.apW[j] + 1) % s.res.apLen[j]) ∧
      t.port.rspData = guardSample s.cfg (tanhF s.cfg.fns (fMul
        (fAdd (fMul (fSub lit1 s.reg.resMix) avg) (fMul s.reg.resMix x)) (fMul t.env.level lit10))))

/-- The excitation: PROCESS on the resonator voice spends the impulse and decays the burst, keeps frequencies and lengths,
and clears the armed flag; with the defaults the first excitation after a trigger is 1.5, and the burst never decays below
its fixed point 0x000000FA (R279, R282). -/
def Obligations.Excitation : Prop :=
  (∀ s t : State, s.eng.voice = .resonator → exec .process s = .next t →
    t.res.impulse = lit0 ∧ armed t.res = false ∧ t.res.burst = fMul s.res.burst s.cfg.excDecay ∧ t.res.freq = s.res.freq ∧
      t.res.baseFreq = s.res.baseFreq ∧ t.res.baseDelay = s.res.baseDelay ∧ t.res.combLen = s.res.combLen ∧
      t.res.apLen = s.res.apLen) ∧
    (∀ (c : Params) (x : ResState), c.isDefault → excitation (resTrigger c lit1 x) = 0x3FC00000) ∧
    fMul 0x000000FA Params.default.excDecay = 0x000000FA ∧
    ∀ b : F32, fLe 0x000000FA b = true → fLe 0x000000FA (fMul b Params.default.excDecay) = true

/-! ## Invariants (10_state.md R74) -/

/-- The reset state meets the invariants, for every legal configuration, and the numeric ones under the default
parameters, whatever the instances (R74, 70_reset_and_hazards.md R394). -/
def Obligations.ResetMeetsTheInvariants : Prop :=
  State.reset.Inv ∧ State.reset.Numeric ∧
    ∀ (c : Params) (h : HostSide), c.legal = true →
      (State.resetWith c h).Inv ∧ (c.isDefault → (State.resetWith c h).Numeric)

/-- Every step keeps the invariants, for every legal configuration and every input (R74). -/
def Obligations.StepKeepsInv : Prop := ∀ s t : State, s.Inv → step s = .next t → t.Inv

/-- Every step keeps the numeric invariants under the default parameters, for every instance of the functions and of the
source: level and phases in range, filter states, cells and meter bounded (R74, 44_resonator.md R281, R282). -/
def Obligations.StepKeepsNumeric : Prop :=
  ∀ s t : State, s.Inv → s.Numeric → step s = .next t → t.Numeric
end

