-- ==== Sys2Proof/Laws/State.lean ====
section
/-!
SUPPORT. One lemma per field per update of State, and of the parts that the shared operations update: each is true by
definition, so that no later proof unfolds a record update.
-/

namespace Sys2Proof.Laws

open Sys2Proof.Machine

section
variable (s : State) (x : Regs)

@[simp] theorem putReg_cfg : (s.putReg x).cfg = s.cfg := rfl
@[simp] theorem putReg_reg : (s.putReg x).reg = x := rfl
@[simp] theorem putReg_env : (s.putReg x).env = s.env := rfl
@[simp] theorem putReg_cas : (s.putReg x).cas = s.cas := rfl
@[simp] theorem putReg_fm : (s.putReg x).fm = s.fm := rfl
@[simp] theorem putReg_res : (s.putReg x).res = s.res := rfl
@[simp] theorem putReg_eng : (s.putReg x).eng = s.eng := rfl
@[simp] theorem putReg_status : (s.putReg x).status = s.status := rfl
@[simp] theorem putReg_port : (s.putReg x).port = s.port := rfl
@[simp] theorem putReg_host : (s.putReg x).host = s.host := rfl

end

section
variable (s : State) (x : EnvState)

@[simp] theorem putEnv_cfg : (s.putEnv x).cfg = s.cfg := rfl
@[simp] theorem putEnv_reg : (s.putEnv x).reg = s.reg := rfl
@[simp] theorem putEnv_env : (s.putEnv x).env = x := rfl
@[simp] theorem putEnv_cas : (s.putEnv x).cas = s.cas := rfl
@[simp] theorem putEnv_fm : (s.putEnv x).fm = s.fm := rfl
@[simp] theorem putEnv_res : (s.putEnv x).res = s.res := rfl
@[simp] theorem putEnv_eng : (s.putEnv x).eng = s.eng := rfl
@[simp] theorem putEnv_status : (s.putEnv x).status = s.status := rfl
@[simp] theorem putEnv_port : (s.putEnv x).port = s.port := rfl
@[simp] theorem putEnv_host : (s.putEnv x).host = s.host := rfl

end

section
variable (s : State) (x : CasState)

@[simp] theorem putCas_cfg : (s.putCas x).cfg = s.cfg := rfl
@[simp] theorem putCas_reg : (s.putCas x).reg = s.reg := rfl
@[simp] theorem putCas_env : (s.putCas x).env = s.env := rfl
@[simp] theorem putCas_cas : (s.putCas x).cas = x := rfl
@[simp] theorem putCas_fm : (s.putCas x).fm = s.fm := rfl
@[simp] theorem putCas_res : (s.putCas x).res = s.res := rfl
@[simp] theorem putCas_eng : (s.putCas x).eng = s.eng := rfl
@[simp] theorem putCas_status : (s.putCas x).status = s.status := rfl
@[simp] theorem putCas_port : (s.putCas x).port = s.port := rfl
@[simp] theorem putCas_host : (s.putCas x).host = s.host := rfl

end

section
variable (s : State) (x : FmState)

@[simp] theorem putFm_cfg : (s.putFm x).cfg = s.cfg := rfl
@[simp] theorem putFm_reg : (s.putFm x).reg = s.reg := rfl
@[simp] theorem putFm_env : (s.putFm x).env = s.env := rfl
@[simp] theorem putFm_cas : (s.putFm x).cas = s.cas := rfl
@[simp] theorem putFm_fm : (s.putFm x).fm = x := rfl
@[simp] theorem putFm_res : (s.putFm x).res = s.res := rfl
@[simp] theorem putFm_eng : (s.putFm x).eng = s.eng := rfl
@[simp] theorem putFm_status : (s.putFm x).status = s.status := rfl
@[simp] theorem putFm_port : (s.putFm x).port = s.port := rfl
@[simp] theorem putFm_host : (s.putFm x).host = s.host := rfl

end

section
variable (s : State) (x : ResState)

@[simp] theorem putRes_cfg : (s.putRes x).cfg = s.cfg := rfl
@[simp] theorem putRes_reg : (s.putRes x).reg = s.reg := rfl
@[simp] theorem putRes_env : (s.putRes x).env = s.env := rfl
@[simp] theorem putRes_cas : (s.putRes x).cas = s.cas := rfl
@[simp] theorem putRes_fm : (s.putRes x).fm = s.fm := rfl
@[simp] theorem putRes_res : (s.putRes x).res = x := rfl
@[simp] theorem putRes_eng : (s.putRes x).eng = s.eng := rfl
@[simp] theorem putRes_status : (s.putRes x).status = s.status := rfl
@[simp] theorem putRes_port : (s.putRes x).port = s.port := rfl
@[simp] theorem putRes_host : (s.putRes x).host = s.host := rfl

end

section
variable (s : State) (x : EngState)

@[simp] theorem putEng_cfg : (s.putEng x).cfg = s.cfg := rfl
@[simp] theorem putEng_reg : (s.putEng x).reg = s.reg := rfl
@[simp] theorem putEng_env : (s.putEng x).env = s.env := rfl
@[simp] theorem putEng_cas : (s.putEng x).cas = s.cas := rfl
@[simp] theorem putEng_fm : (s.putEng x).fm = s.fm := rfl
@[simp] theorem putEng_res : (s.putEng x).res = s.res := rfl
@[simp] theorem putEng_eng : (s.putEng x).eng = x := rfl
@[simp] theorem putEng_status : (s.putEng x).status = s.status := rfl
@[simp] theorem putEng_port : (s.putEng x).port = s.port := rfl
@[simp] theorem putEng_host : (s.putEng x).host = s.host := rfl

end

section
variable (s : State) (x : StatusPorts)

@[simp] theorem putStatus_cfg : (s.putStatus x).cfg = s.cfg := rfl
@[simp] theorem putStatus_reg : (s.putStatus x).reg = s.reg := rfl
@[simp] theorem putStatus_env : (s.putStatus x).env = s.env := rfl
@[simp] theorem putStatus_cas : (s.putStatus x).cas = s.cas := rfl
@[simp] theorem putStatus_fm : (s.putStatus x).fm = s.fm := rfl
@[simp] theorem putStatus_res : (s.putStatus x).res = s.res := rfl
@[simp] theorem putStatus_eng : (s.putStatus x).eng = s.eng := rfl
@[simp] theorem putStatus_status : (s.putStatus x).status = x := rfl
@[simp] theorem putStatus_port : (s.putStatus x).port = s.port := rfl
@[simp] theorem putStatus_host : (s.putStatus x).host = s.host := rfl

end

section
variable (s : State) (x : PortState)

@[simp] theorem putPort_cfg : (s.putPort x).cfg = s.cfg := rfl
@[simp] theorem putPort_reg : (s.putPort x).reg = s.reg := rfl
@[simp] theorem putPort_env : (s.putPort x).env = s.env := rfl
@[simp] theorem putPort_cas : (s.putPort x).cas = s.cas := rfl
@[simp] theorem putPort_fm : (s.putPort x).fm = s.fm := rfl
@[simp] theorem putPort_res : (s.putPort x).res = s.res := rfl
@[simp] theorem putPort_eng : (s.putPort x).eng = s.eng := rfl
@[simp] theorem putPort_status : (s.putPort x).status = s.status := rfl
@[simp] theorem putPort_port : (s.putPort x).port = x := rfl
@[simp] theorem putPort_host : (s.putPort x).host = s.host := rfl

end

section
variable (s : State) (x : HostSide)

@[simp] theorem putHost_cfg : (s.putHost x).cfg = s.cfg := rfl
@[simp] theorem putHost_reg : (s.putHost x).reg = s.reg := rfl
@[simp] theorem putHost_env : (s.putHost x).env = s.env := rfl
@[simp] theorem putHost_cas : (s.putHost x).cas = s.cas := rfl
@[simp] theorem putHost_fm : (s.putHost x).fm = s.fm := rfl
@[simp] theorem putHost_res : (s.putHost x).res = s.res := rfl
@[simp] theorem putHost_eng : (s.putHost x).eng = s.eng := rfl
@[simp] theorem putHost_status : (s.putHost x).status = s.status := rfl
@[simp] theorem putHost_port : (s.putHost x).port = s.port := rfl
@[simp] theorem putHost_host : (s.putHost x).host = x := rfl

end

section
variable (w : Word) (s : State)

@[simp] theorem respond_cfg : (respond w s).cfg = s.cfg := rfl
@[simp] theorem respond_reg : (respond w s).reg = s.reg := rfl
@[simp] theorem respond_env : (respond w s).env = s.env := rfl
@[simp] theorem respond_cas : (respond w s).cas = s.cas := rfl
@[simp] theorem respond_fm : (respond w s).fm = s.fm := rfl
@[simp] theorem respond_res : (respond w s).res = s.res := rfl
@[simp] theorem respond_eng : (respond w s).eng = s.eng := rfl
@[simp] theorem respond_status : (respond w s).status = s.status := rfl
@[simp] theorem respond_host : (respond w s).host = s.host := rfl
@[simp] theorem respond_inFlight : (respond w s).port.inFlight = s.port.inFlight := rfl
@[simp] theorem respond_rspValid : (respond w s).port.rspValid = true := rfl
@[simp] theorem respond_rspData : (respond w s).port.rspData = w := rfl

end

section
variable (b : Bool) (s : State)

@[simp] theorem setGate_cfg : (setGate b s).cfg = s.cfg := rfl
@[simp] theorem setGate_reg : (setGate b s).reg = s.reg := rfl
@[simp] theorem setGate_env : (setGate b s).env = s.env := rfl
@[simp] theorem setGate_cas : (setGate b s).cas = s.cas := rfl
@[simp] theorem setGate_fm : (setGate b s).fm = s.fm := rfl
@[simp] theorem setGate_res : (setGate b s).res = s.res := rfl
@[simp] theorem setGate_status : (setGate b s).status = s.status := rfl
@[simp] theorem setGate_port : (setGate b s).port = s.port := rfl
@[simp] theorem setGate_host : (setGate b s).host = s.host := rfl
@[simp] theorem setGate_gate : (setGate b s).eng.gate = b := rfl
@[simp] theorem setGate_voice : (setGate b s).eng.voice = s.eng.voice := rfl
@[simp] theorem setGate_curFreq : (setGate b s).eng.curFreq = s.eng.curFreq := rfl
@[simp] theorem setGate_meter : (setGate b s).eng.meter = s.eng.meter := rfl
@[simp] theorem setGate_lastSample : (setGate b s).eng.lastSample = s.eng.lastSample := rfl

end

section
variable (s : State)

@[simp] theorem releaseStep_cfg : (releaseStep s).cfg = s.cfg := rfl
@[simp] theorem releaseStep_reg : (releaseStep s).reg = s.reg := rfl
@[simp] theorem releaseStep_env : (releaseStep s).env = s.env := rfl
@[simp] theorem releaseStep_cas : (releaseStep s).cas = s.cas := rfl
@[simp] theorem releaseStep_fm : (releaseStep s).fm = s.fm := rfl
@[simp] theorem releaseStep_res : (releaseStep s).res = s.res := rfl
@[simp] theorem releaseStep_eng : (releaseStep s).eng = s.eng := rfl
@[simp] theorem releaseStep_status : (releaseStep s).status = s.status := rfl
@[simp] theorem releaseStep_host : (releaseStep s).host = s.host := rfl
@[simp] theorem releaseStep_inFlight : (releaseStep s).port.inFlight = none := rfl
@[simp] theorem resetOscillators_cfg : (resetOscillators s).cfg = s.cfg := rfl
@[simp] theorem resetOscillators_reg : (resetOscillators s).reg = s.reg := rfl
@[simp] theorem resetOscillators_env : (resetOscillators s).env = s.env := rfl
@[simp] theorem resetOscillators_eng : (resetOscillators s).eng = s.eng := rfl
@[simp] theorem resetOscillators_status : (resetOscillators s).status = s.status := rfl
@[simp] theorem resetOscillators_port : (resetOscillators s).port = s.port := rfl
@[simp] theorem resetOscillators_host : (resetOscillators s).host = s.host := rfl
@[simp] theorem triggerAll_cfg : (triggerAll s).cfg = s.cfg := rfl
@[simp] theorem triggerAll_reg : (triggerAll s).reg = s.reg := rfl
@[simp] theorem triggerAll_eng : (triggerAll s).eng = s.eng := rfl
@[simp] theorem triggerAll_status : (triggerAll s).status = s.status := rfl
@[simp] theorem triggerAll_port : (triggerAll s).port = s.port := rfl
@[simp] theorem triggerAll_host : (triggerAll s).host = s.host := rfl
@[simp] theorem triggerAll_cas : (triggerAll s).cas = casTrigger s.cas := rfl
@[simp] theorem triggerAll_fm : (triggerAll s).fm = fmTrigger s.fm := rfl
@[simp] theorem triggerAll_res : (triggerAll s).res = resTrigger s.cfg s.reg.verbExcite s.res := rfl
@[simp] theorem triggerAll_env : (triggerAll s).env = envTrigger s.cfg s.env := rfl
@[simp] theorem resetOscillators_cas : (resetOscillators s).cas = casReset s.cfg s.cas := rfl
@[simp] theorem resetOscillators_fm : (resetOscillators s).fm = fmReset s.fm := rfl
@[simp] theorem resetOscillators_res : (resetOscillators s).res = resReset s.res := rfl

end

section
variable (f : F32) (s : State)

/-- What applyFrequency leaves alone. -/
theorem applyFrequency_frame :
    (applyFrequency f s).cfg = s.cfg ∧ (applyFrequency f s).reg = s.reg ∧ (applyFrequency f s).env = s.env ∧
    (applyFrequency f s).status = s.status ∧ (applyFrequency f s).port = s.port ∧ (applyFrequency f s).host = s.host :=
  ⟨rfl, rfl, rfl, rfl, rfl, rfl⟩

@[simp] theorem applyFrequency_cfg : (applyFrequency f s).cfg = s.cfg := rfl
@[simp] theorem applyFrequency_reg : (applyFrequency f s).reg = s.reg := rfl
@[simp] theorem applyFrequency_env : (applyFrequency f s).env = s.env := rfl
@[simp] theorem applyFrequency_status : (applyFrequency f s).status = s.status := rfl
@[simp] theorem applyFrequency_port : (applyFrequency f s).port = s.port := rfl
@[simp] theorem applyFrequency_host : (applyFrequency f s).host = s.host := rfl
@[simp] theorem applyFrequency_curFreq : (applyFrequency f s).eng.curFreq = clampFreq s.cfg f := rfl
@[simp] theorem applyFrequency_voice : (applyFrequency f s).eng.voice = s.eng.voice := rfl
@[simp] theorem applyFrequency_gate : (applyFrequency f s).eng.gate = s.eng.gate := rfl
@[simp] theorem applyFrequency_meter : (applyFrequency f s).eng.meter = s.eng.meter := rfl
@[simp] theorem applyFrequency_lastSample : (applyFrequency f s).eng.lastSample = s.eng.lastSample := rfl
@[simp] theorem applyFrequency_cas :
    (applyFrequency f s).cas = casSetFrequency s.cfg (clampFreq s.cfg f) s.cas := rfl
@[simp] theorem applyFrequency_fm : (applyFrequency f s).fm = fmSetFrequency s.cfg (clampFreq s.cfg f) s.fm := rfl
@[simp] theorem applyFrequency_res :
    (applyFrequency f s).res = resSetFrequency s.cfg (clampFreq s.cfg f) s.res := rfl

end

section
variable (sample : F32) (s : State)

/-- What recordSample leaves alone. -/
theorem recordSample_frame :
    (recordSample sample s).cfg = s.cfg ∧ (recordSample sample s).reg = s.reg ∧ (recordSample sample s).env = s.env ∧
    (recordSample sample s).cas = s.cas ∧ (recordSample sample s).fm = s.fm ∧ (recordSample sample s).res = s.res ∧
    (recordSample sample s).port = s.port ∧ (recordSample sample s).host = s.host :=
  ⟨rfl, rfl, rfl, rfl, rfl, rfl, rfl, rfl⟩

@[simp] theorem recordSample_cfg : (recordSample sample s).cfg = s.cfg := rfl
@[simp] theorem recordSample_reg : (recordSample sample s).reg = s.reg := rfl
@[simp] theorem recordSample_env : (recordSample sample s).env = s.env := rfl
@[simp] theorem recordSample_cas : (recordSample sample s).cas = s.cas := rfl
@[simp] theorem recordSample_fm : (recordSample sample s).fm = s.fm := rfl
@[simp] theorem recordSample_res : (recordSample sample s).res = s.res := rfl
@[simp] theorem recordSample_port : (recordSample sample s).port = s.port := rfl
@[simp] theorem recordSample_host : (recordSample sample s).host = s.host := rfl
@[simp] theorem recordSample_lastSample : (recordSample sample s).eng.lastSample = sample := rfl
@[simp] theorem recordSample_meter : (recordSample sample s).eng.meter = nextMeter s.eng.meter sample := rfl
@[simp] theorem recordSample_voice : (recordSample sample s).eng.voice = s.eng.voice := rfl
@[simp] theorem recordSample_gate : (recordSample sample s).eng.gate = s.eng.gate := rfl
@[simp] theorem recordSample_curFreq : (recordSample sample s).eng.curFreq = s.eng.curFreq := rfl

end

section
variable (c : Params) (f : F32)

@[simp] theorem casSetFrequency_freq (x : CasState) : (casSetFrequency c f x).freq = clampFreq c f := rfl
@[simp] theorem casSetFrequency_phase (x : CasState) : (casSetFrequency c f x).phase = x.phase := rfl
@[simp] theorem casSetFrequency_henv (x : CasState) : (casSetFrequency c f x).henv = x.henv := rfl
@[simp] theorem casSetFrequency_mod (x : CasState) : (casSetFrequency c f x).mod = x.mod := rfl
@[simp] theorem casTrigger_freq (x : CasState) : (casTrigger x).freq = x.freq := rfl
@[simp] theorem casTrigger_henv (x : CasState) : (casTrigger x).henv = Vector.replicate 8 lit1 := rfl
@[simp] theorem casTrigger_phase (x : CasState) : (casTrigger x).phase = Vector.replicate 8 lit0 := rfl
@[simp] theorem casTrigger_mod (x : CasState) : (casTrigger x).mod = x.mod := rfl
@[simp] theorem casReset_freq (x : CasState) : (casReset c x).freq = x.freq := rfl
@[simp] theorem casReset_mod (x : CasState) : (casReset c x).mod = modInit c.modSource := rfl
@[simp] theorem fmSetFrequency_freq (x : FmState) : (fmSetFrequency c f x).freq = clampFreq c f := rfl
@[simp] theorem fmTrigger_freq (x : FmState) : (fmTrigger x).freq = x.freq := rfl
@[simp] theorem fmReset_freq (x : FmState) : (fmReset x).freq = x.freq := rfl

end

section
variable (r : ResState) (line : Fin 6) (idx : Nat) (v : F32)

@[simp] theorem delayWrite_freq : (delayWrite r line idx v).freq = r.freq := rfl
@[simp] theorem delayWrite_baseFreq : (delayWrite r line idx v).baseFreq = r.baseFreq := rfl
@[simp] theorem delayWrite_impulse : (delayWrite r line idx v).impulse = r.impulse := rfl
@[simp] theorem delayWrite_burst : (delayWrite r line idx v).burst = r.burst := rfl
@[simp] theorem delayWrite_baseDelay : (delayWrite r line idx v).baseDelay = r.baseDelay := rfl
@[simp] theorem delayWrite_combLen : (delayWrite r line idx v).combLen = r.combLen := rfl
@[simp] theorem delayWrite_apLen : (delayWrite r line idx v).apLen = r.apLen := rfl
@[simp] theorem delayWrite_combW : (delayWrite r line idx v).combW = r.combW := rfl
@[simp] theorem delayWrite_apW : (delayWrite r line idx v).apW = r.apW := rfl
@[simp] theorem delayWrite_lp : (delayWrite r line idx v).lp = r.lp := rfl

end

section
variable (c : Params) (exc a g : F32) (x : ResState) (k : Fin 4)

@[simp] theorem combStep_freq : (combStep c exc a g x k).freq = x.freq := rfl
@[simp] theorem combStep_baseFreq : (combStep c exc a g x k).baseFreq = x.baseFreq := rfl
@[simp] theorem combStep_impulse : (combStep c exc a g x k).impulse = x.impulse := rfl
@[simp] theorem combStep_burst : (combStep c exc a g x k).burst = x.burst := rfl
@[simp] theorem combStep_baseDelay : (combStep c exc a g x k).baseDelay = x.baseDelay := rfl
@[simp] theorem combStep_combLen : (combStep c exc a g x k).combLen = x.combLen := rfl
@[simp] theorem combStep_apLen : (combStep c exc a g x k).apLen = x.apLen := rfl
@[simp] theorem combStep_apW : (combStep c exc a g x k).apW = x.apW := rfl

end

section
variable (v : F32) (x : ResState) (j : Fin 2)

@[simp] theorem apStep_freq : (apStep v x j).freq = x.freq := rfl
@[simp] theorem apStep_baseFreq : (apStep v x j).baseFreq = x.baseFreq := rfl
@[simp] theorem apStep_impulse : (apStep v x j).impulse = x.impulse := rfl
@[simp] theorem apStep_burst : (apStep v x j).burst = x.burst := rfl
@[simp] theorem apStep_baseDelay : (apStep v x j).baseDelay = x.baseDelay := rfl
@[simp] theorem apStep_combLen : (apStep v x j).combLen = x.combLen := rfl
@[simp] theorem apStep_apLen : (apStep v x j).apLen = x.apLen := rfl
@[simp] theorem apStep_combW : (apStep v x j).combW = x.combW := rfl
@[simp] theorem apStep_lp : (apStep v x j).lp = x.lp := rfl

end

end Sys2Proof.Laws
end

