-- ==== Sys2Proof/Laws/Float.lean ====
section
/-!
SUPPORT. Rounding: what `roundQuot` and `roundMag` answer, that they are monotone and exact on the f32 magnitudes, and
the magnitudes' order.
-/

namespace Sys2Proof.Laws

open Sys2Proof.Machine

/-! ### roundQuot -/

theorem roundQuot_le (p q : Nat) (hq : 0 < q) : 2 * q * roundQuot p q ≤ 2 * p + q := by
  have h := Nat.div_add_mod p q
  have hm := Nat.mod_lt p hq
  unfold roundQuot
  split
  · rename_i hc
    have : 2 * q * (p / q + 1) = 2 * (q * (p / q)) + 2 * q := by ring
    omega
  · have : 2 * q * (p / q) = 2 * (q * (p / q)) := by ring
    omega

theorem le_roundQuot (p q : Nat) (hq : 0 < q) : 2 * p ≤ 2 * q * roundQuot p q + q := by
  have h := Nat.div_add_mod p q
  have hm := Nat.mod_lt p hq
  unfold roundQuot
  split
  · rename_i hc
    have : 2 * q * (p / q + 1) = 2 * (q * (p / q)) + 2 * q := by ring
    omega
  · rename_i hc
    have : 2 * q * (p / q) = 2 * (q * (p / q)) := by ring
    omega

/-- A tie goes to the even quotient. -/
theorem roundQuot_tie (p q : Nat) (hq : 0 < q) (h : 2 * q * roundQuot p q = 2 * p + q ∨ 2 * p = 2 * q * roundQuot p q + q) :
    roundQuot p q % 2 = 0 := by
  have hd := Nat.div_add_mod p q
  have hm := Nat.mod_lt p hq
  unfold roundQuot at h ⊢
  split
  · rename_i hc
    rw [if_pos hc] at h
    have : 2 * q * (p / q + 1) = 2 * (q * (p / q)) + 2 * q := by ring
    omega
  · rename_i hc
    rw [if_neg hc] at h
    have : 2 * q * (p / q) = 2 * (q * (p / q)) := by ring
    omega

theorem roundQuot_mono {p₁ q₁ p₂ q₂ : Nat} (h₁ : 0 < q₁) (h₂ : 0 < q₂) (h : p₁ * q₂ ≤ p₂ * q₁) :
    roundQuot p₁ q₁ ≤ roundQuot p₂ q₂ := by
  by_contra hlt
  have hlt : roundQuot p₂ q₂ + 1 ≤ roundQuot p₁ q₁ := by omega
  have a₁ := roundQuot_le p₁ q₁ h₁
  have a₂ := le_roundQuot p₂ q₂ h₂
  have t₁ := roundQuot_tie p₁ q₁ h₁
  have t₂ := roundQuot_tie p₂ q₂ h₂
  set n₁ := roundQuot p₁ q₁
  set n₂ := roundQuot p₂ q₂
  have b₁ : 2 * q₁ * n₁ * q₂ ≤ (2 * p₁ + q₁) * q₂ := Nat.mul_le_mul_right _ a₁
  have b₂ : 2 * p₂ * q₁ ≤ (2 * q₂ * n₂ + q₂) * q₁ := Nat.mul_le_mul_right _ a₂
  have hpos : 0 < q₁ * q₂ := Nat.mul_pos h₁ h₂
  have key : 2 * (q₁ * q₂) * n₁ ≤ 2 * (q₁ * q₂) * (n₂ + 1) := by nlinarith
  have hle : n₁ ≤ n₂ + 1 := Nat.le_of_mul_le_mul_left key (by omega)
  have heq : n₁ = n₂ + 1 := by omega
  have e₁ : 2 * q₁ * n₁ = 2 * p₁ + q₁ := by
    refine le_antisymm a₁ ?_
    have : (2 * p₁ + q₁) * q₂ ≤ 2 * q₁ * n₁ * q₂ := by rw [heq]; nlinarith
    exact Nat.le_of_mul_le_mul_right this h₂
  have e₂ : 2 * p₂ = 2 * q₂ * n₂ + q₂ := by
    refine le_antisymm a₂ ?_
    have : (2 * q₂ * n₂ + q₂) * q₁ ≤ 2 * p₂ * q₁ := by
      have : 2 * q₁ * (n₂ + 1) = 2 * p₁ + q₁ := by rw [← heq]; exact e₁
      nlinarith
    exact Nat.le_of_mul_le_mul_right this h₁
  have := t₁ (.inl e₁)
  have := t₂ (.inr e₂)
  omega

/-- A whole quotient is kept. -/
theorem roundQuot_mul_left (n q : Nat) (hq : 0 < q) : roundQuot (n * q) q = n := by
  unfold roundQuot
  simp [Nat.mul_mod_left, Nat.mul_div_cancel _ hq]
  omega

/-! ### The f32 magnitudes -/

/-- A magnitude by its exponent part and its fraction part. -/
theorem unitsOfMag_eq (k n : Nat) (h₁ : 2 ^ 23 ≤ n) (h₂ : n < 2 ^ 24) :
    unitsOfMag (k * 2 ^ 23 + n) = n * 2 ^ k := by
  unfold unitsOfMag
  have hd : (k * 2 ^ 23 + n) / 2 ^ 23 = k + 1 := by omega
  have hm : (k * 2 ^ 23 + n) % 2 ^ 23 = n - 2 ^ 23 := by omega
  rw [if_neg (by omega), hd, hm, Nat.add_sub_cancel, Nat.add_sub_cancel' h₁]

theorem unitsOfMag_small (n : Nat) (h : n < 2 ^ 24) : unitsOfMag n = n := by
  rcases Nat.lt_or_ge n (2 ^ 23) with h' | h'
  · rw [unitsOfMag, if_pos h']
  · simpa using unitsOfMag_eq 0 n h' h

/-- Every magnitude is a significand below 2^24 times a power of two. -/
theorem unitsOfMag_cases (m : Nat) :
    (m < 2 ^ 24 ∧ unitsOfMag m = m) ∨
      ∃ k n, 0 < k ∧ 2 ^ 23 ≤ n ∧ n < 2 ^ 24 ∧ m = k * 2 ^ 23 + n ∧ unitsOfMag m = n * 2 ^ k := by
  rcases Nat.lt_or_ge m (2 ^ 24) with h | h
  · exact .inl ⟨h, unitsOfMag_small m h⟩
  · refine .inr ⟨m / 2 ^ 23 - 1, 2 ^ 23 + m % 2 ^ 23, by omega, by omega, by omega, by omega, ?_⟩
    unfold unitsOfMag
    rw [if_neg (by omega)]

theorem unitsOfMag_succ_lt (m : Nat) : unitsOfMag m < unitsOfMag (m + 1) := by
  rcases unitsOfMag_cases m with ⟨h, e⟩ | ⟨k, n, hk, h₁, h₂, rfl, e⟩
  · rcases Nat.lt_or_ge (m + 1) (2 ^ 24) with h' | h'
    · rw [e, unitsOfMag_small _ h']; omega
    · have : m + 1 = 1 * 2 ^ 23 + 2 ^ 23 := by omega
      rw [e, this, unitsOfMag_eq 1 _ (by omega) (by omega)]; omega
  · rcases Nat.lt_or_ge (n + 1) (2 ^ 24) with h' | h'
    · rw [e, Nat.add_assoc, unitsOfMag_eq k _ (by omega) h']
      exact Nat.mul_lt_mul_of_pos_right (by omega) (by positivity)
    · have : k * 2 ^ 23 + n + 1 = (k + 1) * 2 ^ 23 + 2 ^ 23 := by omega
      rw [e, this, unitsOfMag_eq (k + 1) _ (by omega) (by omega), pow_succ 2 k, ← Nat.mul_assoc, Nat.mul_right_comm]
      exact Nat.mul_lt_mul_of_pos_right (by omega) (by positivity)

theorem unitsOfMag_strictMono : StrictMono unitsOfMag := strictMono_nat_of_lt_succ unitsOfMag_succ_lt

theorem unitsOfMag_le_iff {a b : Nat} : unitsOfMag a ≤ unitsOfMag b ↔ a ≤ b := unitsOfMag_strictMono.le_iff_le

theorem unitsOfMag_lt_iff {a b : Nat} : unitsOfMag a < unitsOfMag b ↔ a < b := unitsOfMag_strictMono.lt_iff_lt

theorem unitsOfMag_inj {a b : Nat} : unitsOfMag a = unitsOfMag b ↔ a = b := unitsOfMag_strictMono.injective.eq_iff

/-! ### roundMag -/

/-- `roundMag` before the limit at infinity. -/
def roundRaw (p q : Nat) : Nat :=
  (Nat.log2 (p / q) - 23) * 2 ^ 23 + roundQuot p (q * 2 ^ (Nat.log2 (p / q) - 23))

theorem roundMag_eq (p q : Nat) : roundMag p q = min infMag (roundRaw p q) := rfl

/-- The shift of `roundRaw` brings the quotient below 2^24. -/
theorem shift_lt (p q : Nat) (hq : 0 < q) : p < 2 ^ 24 * (q * 2 ^ (Nat.log2 (p / q) - 23)) := by
  have h : p / q < 2 ^ (Nat.log2 (p / q) + 1) := Nat.lt_log2_self
  have h' : p / q < 2 ^ (24 + (Nat.log2 (p / q) - 23)) :=
    lt_of_lt_of_le h (Nat.pow_le_pow_right (by omega) (by omega))
  have := (Nat.div_lt_iff_lt_mul hq).1 h'
  calc p < 2 ^ (24 + (Nat.log2 (p / q) - 23)) * q := this
    _ = _ := by rw [pow_add]; ring

/-- The shift of `roundRaw`, when there is one, leaves the quotient at 2^23 or more. -/
theorem shift_ge (p q : Nat) (hq : 0 < q) (hk : 0 < Nat.log2 (p / q) - 23) :
    2 ^ 23 * (q * 2 ^ (Nat.log2 (p / q) - 23)) ≤ p := by
  have h0 : p / q ≠ 0 := by intro h; rw [h] at hk; simp at hk
  have h : 2 ^ Nat.log2 (p / q) ≤ p / q := Nat.log2_self_le h0
  have h' : 2 ^ (23 + (Nat.log2 (p / q) - 23)) ≤ p / q := by
    refine le_trans (le_of_eq ?_) h
    congr 1; omega
  have := (Nat.le_div_iff_mul_le hq).1 h'
  calc _ = 2 ^ (23 + (Nat.log2 (p / q) - 23)) * q := by rw [pow_add]; ring
    _ ≤ p := this

theorem roundQuot_le_of_le {p q n : Nat} (hq : 0 < q) (h : p ≤ n * q) : roundQuot p q ≤ n := by
  have := roundQuot_mono hq hq (p₂ := n * q) (by nlinarith : p * q ≤ n * q * q)
  rwa [roundQuot_mul_left n q hq] at this

theorem le_roundQuot_of_le {p q n : Nat} (hq : 0 < q) (h : n * q ≤ p) : n ≤ roundQuot p q := by
  have := roundQuot_mono hq hq (p₁ := n * q) (by nlinarith : n * q * q ≤ p * q)
  rwa [roundQuot_mul_left n q hq] at this

theorem roundRaw_mono {p₁ q₁ p₂ q₂ : Nat} (h₁ : 0 < q₁) (h₂ : 0 < q₂) (h : p₁ * q₂ ≤ p₂ * q₁) :
    roundRaw p₁ q₁ ≤ roundRaw p₂ q₂ := by
  have hdiv : p₁ / q₁ ≤ p₂ / q₂ := by
    rw [Nat.le_div_iff_mul_le h₂]
    have : p₁ / q₁ * q₁ ≤ p₁ := Nat.div_mul_le_self p₁ q₁
    have : p₁ / q₁ * q₂ * q₁ ≤ p₂ * q₁ := by nlinarith
    exact Nat.le_of_mul_le_mul_right this h₁
  have hlog : Nat.log2 (p₁ / q₁) ≤ Nat.log2 (p₂ / q₂) := by
    rw [Nat.log2_eq_log_two, Nat.log2_eq_log_two]; exact Nat.log_mono_right hdiv
  have s₁ := shift_lt p₁ q₁ h₁
  have s₂ := shift_ge p₂ q₂ h₂
  unfold roundRaw
  set k₁ := Nat.log2 (p₁ / q₁) - 23
  set k₂ := Nat.log2 (p₂ / q₂) - 23
  have hk : k₁ ≤ k₂ := by omega
  have e₁ : 0 < q₁ * 2 ^ k₁ := by positivity
  have e₂ : 0 < q₂ * 2 ^ k₂ := by positivity
  rcases Nat.lt_or_ge k₁ k₂ with hlt | hge
  · have a : roundQuot p₁ (q₁ * 2 ^ k₁) ≤ 2 ^ 24 := roundQuot_le_of_le e₁ s₁.le
    have b : 2 ^ 23 ≤ roundQuot p₂ (q₂ * 2 ^ k₂) := le_roundQuot_of_le e₂ (s₂ (by omega))
    omega
  · have : k₁ = k₂ := by omega
    rw [← this] at e₂ ⊢
    have : p₁ * (q₂ * 2 ^ k₁) ≤ p₂ * (q₁ * 2 ^ k₁) := by nlinarith
    exact Nat.add_le_add_left (roundQuot_mono e₁ e₂ this) _

/-- Rounding is monotone (40_numerics.md R141). -/
theorem roundMag_mono {p₁ q₁ p₂ q₂ : Nat} (h₁ : 0 < q₁) (h₂ : 0 < q₂) (h : p₁ * q₂ ≤ p₂ * q₁) :
    roundMag p₁ q₁ ≤ roundMag p₂ q₂ := by
  rw [roundMag_eq, roundMag_eq]
  exact min_le_min_left _ (roundRaw_mono h₁ h₂ h)

/-- A representable magnitude is kept, also as a quotient. -/
theorem roundRaw_unitsOfMag (m q : Nat) (hq : 0 < q) : roundRaw (unitsOfMag m * q) q = m := by
  unfold roundRaw
  rw [Nat.mul_div_cancel _ hq]
  rcases unitsOfMag_cases m with ⟨h, e⟩ | ⟨k, n, hk, hn₁, hn₂, rfl, e⟩
  · have : Nat.log2 m - 23 = 0 := by
      rcases Nat.eq_zero_or_pos m with rfl | hm
      · simp
      · have := (Nat.log2_lt (Nat.pos_iff_ne_zero.1 hm)).2 h; omega
    rw [e, this]
    simpa using roundQuot_mul_left m q hq
  · have hlog : Nat.log2 (n * 2 ^ k) = 23 + k := by
      rw [Nat.log2_eq_iff (by positivity)]
      constructor
      · rw [pow_add]; exact Nat.mul_le_mul_right _ hn₁
      · calc n * 2 ^ k < 2 ^ 24 * 2 ^ k := Nat.mul_lt_mul_of_pos_right hn₂ (by positivity)
          _ = _ := by rw [← pow_add]; congr 1; omega
    have : Nat.log2 (n * 2 ^ k) - 23 = k := by omega
    rw [e, this]
    have : n * 2 ^ k * q = n * (q * 2 ^ k) := by ring
    rw [this, roundQuot_mul_left _ _ (by positivity)]

theorem roundMag_unitsOfMag {m : Nat} (hm : m ≤ infMag) (q : Nat) (hq : 0 < q) :
    roundMag (unitsOfMag m * q) q = m := by
  rw [roundMag_eq, roundRaw_unitsOfMag m q hq, min_eq_right hm]

/-- A value at most a representable one rounds to at most it. -/
theorem roundMag_le {p q m : Nat} (hq : 0 < q) (hm : m ≤ infMag) (h : p ≤ unitsOfMag m * q) : roundMag p q ≤ m := by
  have := roundMag_mono hq hq (p₂ := unitsOfMag m * q) (Nat.mul_le_mul_right q h)
  rwa [roundMag_unitsOfMag hm q hq] at this

/-- A value at least a representable one rounds to at least it. -/
theorem le_roundMag {p q m : Nat} (hq : 0 < q) (hm : m ≤ infMag) (h : unitsOfMag m * q ≤ p) : m ≤ roundMag p q := by
  have := roundMag_mono hq hq (p₁ := unitsOfMag m * q) (Nat.mul_le_mul_right q h)
  rwa [roundMag_unitsOfMag hm q hq] at this

theorem roundMag_le_infMag (p q : Nat) : roundMag p q ≤ infMag := min_le_left _ _

end Sys2Proof.Laws
end

