-- ==== Sys2Proof/Laws/Interval.lean ====
section
/-!
SUPPORT. One spec lemma per f32 operation: its result as the rounding of the exact result, and the interval rules that
follow from the monotony of rounding (40_numerics.md R141, R167).
-/

namespace Sys2Proof.Laws

open Sys2Proof.Machine

/-! ### Encodings -/

@[simp] theorem magBits_pack (s : Bool) {m : Nat} (h : m < 2 ^ 31) : magBits (pack s m) = m := by
  cases s <;> simp [magBits, pack] <;> omega

@[simp] theorem signBit_pack (s : Bool) {m : Nat} (h : m < 2 ^ 31) : signBit (pack s m) = s := by
  cases s
  · simp only [signBit, pack, Bool.false_eq_true, if_false, BitVec.getLsbD_ofNat, Nat.testBit_lt_two_pow h]
    simp
  · simp only [signBit, pack, if_true, BitVec.getLsbD_ofNat, Nat.testBit_two_pow_add_eq, Nat.testBit_lt_two_pow h]
    simp

theorem infMag_lt : infMag < 2 ^ 31 := by decide

theorem magBits_lt (x : F32) : magBits x < 2 ^ 31 := Nat.mod_lt _ (by decide)

theorem roundMag_lt (p q : Nat) : roundMag p q < 2 ^ 31 := lt_of_le_of_lt (roundMag_le_infMag p q) infMag_lt

@[simp] theorem magBits_roundTo (s : Bool) (p q : Nat) : magBits (roundTo s p q) = roundMag p q :=
  magBits_pack s (roundMag_lt p q)

@[simp] theorem signBit_roundTo (s : Bool) (p q : Nat) : signBit (roundTo s p q) = s :=
  signBit_pack s (roundMag_lt p q)

/-- A rounded value is never a NaN. -/
@[simp] theorem isNaN_roundTo (s : Bool) (p q : Nat) : isNaN (roundTo s p q) = false := by
  simp [isNaN, roundMag_le_infMag]

theorem isNaN_pack (s : Bool) {m : Nat} (h : m ≤ infMag) : isNaN (pack s m) = false := by
  simp [isNaN, magBits_pack s (lt_of_le_of_lt h infMag_lt), h]

theorem isFinite_not_isNaN {x : F32} (h : isFinite x = true) : isNaN x = false := by
  simp only [isFinite, isNaN, decide_eq_true_eq, decide_eq_false_iff_not] at *
  omega

theorem isFinite_not_isInf {x : F32} (h : isFinite x = true) : isInf x = false := by
  simp only [isFinite, isInf, decide_eq_true_eq, beq_eq_false_iff_ne] at *
  omega

theorem isNaN_false_iff {x : F32} : isNaN x = false ↔ magBits x ≤ infMag := by
  simp [isNaN]

theorem isFinite_iff {x : F32} : isFinite x = true ↔ magBits x < infMag := by simp [isFinite]

/-- A NaN whose payload is free is a NaN. -/
@[simp] theorem isNaN_nanFrom (w : F32) : isNaN (nanFrom w) = true := by
  unfold nanFrom
  split
  · assumption
  · decide

@[simp] theorem isNaN_nanOf (op : Config.BasicOp) (x y : F32) : isNaN (nanOf op x y) = true := isNaN_nanFrom _

theorem signBit_eq (x : F32) : signBit x = decide (x.toNat / 2 ^ 31 % 2 = 1) := by
  rw [signBit, BitVec.getLsbD, Nat.testBit_eq_decide_div_mod_eq]

/-- Two f32 of the same sign and magnitude bits are the same. -/
theorem eq_of_bits {x y : F32} (hs : signBit x = signBit y) (hm : magBits x = magBits y) : x = y := by
  rw [signBit_eq, signBit_eq, decide_eq_decide] at hs
  have b₁ := x.isLt
  have b₂ := y.isLt
  unfold magBits at hm
  exact BitVec.eq_of_toNat_eq (by omega)

/-! ### Values -/

theorem units_of_pos {x : F32} (h : signBit x = false) : units x = magUnits x := by simp [units, h]

theorem units_of_neg {x : F32} (h : signBit x = true) : units x = -(magUnits x : Int) := by simp [units, h]

theorem natAbs_units (x : F32) : (units x).natAbs = magUnits x := by
  unfold units; split <;> simp

theorem units_pack (s : Bool) {m : Nat} (h : m < 2 ^ 31) :
    units (pack s m) = if s then -(unitsOfMag m : Int) else (unitsOfMag m : Int) := by
  simp [units, magUnits, magBits_pack s h, signBit_pack s h]

theorem units_roundTo (s : Bool) (p q : Nat) :
    units (roundTo s p q) = if s then -(unitsOfMag (roundMag p q) : Int) else (unitsOfMag (roundMag p q) : Int) :=
  units_pack s (roundMag_lt p q)

/-- The sign of a quotient, applied to its magnitude. -/
def signed (s : Bool) (p : Nat) : Int := if s then -(p : Int) else (p : Int)

/-- Rounding does not pass a representable upper bound. -/
theorem units_roundTo_le {s : Bool} {p q : Nat} {hi : F32} (hq : 0 < q) (hh : isNaN hi = false)
    (h : signed s p ≤ units hi * q) : units (roundTo s p q) ≤ units hi := by
  have hm : magBits hi ≤ infMag := isNaN_false_iff.1 hh
  rw [units_roundTo]
  cases s
  · simp only [signed, Bool.false_eq_true, if_false] at h ⊢
    cases hs : signBit hi
    · rw [units_of_pos hs] at h ⊢
      have : p ≤ unitsOfMag (magBits hi) * q := by exact_mod_cast h
      exact_mod_cast unitsOfMag_le_iff.2 (roundMag_le hq hm this)
    · rw [units_of_neg hs] at h ⊢
      have h0 : (0 : Int) ≤ (magUnits hi : Int) * q := by positivity
      have hp : p = 0 := by
        have : (p : Int) ≤ -((magUnits hi : Int) * q) := by linarith
        omega
      have hz : (magUnits hi : Int) * q = 0 := by
        subst hp; push_cast at h; linarith
      have hz' : magUnits hi = 0 := by
        rcases mul_eq_zero.1 hz with h' | h'
        · exact_mod_cast h'
        · omega
      have := roundMag_le (p := p) (m := 0) hq (by decide) (by omega)
      have : roundMag p q = 0 := by omega
      rw [this, hz']; decide
  · simp only [signed, if_true] at h ⊢
    cases hs : signBit hi
    · rw [units_of_pos hs]; omega
    · rw [units_of_neg hs] at h ⊢
      have : unitsOfMag (magBits hi) * q ≤ p := by
        have : (magUnits hi : Int) * q ≤ p := by linarith
        exact_mod_cast this
      have := unitsOfMag_le_iff.2 (le_roundMag hq hm this)
      have : (magUnits hi : Int) ≤ unitsOfMag (roundMag p q) := by exact_mod_cast this
      linarith

/-- Rounding does not pass a representable lower bound. -/
theorem le_units_roundTo {s : Bool} {p q : Nat} {lo : F32} (hq : 0 < q) (hl : isNaN lo = false)
    (h : units lo * q ≤ signed s p) : units lo ≤ units (roundTo s p q) := by
  have hm : magBits lo ≤ infMag := isNaN_false_iff.1 hl
  rw [units_roundTo]
  cases s
  · simp only [signed, Bool.false_eq_true, if_false] at h ⊢
    cases hs : signBit lo
    · rw [units_of_pos hs] at h ⊢
      have : unitsOfMag (magBits lo) * q ≤ p := by exact_mod_cast h
      exact_mod_cast unitsOfMag_le_iff.2 (le_roundMag hq hm this)
    · rw [units_of_neg hs]; omega
  · simp only [signed, if_true] at h ⊢
    cases hs : signBit lo
    · rw [units_of_pos hs] at h ⊢
      have h0 : (0 : Int) ≤ (magUnits lo : Int) * q := by positivity
      have hp : p = 0 := by
        have : (p : Int) ≤ -((magUnits lo : Int) * q) := by linarith
        omega
      have hz : (magUnits lo : Int) * q = 0 := by
        subst hp; push_cast at h; linarith
      have hz' : magUnits lo = 0 := by
        rcases mul_eq_zero.1 hz with h' | h'
        · exact_mod_cast h'
        · omega
      have := roundMag_le (p := p) (m := 0) hq (by decide) (by omega)
      have : roundMag p q = 0 := by omega
      rw [this, hz']; decide
    · rw [units_of_neg hs] at h ⊢
      have : p ≤ unitsOfMag (magBits lo) * q := by
        have : (p : Int) ≤ (magUnits lo : Int) * q := by linarith
        exact_mod_cast this
      have := unitsOfMag_le_iff.2 (roundMag_le hq hm this)
      have : (unitsOfMag (roundMag p q) : Int) ≤ magUnits lo := by exact_mod_cast this
      linarith

/-! ### Operations on finite operands -/

/-- The value fAdd rounds, as a sign and a magnitude. -/
theorem signed_natAbs (n : Int) : signed (decide (n < 0)) n.natAbs = n := by
  unfold signed
  by_cases h : n < 0
  · rw [decide_eq_true h, if_pos rfl]; omega
  · rw [decide_eq_false h]; simp; omega

theorem fAdd_finite {x y : F32} (hx : isFinite x = true) (hy : isFinite y = true) :
    fAdd x y = if units x + units y = 0 then pack (signBit x && signBit y) 0
      else roundTo (decide (units x + units y < 0)) (units x + units y).natAbs 1 := by
  simp [fAdd, isFinite_not_isNaN hx, isFinite_not_isNaN hy, isFinite_not_isInf hx, isFinite_not_isInf hy]

theorem fMul_finite {x y : F32} (hx : isFinite x = true) (hy : isFinite y = true) :
    fMul x y = roundTo (signBit x != signBit y) (magUnits x * magUnits y) (2 ^ 149) := by
  simp [fMul, isFinite_not_isNaN hx, isFinite_not_isNaN hy, isFinite_not_isInf hx, isFinite_not_isInf hy]

theorem fDiv_finite {x y : F32} (hx : isFinite x = true) (hy : isFinite y = true) (h0 : magBits y ≠ 0) :
    fDiv x y = roundTo (signBit x != signBit y) (magUnits x * 2 ^ 149) (magUnits y) := by
  simp [fDiv, isFinite_not_isNaN hx, isFinite_not_isNaN hy, isFinite_not_isInf hx, isFinite_not_isInf hy, h0]

theorem fNeg_bits (x : F32) : magBits (fNeg x) = magBits x ∧ signBit (fNeg x) = !signBit x := by
  have h : (fNeg x).getLsbD 31 = !x.getLsbD 31 := by simp [fNeg]
  refine ⟨?_, h⟩
  have e : ∀ z : F32, magBits z = (z.extractLsb' 0 31).toNat := by
    intro z; simp [magBits, BitVec.extractLsb'_toNat]
  rw [e, e]
  congr 1
  unfold fNeg
  ext i hi
  simp only [BitVec.getElem_extractLsb', BitVec.getLsbD_xor]
  interval_cases i <;> simp

@[simp] theorem magBits_fNeg (x : F32) : magBits (fNeg x) = magBits x := (fNeg_bits x).1

@[simp] theorem signBit_fNeg (x : F32) : signBit (fNeg x) = !signBit x := (fNeg_bits x).2

@[simp] theorem isNaN_fNeg (x : F32) : isNaN (fNeg x) = isNaN x := by simp [isNaN]

@[simp] theorem isFinite_fNeg (x : F32) : isFinite (fNeg x) = isFinite x := by simp [isFinite]

@[simp] theorem isInf_fNeg (x : F32) : isInf (fNeg x) = isInf x := by simp [isInf]

@[simp] theorem units_fNeg (x : F32) : units (fNeg x) = -units x := by
  cases h : signBit x <;> simp [units, magUnits, h]

theorem absF_bits (x : F32) : magBits (absF x) = magBits x ∧ signBit (absF x) = false := by
  have h : (absF x).getLsbD 31 = false := by simp [absF]
  refine ⟨?_, h⟩
  have e : ∀ z : F32, magBits z = (z.extractLsb' 0 31).toNat := by
    intro z; simp [magBits, BitVec.extractLsb'_toNat]
  rw [e, e]
  congr 1
  unfold absF
  ext i hi
  simp only [BitVec.getElem_extractLsb', BitVec.getLsbD_and]
  interval_cases i <;> simp

@[simp] theorem magBits_absF (x : F32) : magBits (absF x) = magBits x := (absF_bits x).1

@[simp] theorem signBit_absF (x : F32) : signBit (absF x) = false := (absF_bits x).2

@[simp] theorem isNaN_absF (x : F32) : isNaN (absF x) = isNaN x := by simp [isNaN]

@[simp] theorem isFinite_absF (x : F32) : isFinite (absF x) = isFinite x := by simp [isFinite]

@[simp] theorem units_absF (x : F32) : units (absF x) = (magUnits x : Int) := by
  simp [units, magUnits]

theorem units_le_magUnits (x : F32) : units x ≤ magUnits x ∧ -(magUnits x : Int) ≤ units x := by
  unfold units; split <;> omega

end Sys2Proof.Laws
end

