-- ==== Sys2Proof/Laws/Range.lean ====
section
/-!
SUPPORT. Ranges of f32 values: `within`, and what the operations, clamps, minimum, maximum and the phase wrap do to it
(40_numerics.md R141, R146, R147, R148, R167).
-/

namespace Sys2Proof.Laws

open Sys2Proof.Machine

theorem fLe_iff {x y : F32} : fLe x y = true ↔ isNaN x = false ∧ isNaN y = false ∧ units x ≤ units y := by
  simp [fLe, and_assoc]

theorem fLt_iff {x y : F32} : fLt x y = true ↔ isNaN x = false ∧ isNaN y = false ∧ units x < units y := by
  simp [fLt, and_assoc]

theorem fGt_iff {x y : F32} : fGt x y = true ↔ isNaN x = false ∧ isNaN y = false ∧ units y < units x := by
  rw [fGt, fLt_iff]; tauto

theorem within_iff {lo hi x : F32} : within lo hi x = true ↔
    isNaN lo = false ∧ isNaN hi = false ∧ isNaN x = false ∧ units lo ≤ units x ∧ units x ≤ units hi := by
  rw [within, Bool.and_eq_true, fLe_iff, fLe_iff]; tauto

theorem withinBelow_iff {lo hi x : F32} : withinBelow lo hi x = true ↔
    isNaN lo = false ∧ isNaN hi = false ∧ isNaN x = false ∧ units lo ≤ units x ∧ units x < units hi := by
  rw [withinBelow, Bool.and_eq_true, fLe_iff, fLt_iff]; tauto

theorem within_of_withinBelow {lo hi x : F32} (h : withinBelow lo hi x = true) : within lo hi x = true := by
  rw [withinBelow_iff] at h; rw [within_iff]; exact ⟨h.1, h.2.1, h.2.2.1, h.2.2.2.1, h.2.2.2.2.le⟩

theorem within_mono {lo hi lo' hi' x : F32} (h : within lo hi x = true) (hl : fLe lo' lo = true)
    (hh : fLe hi hi' = true) : within lo' hi' x = true := by
  rw [within_iff] at *
  rw [fLe_iff] at hl hh
  exact ⟨hl.1, hh.2.1, h.2.2.1, hl.2.2.trans h.2.2.2.1, h.2.2.2.2.trans hh.2.2⟩

/-- A value between finite bounds is finite. -/
theorem isFinite_of_within {lo hi x : F32} (h : within lo hi x = true) (hl : isFinite lo = true)
    (hh : isFinite hi = true) : isFinite x = true := by
  rw [within_iff] at h
  have a := isFinite_iff.1 hl
  have b := isFinite_iff.1 hh
  rw [isFinite_iff, ← unitsOfMag_lt_iff]
  rw [← unitsOfMag_lt_iff] at a b
  have c : (magUnits x : Int) ≤ max (magUnits lo) (magUnits hi) := by
    have := natAbs_units x
    have l := units_le_magUnits lo
    have u := units_le_magUnits hi
    omega
  change magUnits lo < _ at a
  change magUnits hi < _ at b
  change magUnits x < _
  omega

/-! ### Rounded values -/

theorem within_roundTo {lo hi : F32} {s : Bool} {p q : Nat} (hq : 0 < q) (hl : isNaN lo = false)
    (hh : isNaN hi = false) (h₁ : units lo * q ≤ signed s p) (h₂ : signed s p ≤ units hi * q) :
    within lo hi (roundTo s p q) = true := by
  rw [within_iff]
  exact ⟨hl, hh, isNaN_roundTo s p q, le_units_roundTo hq hl h₁, units_roundTo_le hq hh h₂⟩

/-- A sum lies between bounds of the exact sum. -/
theorem within_fAdd {lo hi x y : F32} (hx : isFinite x = true) (hy : isFinite y = true) (hl : isNaN lo = false)
    (hh : isNaN hi = false) (h₁ : units lo ≤ units x + units y) (h₂ : units x + units y ≤ units hi) :
    within lo hi (fAdd x y) = true := by
  rw [fAdd_finite hx hy]
  split
  · rename_i h0
    rw [h0] at h₁ h₂
    rw [within_iff]
    refine ⟨hl, hh, isNaN_pack _ (by decide), ?_, ?_⟩ <;> rw [units_pack _ (by decide)] <;>
      have : unitsOfMag 0 = 0 := by decide
    · rw [this]; split <;> simpa using h₁
    · rw [this]; split <;> simpa using h₂
  · apply within_roundTo (by decide) hl hh <;> rw [signed_natAbs] <;> simpa

theorem within_fSub {lo hi x y : F32} (hx : isFinite x = true) (hy : isFinite y = true) (hl : isNaN lo = false)
    (hh : isNaN hi = false) (h₁ : units lo ≤ units x - units y) (h₂ : units x - units y ≤ units hi) :
    within lo hi (fSub x y) = true := by
  apply within_fAdd hx (by simpa using hy) hl hh <;> rw [units_fNeg] <;> linarith

/-- The exact product, as a sign and a magnitude. -/
theorem signed_mul (x y : F32) : signed (signBit x != signBit y) (magUnits x * magUnits y) = units x * units y := by
  unfold signed units
  cases signBit x <;> cases signBit y <;> simp

theorem within_fMul {lo hi x y : F32} (hx : isFinite x = true) (hy : isFinite y = true) (hl : isNaN lo = false)
    (hh : isNaN hi = false) (h₁ : units lo * 2 ^ 149 ≤ units x * units y)
    (h₂ : units x * units y ≤ units hi * 2 ^ 149) : within lo hi (fMul x y) = true := by
  rw [fMul_finite hx hy]
  apply within_roundTo (by positivity) hl hh <;> rw [signed_mul] <;> push_cast <;> assumption

/-- A product of values of bounded magnitude. -/
theorem within_fMul_sym {b d h x y : F32} (hx : within (fNeg b) b x = true) (hy : within (fNeg d) d y = true)
    (hb : isFinite b = true) (hd : isFinite d = true) (hh : isNaN h = false)
    (hm : units b * units d ≤ units h * 2 ^ 149) : within (fNeg h) h (fMul x y) = true := by
  have fx := isFinite_of_within hx (by simpa using hb) hb
  have fy := isFinite_of_within hy (by simpa using hd) hd
  rw [within_iff] at hx hy
  simp only [units_fNeg] at hx hy
  have hxy : |units x * units y| ≤ units b * units d := by
    rw [abs_mul]
    exact mul_le_mul (abs_le.2 hx.2.2.2) (abs_le.2 hy.2.2.2) (abs_nonneg _)
      ((abs_nonneg _).trans (abs_le.2 hx.2.2.2))
  have := abs_le.1 (hxy.trans hm)
  apply within_fMul fx fy (by simpa using hh) hh
  · rw [units_fNeg]; linarith [this.1]
  · exact this.2

/-- A product of values that are not negative. -/
theorem within_fMul_nonneg {a b c d lo hi x y : F32} (hx : within a b x = true) (hy : within c d y = true)
    (ha : 0 ≤ units a) (hc : 0 ≤ units c) (hb : isFinite b = true) (hd : isFinite d = true)
    (fa : isFinite a = true) (fc : isFinite c = true) (hl : isNaN lo = false) (hh : isNaN hi = false)
    (h₁ : units lo * 2 ^ 149 ≤ units a * units c) (h₂ : units b * units d ≤ units hi * 2 ^ 149) :
    within lo hi (fMul x y) = true := by
  have fx := isFinite_of_within hx fa hb
  have fy := isFinite_of_within hy fc hd
  rw [within_iff] at hx hy
  obtain ⟨-, -, -, x₁, x₂⟩ := hx
  obtain ⟨-, -, -, y₁, y₂⟩ := hy
  apply within_fMul fx fy hl hh
  · exact h₁.trans (mul_le_mul x₁ y₁ hc (ha.trans x₁))
  · exact (mul_le_mul x₂ y₂ (hc.trans y₁) ((ha.trans x₁).trans x₂)).trans h₂

/-- A quotient of a value that is not negative by a positive one. -/
theorem within_fDiv_pos {lo hi x y : F32} (hx : isFinite x = true) (hy : isFinite y = true) (h0 : 0 ≤ units x)
    (hp : 0 < units y) (hl : isNaN lo = false) (hh : isNaN hi = false) (h₁ : units lo * units y ≤ units x * 2 ^ 149)
    (h₂ : units x * 2 ^ 149 ≤ units hi * units y) : within lo hi (fDiv x y) = true := by
  have hm : magUnits y ≠ 0 := by have := natAbs_units y; omega
  have hb : magBits y ≠ 0 := by
    intro h; apply hm; unfold magUnits; rw [h]; decide
  rw [fDiv_finite hx hy hb]
  have hxe : (magUnits x : Int) = units x := by have := natAbs_units x; omega
  have hye : (magUnits y : Int) = units y := by have := natAbs_units y; omega
  have hs : signed (signBit x != signBit y) (magUnits x * 2 ^ 149) = units x * 2 ^ 149 := by
    have sy : signBit y = false := by
      cases h : signBit y
      · rfl
      · rw [units_of_neg h] at hp; omega
    rw [sy]
    cases h : signBit x
    · simp [signed, hxe]
    · have : magUnits x = 0 := by rw [units_of_neg h] at h0; omega
      simp [signed, ← hxe, this]
  apply within_roundTo (by omega) hl hh <;> rw [hs, hye] <;> assumption

/-! ### Clamps, minimum, maximum -/

theorem clampF_within {x lo hi : F32} (h : fLe lo hi = true) : within lo hi (clampF x lo hi) = true := by
  rw [fLe_iff] at h
  rw [within_iff]
  unfold clampF
  split
  · exact ⟨h.1, h.2.1, h.1, le_rfl, h.2.2⟩
  split
  · exact ⟨h.1, h.2.1, h.1, le_rfl, h.2.2⟩
  split
  · exact ⟨h.1, h.2.1, h.2.1, h.2.2, le_rfl⟩
  · rename_i h₁ h₂ h₃
    rw [fLt_iff] at h₂
    rw [fGt_iff] at h₃
    simp only [Bool.not_eq_true] at h₁
    simp only [h.1, h.2.1, h₁, true_and, not_lt] at h₂ h₃
    exact ⟨h.1, h.2.1, h₁, h₂, h₃⟩

theorem clampF_of_within {x lo hi : F32} (h : within lo hi x = true) : clampF x lo hi = x := by
  rw [within_iff] at h
  have a : fLt x lo = false := by
    rw [← Bool.not_eq_true, fLt_iff]; intro h'; omega
  have b : fGt x hi = false := by
    rw [← Bool.not_eq_true, fGt_iff]; intro h'; omega
  simp [clampF, h.2.2.1, a, b]

/-- Clamping a finite value to a range around zero gives a finite value, whatever the bounds. -/
theorem clampF_finite {x lo hi : F32} (hx : isFinite x = true) (hl : units lo ≤ 0) (hh : 0 ≤ units hi) :
    isFinite (clampF x lo hi) = true := by
  have key : ∀ y : F32, magUnits y ≤ magUnits x → isFinite y = true := fun y hy =>
    isFinite_iff.2 (lt_of_le_of_lt (unitsOfMag_le_iff.1 hy) (isFinite_iff.1 hx))
  have ux := natAbs_units x
  unfold clampF
  split
  · rename_i hn; rw [isFinite_not_isNaN hx] at hn; cases hn
  · split
    · rename_i h₁
      refine key lo ?_
      have := (fLt_iff.1 h₁).2.2
      have := natAbs_units lo
      omega
    · split
      · rename_i h₁
        refine key hi ?_
        have := (fGt_iff.1 h₁).2.2
        have := natAbs_units hi
        omega
      · exact hx

theorem clamp01_within (x : F32) : within lit0 lit1 (clamp01 x) = true := clampF_within (by decide)

/-- The clamp is what `ClampedTo` says, case by case. -/
theorem clampF_clampedTo {lo hi : F32} (h : fLe lo hi = true) (x : F32) : ClampedTo lo hi x (clampF x lo hi) := by
  refine ⟨fun hn => by simp [clampF, hn], fun hl => ?_, fun hg => ?_, clampF_of_within⟩
  · simp [clampF, hl]
  · have hg' := fGt_iff.1 hg
    have : fLt x lo = false := by
      rw [← Bool.not_eq_true, fLt_iff]; rw [fLe_iff] at h; intro h'; omega
    simp [clampF, hg, hg'.1, this]

theorem maxF_within {lo hi a b : F32} (ha : within lo hi a = true) (hb : within lo hi b = true) :
    within lo hi (maxF a b) = true := by unfold maxF; split <;> assumption

theorem minF_within {lo hi a b : F32} (ha : within lo hi a = true) (hb : within lo hi b = true) :
    within lo hi (minF a b) = true := by unfold minF; split <;> assumption

end Sys2Proof.Laws
end

