-- ==== Sys2Proof/Laws/Config.lean ====
section
/-!
SUPPORT. What a legal configuration gives (00_scope.md R13), and the default parameters by name (R11).
-/

namespace Sys2Proof.Laws

open Sys2Proof.Machine

/-- The constraints of a legal configuration, as propositions. -/
theorem legal_facts {c : Params} (h : c.legal = true) :
    fGt c.sampleRate lit0 = true ∧ fLt lit0 c.fMin = true ∧ fLe c.fMin c.defaultFreq = true ∧
      fLe c.defaultFreq c.fMax = true ∧ 16 < c.combCap ∧ 8 < c.apCap ∧ fLe lit0 c.dampMax = true ∧
      fLt c.dampMax lit1 = true ∧ fLt lit0 c.excDecay = true ∧ fLt c.excDecay lit1 = true ∧
      fLe lit0 c.chaosFloor = true ∧ fLt c.chaosFloor lit1 = true ∧ 1 ≤ c.foldMaxIter ∧
      fLt lit0 c.masterGain = true ∧ fGt c.safetyBound lit1 = true := by
  unfold Params.legal at h
  simp only [Bool.and_eq_true, and_assoc] at h
  obtain ⟨h1, h2, h3, h4, h5, h6, h7, h8, h9, h10, h11, h12, h13, h14, h15⟩ := h
  exact ⟨h1, h2, h3, h4, of_decide_eq_true h5, of_decide_eq_true h6, h7, h8, h9, h10, h11, h12, of_decide_eq_true h13,
    h14, h15⟩

theorem fLe_trans {x y z : F32} (h : fLe x y = true) (h' : fLe y z = true) : fLe x z = true := by
  rw [fLe_iff] at *
  exact ⟨h.1, h'.2.1, h.2.2.trans h'.2.2⟩

/-- The playable range of a legal configuration is not empty. -/
theorem fMin_le_fMax {c : Params} (h : c.legal = true) : fLe c.fMin c.fMax = true := by
  obtain ⟨-, -, h₁, h₂, -⟩ := legal_facts h
  exact fLe_trans h₁ h₂

theorem clampFreq_within {c : Params} (h : c.legal = true) (f : F32) : within c.fMin c.fMax (clampFreq c f) = true :=
  clampF_within (fMin_le_fMax h)

/-- The oscillators' own clamp changes nothing the engine has clamped (42_cascade.md R204). -/
theorem clampFreq_clampFreq {c : Params} (h : c.legal = true) (f : F32) :
    clampFreq c (clampFreq c f) = clampFreq c f := clampF_of_within (clampFreq_within h f)

/-- The safety range of a legal configuration is not empty. -/
theorem safety_range {c : Params} (h : c.legal = true) : fLe (fNeg c.safetyBound) c.safetyBound = true := by
  obtain ⟨-, -, -, -, -, -, -, -, -, -, -, -, -, -, hs⟩ := legal_facts h
  rw [fGt_iff] at hs
  rw [fLe_iff, isNaN_fNeg, units_fNeg]
  have e : (0 : Int) < units lit1 := by decide
  exact ⟨hs.1, hs.1, by omega⟩

/-- A configuration with the default parameters is the default one but for its instances. -/
theorem isDefault_eq {c : Params} (h : c.isDefault) :
    c = { Params.default with fns := c.fns, modSource := c.modSource } := by
  unfold Params.isDefault at h
  rw [← h]

end Sys2Proof.Laws
end

