-- ==== Sys2Proof/Laws/Elementary.lean ====
section
/-!
SUPPORT. The bounds every instance of sinF, tanhF and powF keeps (40_numerics.md R142, R143, R144), and those of the
maps built on them (R162, R165).
-/

namespace Sys2Proof.Laws

open Sys2Proof.Machine

theorem zero_within {x : F32} (h : magBits x = 0) : within litNeg1 lit1 x = true := by
  rw [within_iff]
  have hu : units x = 0 := by
    have e : magUnits x = 0 := by unfold magUnits; rw [h]; decide
    unfold units; rw [e]; split <;> simp
  rw [hu]
  exact ⟨by decide, by decide, isNaN_false_iff.2 (by omega), by decide, by decide⟩

/-- sinF of a finite argument lies in [-1.0, 1.0], for every instance (R142). -/
theorem sinF_within (i : FnInstance) {x : F32} (h : isFinite x = true) : within litNeg1 lit1 (sinF i x) = true := by
  unfold sinF
  rw [h]
  simp only [Bool.not_true, Bool.false_eq_true, if_false]
  split
  · rename_i h0; exact zero_within (by simpa using h0)
  · cases i <;> exact clampF_within (by decide)

/-- sinF of a NaN or an infinity is a NaN (R142). -/
theorem sinF_isNaN (i : FnInstance) {x : F32} (h : isFinite x = false) : isNaN (sinF i x) = true := by
  simp [sinF, h]

/-! ### The running maximum -/

theorem runMax_mono (f : Nat → Nat) {m n : Nat} (h : m ≤ n) : runMax f m ≤ runMax f n := by
  induction h with
  | refl => exact le_rfl
  | step _ ih => rw [runMax]; exact le_max_of_le_left ih

theorem le_runMax (f : Nat → Nat) (n : Nat) : f n ≤ runMax f n := by
  cases n with
  | zero => rw [runMax]
  | succ n => rw [runMax]; exact le_max_right _ _

theorem runMax_le (f : Nat → Nat) {n b : Nat} (h : ∀ m, m ≤ n → f m ≤ b) : runMax f n ≤ b := by
  induction n with
  | zero => rw [runMax]; exact h 0 le_rfl
  | succ n ih => rw [runMax]; exact max_le (ih fun m hm => h m (by omega)) (h _ le_rfl)

/-- The running maximum of a function that does not fall is the function: every instance of R143 and R144 is one. -/
theorem runMax_of_monotone (f : Nat → Nat) (hf : ∀ m n, m ≤ n → f m ≤ f n) (n : Nat) : runMax f n = f n :=
  le_antisymm (runMax_le f fun m hm => hf m n hm) (le_runMax f n)

/-- Another instance's tanh is at most the argument and 1.0 in magnitude (R143). -/
theorem runMax_otherTanhMag_le (k n : Nat) : runMax (otherTanhMag k) n ≤ min n (magBits lit1) :=
  runMax_le _ fun m hm => by unfold otherTanhMag; omega

/-- The magnitude tanhF gives a finite argument. -/
theorem tanhF_cases (i : FnInstance) {x : F32} (h : isNaN x = false) :
    ∃ r, tanhF i x = pack (signBit x) (magBits r) ∧ within lit0 (minF lit1 (absF x)) r = true := by
  have hn : isNaN (absF x) = false := by simpa using h
  have hm : fLe lit0 (minF lit1 (absF x)) = true := by
    unfold minF
    rw [fLe_iff]
    split
    · exact ⟨by decide, hn, by rw [units_absF]; exact Int.natCast_nonneg _⟩
    · decide
  unfold tanhF
  rw [h]
  simp only [Bool.false_eq_true, if_false]
  split
  · rename_i hi
    refine ⟨lit1, rfl, ?_⟩
    have : fLt (absF x) lit1 = false := by
      rw [← Bool.not_eq_true, fLt_iff]
      intro h'
      have hu : magUnits x = unitsOfMag infMag := by
        have : magBits x = infMag := by simpa [isInf] using hi
        unfold magUnits; rw [this]
      rw [units_absF, hu] at h'
      exact absurd h'.2.2 (by decide)
    rw [minF, if_neg (by simp [this])]
    decide
  · cases i with
    | reference => exact ⟨_, rfl, clampF_within hm⟩
    | other k =>
      have hle := runMax_otherTanhMag_le k (magBits x)
      have h₁ : magBits lit1 = 0x3F800000 := by decide
      have hlt : runMax (otherTanhMag k) (magBits x) < 2 ^ 31 := by omega
      have hu : units (pack false (runMax (otherTanhMag k) (magBits x))) = (unitsOfMag (runMax (otherTanhMag k) (magBits x)) : Nat) := by
        rw [units_pack _ hlt]; rfl
      refine ⟨pack false (runMax (otherTanhMag k) (magBits x)), by rw [magBits_pack _ hlt], ?_⟩
      rw [within_iff, hu]
      refine ⟨by decide, ?_, isNaN_pack _ (by unfold infMag; omega), ?_, ?_⟩
      · unfold minF; split
        · exact hn
        · decide
      · exact le_trans (by decide) (Int.natCast_nonneg _)
      · unfold minF; split
        · rw [units_absF]; exact Int.ofNat_le.2 (unitsOfMag_le_iff.2 (le_trans hle (Nat.min_le_left _ _)))
        · have e : units lit1 = (unitsOfMag (magBits lit1) : Nat) := by decide
          rw [e]; exact Int.ofNat_le.2 (unitsOfMag_le_iff.2 (le_trans hle (Nat.min_le_right _ _)))

/-- tanhF of a value that is no NaN lies in [-1.0, 1.0], for every instance (R143). -/
theorem tanhF_within (i : FnInstance) {x : F32} (h : isNaN x = false) : within litNeg1 lit1 (tanhF i x) = true := by
  obtain ⟨r, e, hr⟩ := tanhF_cases i h
  have hr' := within_iff.1 hr
  have hle : units r ≤ units lit1 := by
    refine hr'.2.2.2.2.trans ?_
    unfold minF
    split
    · rename_i hl; exact (fLt_iff.1 hl).2.2.le
    · exact le_rfl
  have e₀ : units lit0 = 0 := by decide
  have hm : (magUnits r : Int) = units r := by have := natAbs_units r; rw [e₀] at hr'; omega
  have hu : units (tanhF i x) = if signBit x then -(magUnits r : Int) else (magUnits r : Int) := by
    rw [e, units_pack _ (magBits_lt r)]; rfl
  have en : units litNeg1 = -units lit1 := by decide
  rw [within_iff, hu, en]
  refine ⟨by decide, by decide, ?_, ?_, ?_⟩
  · rw [e]; exact isNaN_pack _ (isNaN_false_iff.1 hr'.2.2.1)
  · split <;> omega
  · split <;> omega

/-- softclip of a value that is no NaN lies in [-1.0, 1.0] (R162). -/
theorem softclip_within (c : Params) {x : F32} (h : isNaN x = false) : within litNeg1 lit1 (softclip c x) = true :=
  tanhF_within c.fns h

/-! ### The bounds of powF -/

/-- The facts of a base the rules use: finite, positive. -/
theorem base_facts {b : F32} (hb : isFinite b = true) (hp : fGt b lit0 = true) :
    isNaN b = false ∧ 0 < units b ∧ units b < units (0x7F800000 : F32) ∧ 1 ≤ units b := by
  have h₀ : units lit0 = 0 := by decide
  have hu := (fGt_iff.1 hp).2.2
  rw [h₀] at hu
  have hi : units (0x7F800000 : F32) = (unitsOfMag infMag : Nat) := by decide
  have := unitsOfMag_lt_iff.2 (isFinite_iff.1 hb)
  have := units_le_magUnits b
  unfold magUnits at this
  exact ⟨isFinite_not_isNaN hb, hu, by omega, by omega⟩

/-- The numerals of the bounds. -/
theorem pow_numerals : isNaN lit0 = false ∧ isNaN lit1 = false ∧ isNaN (0x00000001 : F32) = false ∧
    isNaN (0x7F800000 : F32) = false ∧ units lit0 = 0 ∧ units (0x00000001 : F32) = 1 ∧ 1 < units lit1 ∧
    units lit1 < units (0x7F800000 : F32) := by decide

/-- The two bounds are ordered, and positive numbers (R144). -/
theorem powLo_le_powHi {b e : F32} (hb : isFinite b = true) (hp : fGt b lit0 = true) :
    isNaN (powLo b e) = false ∧ isNaN (powHi b e) = false ∧ 1 ≤ units (powLo b e) ∧
      units (powLo b e) ≤ units (powHi b e) := by
  obtain ⟨b₁, b₂, b₃, b₄⟩ := base_facts hb hp
  obtain ⟨n₁, n₂, n₃, n₄, n₅, n₆, n₇, n₈⟩ := pow_numerals
  unfold powLo powHi
  split_ifs <;> simp only [fGt_iff, fLt_iff, b₁, n₁, n₂, n₃, n₄, true_and] at * <;> omega

/-- The bounds do not fall as the exponent rises in the order of R144. -/
theorem pow_bounds_mono {b e e' : F32} (hb : isFinite b = true) (hp : fGt b lit0 = true) (he : isNaN e = false)
    (he' : isNaN e' = false) (h : units (powOrder b e) ≤ units (powOrder b e')) :
    units (powLo b e) ≤ units (powLo b e') ∧ units (powHi b e) ≤ units (powHi b e') := by
  obtain ⟨b₁, b₂, b₃, b₄⟩ := base_facts hb hp
  obtain ⟨n₁, n₂, n₃, n₄, n₅, n₆, n₇, n₈⟩ := pow_numerals
  unfold powOrder at h
  unfold powLo powHi
  by_cases hl : fLt b lit1 = true
  · have hg : fGt b lit1 = false := by
      rw [← Bool.not_eq_true, fGt_iff]; have := (fLt_iff.1 hl).2.2; omega
    have := (fLt_iff.1 hl).2.2
    simp only [hl, hg, if_true, if_false, units_fNeg, Bool.false_eq_true] at h ⊢
    split_ifs <;> simp only [fGt_iff, fLt_iff, he, he', n₁, n₂, true_and] at * <;> omega
  · simp only [hl, if_false, Bool.false_eq_true] at h ⊢
    split_ifs <;> simp only [fGt_iff, fLt_iff, b₁, he, he', n₁, n₂, true_and] at * <;> omega

@[simp] theorem powOrder_powOrder (b e : F32) : powOrder b (powOrder b e) = e := by
  unfold powOrder
  split
  · apply eq_of_bits <;> simp
  · rfl

@[simp] theorem isNaN_powOrder (b e : F32) : isNaN (powOrder b e) = isNaN e := by
  unfold powOrder; split <;> simp

/-- The place of an exponent counts the exponents below it. -/
theorem placeOf_mono {x y : F32} (hx : isNaN x = false) (hy : isNaN y = false) (h : units x ≤ units y) :
    placeOf x ≤ placeOf y := by
  rw [isNaN_false_iff] at hx hy
  have hz : unitsOfMag 0 = 0 := by decide
  unfold units magUnits at h
  unfold placeOf
  have key : ∀ a b : Nat, unitsOfMag a ≤ unitsOfMag b → a ≤ b := fun a b => unitsOfMag_le_iff.1
  cases hs : signBit x <;> cases ht : signBit y <;> simp only [hs, ht, if_true, if_false, Bool.false_eq_true] at h ⊢
  · have := key (magBits x) (magBits y) (by omega); omega
  · have := key (magBits x) 0 (by omega); have := key (magBits y) 0 (by omega); omega
  · omega
  · have := key (magBits y) (magBits x) (by omega); omega

/-- An exponent at a place up to that of x is no NaN and at most x. -/
theorem atPlace_le {x : F32} {n : Nat} (hx : isNaN x = false) (h : n ≤ placeOf x) :
    isNaN (atPlace n) = false ∧ units (atPlace n) ≤ units x := by
  rw [isNaN_false_iff] at hx
  have hz : unitsOfMag 0 = 0 := by decide
  have hi := infMag_lt
  have ux : units x = if signBit x then -(unitsOfMag (magBits x) : Int) else unitsOfMag (magBits x) := rfl
  unfold placeOf at h
  unfold atPlace
  cases hs : signBit x <;> simp only [hs, if_true, if_false, Bool.false_eq_true] at h ux
  · split
    · refine ⟨isNaN_pack _ (by omega), ?_⟩
      rw [units_pack _ (by omega), ux]
      have := Int.natCast_nonneg (unitsOfMag (magBits x))
      have := Int.natCast_nonneg (unitsOfMag (infMag - n))
      simp only [if_true]; omega
    · refine ⟨isNaN_pack _ (by omega), ?_⟩
      rw [units_pack _ (by omega), ux]
      have := unitsOfMag_le_iff.2 (show n - infMag ≤ magBits x by omega)
      simp only [if_false, Bool.false_eq_true]; omega
  · split
    · refine ⟨isNaN_pack _ (by omega), ?_⟩
      rw [units_pack _ (by omega), ux]
      have := unitsOfMag_le_iff.2 (show magBits x ≤ infMag - n by omega)
      simp only [if_true]; omega
    · have e : n - infMag = 0 := by omega
      have e' : magBits x = 0 := by omega
      rw [e, ux, e', hz]
      decide

/-- The exponent at the place of x has the value of x. -/
theorem atPlace_placeOf {x : F32} (hx : isNaN x = false) : units (atPlace (placeOf x)) = units x := by
  rw [isNaN_false_iff] at hx
  have hi := infMag_lt
  have ux : units x = if signBit x then -(unitsOfMag (magBits x) : Int) else unitsOfMag (magBits x) := rfl
  unfold placeOf atPlace
  cases hs : signBit x <;> simp only [hs, if_true, if_false, Bool.false_eq_true] at ux ⊢
  · rw [if_neg (by omega), units_pack _ (by omega), ux]
    simp
  · split
    · rw [units_pack _ (by omega), ux]
      have : infMag - (infMag - magBits x) = magBits x := by omega
      simp [this]
    · have e' : magBits x = 0 := by omega
      rw [ux, e']; decide

/-- The value of a positive number is that of its magnitude. -/
theorem units_of_one_le {x : F32} (h : 1 ≤ units x) : units x = (unitsOfMag (magBits x) : Int) := by
  have := natAbs_units x
  unfold magUnits at this
  omega

/-- The magnitude another instance gives lies between those of the bounds of R144. -/
theorem otherPowMag_bounds (k : Nat) {b : F32} (e : F32) (hb : isFinite b = true) (hp : fGt b lit0 = true) :
    magBits (powLo b e) ≤ otherPowMag k b e ∧ otherPowMag k b e ≤ magBits (powHi b e) ∧
      magBits (powHi b e) ≤ infMag := by
  obtain ⟨l₁, l₂, l₃, l₄⟩ := powLo_le_powHi (e := e) hb hp
  have h := within_iff.1 (clampF_within (x := Config.otherPow k b e) (fLe_iff.2 ⟨l₁, l₂, l₄⟩))
  unfold otherPowMag
  rw [units_of_one_le (l₃.trans h.2.2.2.1), units_of_one_le l₃, units_of_one_le (l₃.trans l₄)] at h
  exact ⟨unitsOfMag_le_iff.1 (by omega), unitsOfMag_le_iff.1 (by omega), isNaN_false_iff.1 l₂⟩

/-- The running maximum of another instance's powers stays between the magnitudes of the bounds of R144. -/
theorem runMax_otherPowMag (k : Nat) {b e : F32} (hb : isFinite b = true) (hp : fGt b lit0 = true)
    (he : isNaN e = false) :
    magBits (powLo b e) ≤ runMax (fun n => otherPowMag k b (powOrder b (atPlace n))) (placeOf (powOrder b e)) ∧
      runMax (fun n => otherPowMag k b (powOrder b (atPlace n))) (placeOf (powOrder b e)) ≤ magBits (powHi b e) := by
  have hi : ∀ x, magBits (powHi b x) ≤ infMag := fun x => (otherPowMag_bounds k x hb hp).2.2
  obtain ⟨l₁, l₂, l₃, l₄⟩ := powLo_le_powHi (e := e) hb hp
  constructor
  · refine le_trans ?_ (le_runMax _ _)
    obtain ⟨a₁, a₂⟩ := atPlace_le (x := powOrder b e) (by simpa using he) le_rfl
    have a₃ := atPlace_placeOf (by simpa using he : isNaN (powOrder b e) = false)
    refine le_trans ?_ (otherPowMag_bounds k _ hb hp).1
    have := (pow_bounds_mono (e := e) (e' := powOrder b (atPlace (placeOf (powOrder b e)))) hb hp he
      (by simpa using a₁) (by simp [a₃])).1
    have l' := (powLo_le_powHi (e := powOrder b (atPlace (placeOf (powOrder b e)))) hb hp).2.2.1
    rw [units_of_one_le l₃, units_of_one_le l'] at this
    exact unitsOfMag_le_iff.1 (by omega)
  · refine runMax_le _ fun m hm => ?_
    obtain ⟨a₁, a₂⟩ := atPlace_le (x := powOrder b e) (by simpa using he) hm
    refine le_trans (otherPowMag_bounds k _ hb hp).2.1 ?_
    have := (pow_bounds_mono (e := powOrder b (atPlace m)) (e' := e) hb hp (by simpa using a₁) he (by simpa using a₂)).2
    have l' := powLo_le_powHi (e := powOrder b (atPlace m)) hb hp
    rw [units_of_one_le (l₃.trans l₄), units_of_one_le (l'.2.2.1.trans l'.2.2.2)] at this
    exact unitsOfMag_le_iff.1 (by omega)

/-- The value powF gives an exponent other than 0 and 1: no NaN, and between the bounds of R144, for every instance. -/
theorem powF_bounds (i : FnInstance) {b e : F32} (hb : isFinite b = true) (hp : fGt b lit0 = true)
    (he : isFinite e = true) (h₀ : magBits e ≠ 0) (h₁ : e ≠ lit1) :
    within (powLo b e) (powHi b e) (powF i b e) = true := by
  obtain ⟨l₁, l₂, l₃, l₄⟩ := powLo_le_powHi (e := e) hb hp
  have hc : ∀ x, within (powLo b e) (powHi b e) (clampF x (powLo b e) (powHi b e)) = true := fun x =>
    clampF_within (fLe_iff.2 ⟨l₁, l₂, l₄⟩)
  have hm : ∀ m, magBits (powLo b e) ≤ m → m ≤ magBits (powHi b e) →
      within (powLo b e) (powHi b e) (pack false m) = true := by
    intro m h₂ h₃
    have := isNaN_false_iff.1 l₂
    have := infMag_lt
    rw [within_iff, units_pack _ (by omega), units_of_one_le l₃, units_of_one_le (l₃.trans l₄)]
    have u₂ := unitsOfMag_le_iff.2 h₂
    have u₃ := unitsOfMag_le_iff.2 h₃
    exact ⟨l₁, l₂, isNaN_pack _ (by omega), by simpa using u₂, by simpa using u₃⟩
  unfold powF
  simp only [hb, he, hp, Bool.not_true, Bool.or_self, Bool.false_eq_true, if_false, beq_iff_eq, h₀, h₁]
  cases i with
  | reference => exact hc _
  | other k =>
    dsimp only
    split
    · obtain ⟨h₂, h₃, -⟩ := otherPowMag_bounds k e hb hp
      exact hm _ h₂ h₃
    · obtain ⟨h₂, h₃⟩ := runMax_otherPowMag k hb hp (isFinite_not_isNaN he)
      exact hm _ h₂ h₃

/-- powF with an exponent in [0.0, 1.0] lies between 1.0 and a base other than 1.0, for every instance (R144). -/
theorem powF_within (i : FnInstance) {b e : F32} (hb : isFinite b = true) (hp : fGt b lit0 = true)
    (h₁ : units b ≠ units lit1) (he : within lit0 lit1 e = true) :
    within (minF lit1 b) (maxF lit1 b) (powF i b e) = true := by
  have fe := isFinite_of_within he (by decide) (by decide)
  obtain ⟨b₁, b₂, b₃, b₄⟩ := base_facts hb hp
  obtain ⟨n₁, n₂, n₃, n₄, n₅, n₆, n₇, n₈⟩ := pow_numerals
  have he' := within_iff.1 he
  have g : fGt e lit1 = false := by rw [← Bool.not_eq_true, fGt_iff]; omega
  have l : fLt e lit0 = false := by rw [← Bool.not_eq_true, fLt_iff]; omega
  have ends : within (minF lit1 b) (maxF lit1 b) lit1 = true ∧ within (minF lit1 b) (maxF lit1 b) b = true := by
    unfold minF maxF
    simp only [within_iff]
    split_ifs <;> simp only [fGt_iff, fLt_iff, b₁, n₂, true_and] at * <;> omega
  by_cases z : magBits e = 0
  · have : powF i b e = lit1 := by simp [powF, hb, fe, hp, z]
    rw [this]; exact ends.1
  by_cases o : e = lit1
  · have : powF i b e = b := by subst o; simp [powF, hb, fe, hp, z]
    rw [this]; exact ends.2
  have h := powF_bounds i hb hp fe z o
  have e₁ : powLo b e = minF lit1 b ∧ powHi b e = maxF lit1 b := by
    unfold powLo powHi minF maxF
    simp only [g, l, if_false, Bool.false_eq_true]
    split_ifs <;> simp only [fGt_iff, fLt_iff, b₁, n₂, true_and] at * <;> omega
  rwa [e₁.1, e₁.2] at h

end Sys2Proof.Laws
end

