-- ==== Sys2Proof/Laws/Wrap.lean ====
section
/-!
SUPPORT. Exact results: representable values are not rounded, and the phase wrap is exact (40_numerics.md R145, R148).
-/

namespace Sys2Proof.Laws

open Sys2Proof.Machine

/-- A significand below 2^24 with an exponent in range is an f32 magnitude. -/
theorem representable {n k : Nat} (hn : n < 2 ^ 24) (hk : k ≤ 253) : ∃ m, m < infMag ∧ unitsOfMag m = n * 2 ^ k := by
  induction k generalizing n with
  | zero => exact ⟨n, by unfold infMag; omega, by rw [unitsOfMag_small n hn, pow_zero, mul_one]⟩
  | succ k ih =>
    rcases Nat.lt_or_ge n (2 ^ 23) with h | h
    · obtain ⟨m, hm, e⟩ := ih (n := 2 * n) (by omega) (by omega)
      exact ⟨m, hm, by rw [e, pow_succ]; ring⟩
    · refine ⟨(k + 1) * 2 ^ 23 + n, ?_, unitsOfMag_eq _ _ h hn⟩
      unfold infMag; omega

/-- A finite magnitude splits into a whole part and a fraction, both of them f32 magnitudes. -/
theorem representable_split {a : Nat} (ha : a < infMag) :
    (∃ m, m < infMag ∧ unitsOfMag m = unitsOfMag a / 2 ^ 149 * 2 ^ 149) ∧
      ∃ m, m < infMag ∧ unitsOfMag m = unitsOfMag a % 2 ^ 149 := by
  rcases unitsOfMag_cases a with ⟨h, e⟩ | ⟨k, n, hk, h₁, h₂, rfl, e⟩
  · have hlt : a < 2 ^ 149 := lt_trans h (by norm_num)
    rw [e, Nat.div_eq_of_lt hlt, Nat.mod_eq_of_lt hlt]
    exact ⟨⟨0, by decide, by decide⟩, ⟨a, ha, e⟩⟩
  · have hk' : k ≤ 253 := by unfold infMag at ha; omega
    rw [e]
    rcases Nat.lt_or_ge k 149 with h | h
    · have hs : 2 ^ 149 = 2 ^ (149 - k) * 2 ^ k := by rw [← pow_add]; congr 1; omega
      rw [hs, Nat.mul_div_mul_right _ _ (by positivity), Nat.mul_mod_mul_right]
      refine ⟨?_, representable (lt_of_le_of_lt (Nat.mod_le _ _) h₂) hk'⟩
      obtain ⟨m, hm, em⟩ := representable (n := n / 2 ^ (149 - k) * 2 ^ (149 - k))
        (lt_of_le_of_lt (Nat.div_mul_le_self _ _) h₂) hk'
      exact ⟨m, hm, by rw [em]; ring⟩
    · have hs : n * 2 ^ k = n * 2 ^ (k - 149) * 2 ^ 149 := by
        rw [mul_assoc, ← pow_add]; congr 2; omega
      rw [hs, Nat.mul_div_cancel _ (by positivity), Nat.mul_mod_left, ← hs]
      exact ⟨⟨_, ha, e⟩, ⟨0, by decide, by decide⟩⟩

/-- Rounding a representable magnitude keeps it. -/
theorem roundTo_unitsOfMag (s : Bool) {m : Nat} (hm : m ≤ infMag) : roundTo s (unitsOfMag m) 1 = pack s m := by
  have := roundMag_unitsOfMag hm 1 (by decide)
  rw [mul_one] at this
  rw [roundTo, this]

/-- `f32i` is exact on every int whose value is an f32 (R145). -/
theorem units_f32i {n : Int} {m : Nat} (hm : m < infMag) (h : unitsOfMag m = n.natAbs * 2 ^ 149) :
    isFinite (f32i n) = true ∧ units (f32i n) = n * 2 ^ 149 := by
  have hm' : m < 2 ^ 31 := lt_trans hm infMag_lt
  unfold f32i
  rw [← h, roundTo_unitsOfMag _ hm.le]
  refine ⟨by rw [isFinite_iff, magBits_pack _ hm']; exact hm, ?_⟩
  rw [units_pack _ hm', h]
  by_cases hn : n < 0
  · rw [decide_eq_true hn, if_pos rfl]; push_cast; rw [abs_of_neg hn]; ring
  · rw [decide_eq_false hn]; simp; exact not_lt.1 hn

/-- `f32i` is exact for 0 <= n < 2^24 (R145). -/
theorem units_f32i_small {n : Nat} (h : n < 2 ^ 24) :
    isFinite (f32i n) = true ∧ units (f32i n) = n * 2 ^ 149 := by
  obtain ⟨m, hm, e⟩ := representable h (k := 149) (by decide)
  exact units_f32i hm (by simpa using e)

/-- The phase wrap of a finite value that is not negative is exact: it is the fraction of the value (R148). -/
theorem units_wrap01 {p : F32} (hf : isFinite p = true) (h0 : 0 ≤ units p) :
    isFinite (wrap01 p) = true ∧ units (wrap01 p) = units p % 2 ^ 149 := by
  have hm : (magUnits p : Int) = units p := by have := natAbs_units p; omega
  obtain ⟨⟨a, ha, ea⟩, ⟨b, hb, eb⟩⟩ := representable_split (isFinite_iff.1 hf)
  change unitsOfMag a = magUnits p / 2 ^ 149 * 2 ^ 149 at ea
  change unitsOfMag b = magUnits p % 2 ^ 149 at eb
  have hfl : floorI p = ((magUnits p / 2 ^ 149 : Nat) : Int) := by
    rw [floorI, if_pos hf, ← hm]; push_cast; rfl
  obtain ⟨ff, fu⟩ := units_f32i (n := floorI p) ha (by rw [hfl, Int.natAbs_natCast]; exact ea)
  have hd : units p + units (fNeg (f32i (floorI p))) = ((magUnits p % 2 ^ 149 : Nat) : Int) := by
    rw [units_fNeg, fu, hfl, ← hm]
    push_cast
    have := Int.mul_ediv_add_emod (magUnits p : Int) (2 ^ 149)
    norm_num at this ⊢
    linarith
  have hb' : b < 2 ^ 31 := lt_trans hb infMag_lt
  have hr : units p % 2 ^ 149 = ((magUnits p % 2 ^ 149 : Nat) : Int) := by rw [← hm]; push_cast; rfl
  unfold wrap01 fSub
  rw [fAdd_finite hf (by simpa using ff), hd, hr]
  split
  · rename_i hz
    refine ⟨by rw [isFinite_iff, magBits_pack _ (by decide)]; decide, ?_⟩
    rw [units_pack _ (by decide), hz]
    split <;> decide
  · rw [decide_eq_false (by omega), Int.natAbs_natCast, ← eb, roundTo_unitsOfMag _ hb.le]
    refine ⟨by rw [isFinite_iff, magBits_pack _ hb']; exact hb, ?_⟩
    rw [units_pack _ hb']
    simp

/-- A wrapped phase lies in [0.0, 1.0) (10_state.md R74, 40_numerics.md R148). -/
theorem wrap01_withinBelow {p : F32} (hf : isFinite p = true) (h0 : 0 ≤ units p) :
    withinBelow lit0 lit1 (wrap01 p) = true := by
  obtain ⟨hfin, hu⟩ := units_wrap01 hf h0
  rw [withinBelow_iff, hu]
  have e₀ : units lit0 = 0 := by decide
  have e₁ : units lit1 = 2 ^ 149 := by decide
  rw [e₀, e₁]
  exact ⟨by decide, by decide, isFinite_not_isNaN hfin, Int.emod_nonneg _ (by positivity),
    Int.emod_lt_of_pos _ (by positivity)⟩

end Sys2Proof.Laws
end

