-- ==== Sys2Proof/Laws/Bound.lean ====
section
/-!
SUPPORT. Whole-number bounds on magnitudes: with them, that a computed value is finite (and so no NaN) follows operation
by operation (40_numerics.md R141, 45_engine.md R327).
-/

namespace Sys2Proof.Laws

open Sys2Proof.Machine

/-- x is finite and |x| <= b. -/
def MagLe (b : Nat) (x : F32) : Prop := isFinite x = true ∧ magUnits x ≤ b * 2 ^ 149

theorem magLe_iff {b : Nat} {x : F32} :
    MagLe b x ↔ isFinite x = true ∧ -((b : Int) * 2 ^ 149) ≤ units x ∧ units x ≤ (b : Int) * 2 ^ 149 := by
  have e : ((b * 2 ^ 149 : Nat) : Int) = (b : Int) * 2 ^ 149 := by push_cast; rfl
  have := natAbs_units x
  unfold MagLe
  rw [← e]
  refine and_congr_right fun _ => ?_
  omega

theorem magLe_isNaN {b : Nat} {x : F32} (h : MagLe b x) : isNaN x = false := isFinite_not_isNaN h.1

theorem magLe_mono {a b : Nat} {x : F32} (h : MagLe a x) (hab : a ≤ b) : MagLe b x :=
  ⟨h.1, h.2.trans (Nat.mul_le_mul_right _ hab)⟩

/-- The bound b is itself an f32. -/
theorem bound_units {b : Nat} (hb : b < 2 ^ 24) :
    isFinite (f32i b) = true ∧ isNaN (f32i b) = false ∧ units (f32i b) = (b : Int) * 2 ^ 149 :=
  ⟨(units_f32i_small hb).1, isFinite_not_isNaN (units_f32i_small hb).1, (units_f32i_small hb).2⟩

theorem magLe_iff_within {b : Nat} (hb : b < 2 ^ 24) {x : F32} :
    MagLe b x ↔ within (fNeg (f32i b)) (f32i b) x = true := by
  obtain ⟨hf, hn, hu⟩ := bound_units hb
  rw [magLe_iff, within_iff, isNaN_fNeg, units_fNeg, hu]
  constructor
  · rintro ⟨h1, h2, h3⟩
    exact ⟨hn, hn, isFinite_not_isNaN h1, h2, h3⟩
  · rintro ⟨_, _, h1, h2, h3⟩
    refine ⟨isFinite_of_within (lo := fNeg (f32i b)) (hi := f32i b) ?_ (by rw [isFinite_fNeg]; exact hf) hf, h2, h3⟩
    rw [within_iff, isNaN_fNeg, units_fNeg, hu]
    exact ⟨hn, hn, h1, h2, h3⟩

theorem magLe_fNeg {b : Nat} {x : F32} : MagLe b (fNeg x) ↔ MagLe b x := by
  simp [MagLe, magUnits]

theorem magLe_fAdd {a b : Nat} {x y : F32} (hx : MagLe a x) (hy : MagLe b y) (h : a + b < 2 ^ 24) :
    MagLe (a + b) (fAdd x y) := by
  obtain ⟨-, hn, hu⟩ := bound_units h
  rw [magLe_iff_within h]
  rw [magLe_iff] at hx hy
  have e : ((a + b : Nat) : Int) * 2 ^ 149 = (a : Int) * 2 ^ 149 + (b : Int) * 2 ^ 149 := by push_cast; ring
  refine within_fAdd hx.1 hy.1 (by rw [isNaN_fNeg]; exact hn) hn ?_ ?_ <;> simp only [units_fNeg, hu, e] <;> omega

theorem magLe_fSub {a b : Nat} {x y : F32} (hx : MagLe a x) (hy : MagLe b y) (h : a + b < 2 ^ 24) :
    MagLe (a + b) (fSub x y) := magLe_fAdd hx (magLe_fNeg.2 hy) h

theorem magLe_fMul {a b : Nat} {x y : F32} (hx : MagLe a x) (hy : MagLe b y) (h : a * b < 2 ^ 24)
    (ha : a < 2 ^ 24) (hb : b < 2 ^ 24) : MagLe (a * b) (fMul x y) := by
  obtain ⟨-, hn, hu⟩ := bound_units h
  rw [magLe_iff_within h]
  refine within_fMul_sym ((magLe_iff_within ha).1 hx) ((magLe_iff_within hb).1 hy) (bound_units ha).1 (bound_units hb).1
    hn (le_of_eq ?_)
  rw [hu, (bound_units ha).2.2, (bound_units hb).2.2]
  push_cast; ring

theorem magLe_of_within {b : Nat} {lo hi x : F32} (h : within lo hi x = true) (hl : MagLe b lo) (hh : MagLe b hi) :
    MagLe b x := by
  rw [magLe_iff] at *
  refine ⟨isFinite_of_within h hl.1 hh.1, ?_⟩
  rw [within_iff] at h
  omega

/-- [-1, 1] is MagLe 1. -/
theorem magLe_one {x : F32} : MagLe 1 x ↔ within litNeg1 lit1 x = true :=
  ⟨fun h => (magLe_iff_within (b := 1) (by decide)).1 h,
    fun h => magLe_of_within h ⟨by decide, by decide⟩ ⟨by decide, by decide⟩⟩

theorem magLe_of_unit {x : F32} (h : within lit0 lit1 x = true) : MagLe 1 x :=
  magLe_of_within h ⟨by decide, by decide⟩ ⟨by decide, by decide⟩

theorem magLe_sinF (i : FnInstance) {x : F32} (h : isFinite x = true) : MagLe 1 (sinF i x) :=
  magLe_one.2 (sinF_within i h)

theorem magLe_softclip (c : Params) {b : Nat} {x : F32} (h : MagLe b x) : MagLe 1 (softclip c x) :=
  magLe_one.2 (softclip_within c (magLe_isNaN h))

/-- The triangle fold never leaves a bound of 1 or more (40_numerics.md R160). -/
theorem magLe_triFold {b : Nat} (hb : 1 ≤ b) (hb' : b < 2 ^ 24) (k : Nat) {y : F32} (h : MagLe b y) :
    MagLe b (triFold k y) := by
  induction k generalizing y with
  | zero => exact h
  | succ k ih =>
    unfold triFold
    split
    · rename_i hc
      refine ih ?_
      obtain ⟨-, hn, hu⟩ := bound_units hb'
      have hm := magLe_iff.1 h
      have e1 : units lit1 = 2 ^ 149 := by decide
      have e2 : units litNeg1 = -2 ^ 149 := by decide
      have e3 : units lit2 = 2 * 2 ^ 149 := by decide
      have e4 : units litNeg2 = -(2 * 2 ^ 149) := by decide
      have one : (2 : Int) ^ 149 ≤ (b : Int) * 2 ^ 149 := by
        have : (1 : Int) ≤ b := by exact_mod_cast hb
        omega
      rw [magLe_iff_within hb']
      unfold foldOnce
      rw [Bool.or_eq_true, fGt_iff, fLt_iff, e1, e2] at hc
      split
      · rename_i hg
        rw [fGt_iff, e1] at hg
        refine within_fSub (by decide) hm.1 (by rw [isNaN_fNeg]; exact hn) hn ?_ ?_ <;>
          simp only [units_fNeg, hu, e3] <;> omega
      · rename_i hg
        rw [fGt_iff, e1] at hg
        have hlt : units y < -2 ^ 149 := by
          rcases hc with hc | hc
          · exact absurd hc hg
          · exact hc.2.2
        refine within_fSub (by decide) hm.1 (by rw [isNaN_fNeg]; exact hn) hn ?_ ?_ <;>
          simp only [units_fNeg, hu, e4] <;> omega
    · exact h

/-- The fold stage of a bounded value under the default parameters is finite (40_numerics.md R161). -/
theorem magLe_foldStage {c : Params} (hc : c.isDefault) {b : Nat} (hb : 1 ≤ b) (hb' : b < 2 ^ 16) {x w : F32}
    (hx : MagLe b x) (hw : within lit0 lit1 w = true) : MagLe (b * 8) (foldStage c x w) := by
  have hd : c.foldDrive = 0x40800000 := by rw [isDefault_eq hc]; rfl
  have w1 := magLe_of_unit hw
  have one : MagLe 1 lit1 := ⟨by decide, by decide⟩
  unfold foldStage
  split
  · unfold foldMix
    rw [hd]
    have h4 : MagLe 4 (0x40800000 : F32) := ⟨by decide, by decide⟩
    have h5 := magLe_fAdd one (magLe_fMul h4 w1 (by decide) (by decide) (by decide)) (by decide)
    have h6 := magLe_triFold (by omega) (by omega) c.foldMaxIter
      (magLe_fMul hx h5 (by omega) (by omega) (by decide))
    have h7 := magLe_fMul w1 h6 (by omega) (by decide) (by omega)
    have h8 := magLe_fMul (magLe_fSub one w1 (by decide)) hx (by omega) (by decide) (by omega)
    exact magLe_mono (magLe_fAdd h8 h7 (by omega)) (by omega)
  · exact magLe_mono hx (by omega)

end Sys2Proof.Laws
end

