-- ==== Sys2Proof/Laws/Monotone.lean ====
section
/-!
SUPPORT. The basic operations are monotone, because rounding is (40_numerics.md R141).
-/

namespace Sys2Proof.Laws

open Sys2Proof.Machine

theorem roundMag_zero {q : Nat} (hq : 0 < q) : roundMag 0 q = 0 := by
  have := roundMag_le (p := 0) (m := 0) hq (by decide) (Nat.zero_le _)
  omega

/-- Rounding of signed quotients is monotone. -/
theorem units_roundTo_mono {s s' : Bool} {p q p' q' : Nat} (hq : 0 < q) (hq' : 0 < q')
    (h : signed s p * q' ≤ signed s' p' * q) : units (roundTo s p q) ≤ units (roundTo s' p' q') := by
  have nn : ∀ a b : Nat, (0 : Int) ≤ (a : Int) * b := fun a b => by positivity
  rw [units_roundTo, units_roundTo]
  cases s <;> cases s' <;> simp only [signed, Bool.false_eq_true, if_false, if_true] at h ⊢
  · have : p * q' ≤ p' * q := by exact_mod_cast h
    exact_mod_cast unitsOfMag_le_iff.2 (roundMag_mono hq hq' this)
  · have h₁ : (p : Int) * q' + p' * q ≤ 0 := by linarith
    have h₂ : p * q' + p' * q = 0 := by exact_mod_cast le_antisymm h₁ (add_nonneg (nn p q') (nn p' q))
    have hp : p = 0 := (Nat.mul_eq_zero.1 (Nat.eq_zero_of_add_eq_zero_right h₂)).resolve_right (by omega)
    have hp' : p' = 0 := (Nat.mul_eq_zero.1 (Nat.eq_zero_of_add_eq_zero_left h₂)).resolve_right (by omega)
    rw [hp, hp', roundMag_zero hq, roundMag_zero hq']
    decide
  · omega
  · have : p' * q ≤ p * q' := by
      have : (p' : Int) * q ≤ p * q' := by linarith
      exact_mod_cast this
    have := unitsOfMag_le_iff.2 (roundMag_mono hq' hq this)
    omega

theorem units_fAdd {x y : F32} (hx : isFinite x = true) (hy : isFinite y = true) :
    units (fAdd x y) = units (roundTo (decide (units x + units y < 0)) (units x + units y).natAbs 1) := by
  rw [fAdd_finite hx hy]
  split
  · rename_i h0
    rw [h0, units_pack _ (by decide)]
    split <;> decide
  · rfl

theorem isNaN_fAdd {x y : F32} (hx : isFinite x = true) (hy : isFinite y = true) : isNaN (fAdd x y) = false := by
  rw [fAdd_finite hx hy]
  split
  · exact isNaN_pack _ (by decide)
  · exact isNaN_roundTo _ _ _

theorem isNaN_fMul {x y : F32} (hx : isFinite x = true) (hy : isFinite y = true) : isNaN (fMul x y) = false := by
  rw [fMul_finite hx hy]; exact isNaN_roundTo _ _ _

theorem fAdd_mono {x y x' y' : F32} (hx : isFinite x = true) (hy : isFinite y = true) (hx' : isFinite x' = true)
    (hy' : isFinite y' = true) (h : units x ≤ units x') (k : units y ≤ units y') :
    units (fAdd x y) ≤ units (fAdd x' y') := by
  rw [units_fAdd hx hy, units_fAdd hx' hy']
  apply units_roundTo_mono (by decide) (by decide)
  rw [signed_natAbs, signed_natAbs]
  omega

theorem fMul_mono {x y x' y' : F32} (hx : isFinite x = true) (hy : isFinite y = true) (hx' : isFinite x' = true)
    (hy' : isFinite y' = true) (h₀ : 0 ≤ units y) (h₁ : 0 ≤ units x') (h : units x ≤ units x') (k : units y ≤ units y') :
    units (fMul x y) ≤ units (fMul x' y') := by
  rw [fMul_finite hx hy, fMul_finite hx' hy']
  apply units_roundTo_mono (by positivity) (by positivity)
  rw [signed_mul, signed_mul]
  have : units x * units y ≤ units x' * units y' := by nlinarith
  exact Int.mul_le_mul_of_nonneg_right this (by positivity)

theorem fDiv_mono {x y x' y' : F32} (hx : isFinite x = true) (hy : isFinite y = true) (hx' : isFinite x' = true)
    (hy' : isFinite y' = true) (h₀ : 0 ≤ units x) (h₁ : 0 < units y') (h : units x ≤ units x') (k : units y' ≤ units y) :
    isNaN (fDiv x y) = false ∧ units (fDiv x y) ≤ units (fDiv x' y') := by
  have pos : ∀ {a b : F32}, isFinite a = true → isFinite b = true → 0 ≤ units a → 0 < units b →
      0 < magUnits b ∧ fDiv a b = roundTo (signBit a != signBit b) (magUnits a * 2 ^ 149) (magUnits b) ∧
        signed (signBit a != signBit b) (magUnits a * 2 ^ 149) = units a * 2 ^ 149 ∧ (magUnits b : Int) = units b := by
    intro a b ha hb h₀ hp
    have hm : magUnits b ≠ 0 := by have := natAbs_units b; omega
    have hb' : magBits b ≠ 0 := by intro h; apply hm; unfold magUnits; rw [h]; decide
    have sb : signBit b = false := by
      cases h : signBit b
      · rfl
      · rw [units_of_neg h] at hp; omega
    refine ⟨by omega, fDiv_finite ha hb hb', ?_, (units_of_pos sb).symm⟩
    rw [sb]
    cases h : signBit a
    · rw [units_of_pos h]; simp [signed]
    · have : magUnits a = 0 := by rw [units_of_neg h] at h₀; omega
      simp [signed, units, h, this]
  obtain ⟨p₁, e₁, s₁, u₁⟩ := pos hx hy h₀ (by omega)
  obtain ⟨p₂, e₂, s₂, u₂⟩ := pos hx' hy' (by omega) h₁
  rw [e₁, e₂]
  refine ⟨isNaN_roundTo _ _ _, units_roundTo_mono p₁ p₂ ?_⟩
  rw [s₁, s₂, u₁, u₂]
  nlinarith

end Sys2Proof.Laws
end

