-- ==== Sys2Proof/Laws/Decode.lean ====
section
/-!
SUPPORT. The fields of a built frame (30_encoding.md R130, R138) and the operand types of the opcode map (R131, R132), and the
bytes of frames and responses (20_memory.md R105).
-/

namespace Sys2Proof.Laws

open Sys2Proof.Machine

@[simp] theorem opcodeOf_frameOf (op : BitVec 8) (x : Word) : opcodeOf (frameOf op x) = op := by
  unfold opcodeOf frameOf
  ext i hi
  have : (op ++ x).getLsbD (32 + i) = op.getLsbD i := (BitVec.getLsbD_append (x := op) (y := x)).trans (by simp)
  simpa [BitVec.getLsbD_eq_getElem hi] using this

@[simp] theorem operandField_frameOf (op : BitVec 8) (x : Word) : operandField (frameOf op x) = x := by
  unfold operandField frameOf
  ext i hi
  have : (op ++ x).getLsbD i = x.getLsbD i := (BitVec.getLsbD_append (x := op) (y := x)).trans (by simp [hi])
  simpa [BitVec.getLsbD_eq_getElem hi] using this

@[simp] theorem operandBool_boolField (b : Bool) : operandBool (boolField b) = b := by cases b <;> decide

/-- A frame is its two fields. -/
theorem frameOf_fields (f : Frame) : frameOf (opcodeOf f) (operandField f) = f := by
  unfold opcodeOf frameOf operandField
  ext i hi
  simp only [BitVec.getElem_append, BitVec.getElem_extractLsb']
  have back : 32 ≤ i → 32 + (i - 32) = i := by omega
  by_cases h : i < 32
  · rw [dif_pos h, Nat.zero_add, BitVec.getLsbD_eq_getElem hi]
  · rw [dif_neg h, back (by omega), BitVec.getLsbD_eq_getElem hi]

/-- decode reads a frame's fields and nothing else (30_encoding.md R137). -/
theorem decode_frameOf (op : BitVec 8) (x : Word) :
    decode (frameOf op x) =
      match instrOf op x with
      | some i => .ok i
      | none => .error (.unassignedOpcode op) := by
  simp only [decode, opcodeOf_frameOf, operandField_frameOf] <;> (cases instrOf op x <;> rfl)

/-- What decode answers, case by case. -/
theorem decode_ok_iff {f : Frame} {i : Instr} : decode f = .ok i ↔ instrOf (opcodeOf f) (operandField f) = some i := by
  unfold decode
  cases instrOf (opcodeOf f) (operandField f) <;> simp

theorem decode_error_iff {f : Frame} {e : DecodeError} :
    decode f = .error e ↔ instrOf (opcodeOf f) (operandField f) = none ∧ e = .unassignedOpcode (opcodeOf f) := by
  unfold decode
  cases instrOf (opcodeOf f) (operandField f) <;> simp [eq_comm]

/-- Joined bit strings as numbers. -/
theorem toNat_append_eq {m n : Nat} (x : BitVec m) (y : BitVec n) : (x ++ y).toNat = x.toNat * 2 ^ n + y.toNat := by
  rw [BitVec.toNat_append, ← Nat.shiftLeft_add_eq_or_of_lt y.isLt, Nat.shiftLeft_eq]

/-- The five bytes of a frame, the most significant first, make the frame (20_memory.md R105). -/
theorem frame_of_five_bytes (f : Frame) :
    f.extractLsb' 32 8 ++ f.extractLsb' 24 8 ++ f.extractLsb' 16 8 ++ f.extractLsb' 8 8 ++ f.extractLsb' 0 8 = f := by
  apply BitVec.eq_of_toNat_eq
  simp only [toNat_append_eq, BitVec.extractLsb'_toNat, Nat.shiftRight_eq_div_pow]
  have := f.isLt
  omega

/-- The four bytes of a response, the most significant first, make the response (20_memory.md R105). -/
theorem response_of_four_bytes (w : Word) :
    w.extractLsb' 24 8 ++ w.extractLsb' 16 8 ++ w.extractLsb' 8 8 ++ w.extractLsb' 0 8 = w := by
  apply BitVec.eq_of_toNat_eq
  simp only [toNat_append_eq, BitVec.extractLsb'_toNat, Nat.shiftRight_eq_div_pow]
  have := w.isLt
  omega

end Sys2Proof.Laws
end

