-- ==== Sys2Proof/Laws/Memory.lean ====
section
/-!
SUPPORT. The laws of the delay memories (20_memory.md R107, R110): every operation keeps the canonical form, a read after
a write gives the value written, a write leaves every other cell alone, and equal cells are equal data.
-/

namespace Sys2Proof.Laws

open Sys2Proof.Machine

@[simp] theorem wfFrom_nil (lo : Nat) : Memory.wfFrom lo [] = true := rfl

theorem wfFrom_cons {lo i : Nat} {v : F32} {l : DelayLine} :
    Memory.wfFrom lo ((i, v) :: l) = true ↔ lo ≤ i ∧ v ≠ unlistedCell ∧ Memory.wfFrom (i + 1) l = true := by
  simp [Memory.wfFrom, and_assoc]

theorem wfFrom_mono {lo lo' : Nat} {l : DelayLine} (h : Memory.wfFrom lo l = true) (hle : lo' ≤ lo) :
    Memory.wfFrom lo' l = true := by
  cases l with
  | nil => rfl
  | cons p l =>
    obtain ⟨h₁, h₂, h₃⟩ := wfFrom_cons.1 h
    exact wfFrom_cons.2 ⟨hle.trans h₁, h₂, h₃⟩

theorem wfFrom_lineWrite {l : DelayLine} {lo i : Nat} (v : F32) (h : Memory.wfFrom lo l = true) (hi : lo ≤ i) :
    Memory.wfFrom lo (lineWrite l i v) = true := by
  induction l generalizing lo with
  | nil =>
    unfold lineWrite
    split
    · rfl
    · exact wfFrom_cons.2 ⟨hi, ‹_›, rfl⟩
  | cons p l ih =>
    obtain ⟨j, w⟩ := p
    obtain ⟨h₁, h₂, h₃⟩ := wfFrom_cons.1 h
    unfold lineWrite
    split
    · split
      · exact h
      · exact wfFrom_cons.2 ⟨hi, ‹_›, wfFrom_cons.2 ⟨by omega, h₂, h₃⟩⟩
    · split
      · split
        · exact wfFrom_mono h₃ (by omega)
        · subst i; exact wfFrom_cons.2 ⟨hi, ‹_›, h₃⟩
      · exact wfFrom_cons.2 ⟨h₁, h₂, ih h₃ (by omega)⟩

/-- A write keeps the canonical form. -/
theorem wf_lineWrite {l : DelayLine} (i : Nat) (v : F32) (h : Memory.wf l = true) :
    Memory.wf (lineWrite l i v) = true := wfFrom_lineWrite v h (Nat.zero_le i)

theorem lineRead_below {l : DelayLine} {lo i : Nat} (h : Memory.wfFrom lo l = true) (hi : i < lo) :
    lineRead l i = unlistedCell := by
  induction l generalizing lo with
  | nil => rfl
  | cons p l ih =>
    obtain ⟨j, w⟩ := p
    obtain ⟨h₁, -, h₃⟩ := wfFrom_cons.1 h
    rw [lineRead, if_neg (by omega)]
    exact ih h₃ (by omega)

theorem lineRead_lineWrite_from {l : DelayLine} {lo : Nat} (i : Nat) (v : F32) (k : Nat)
    (h : Memory.wfFrom lo l = true) : lineRead (lineWrite l i v) k = if k = i then v else lineRead l k := by
  induction l generalizing lo with
  | nil =>
    unfold lineWrite
    split
    · simp_all [lineRead]
    · simp [lineRead]
  | cons p l ih =>
    obtain ⟨j, w⟩ := p
    obtain ⟨-, -, h₃⟩ := wfFrom_cons.1 h
    have b : ∀ {x}, x ≤ j → lineRead l x = unlistedCell := fun hx => lineRead_below h₃ (by omega)
    unfold lineWrite
    split
    · split
      · by_cases hk : k = i
        · rw [if_pos hk, hk, lineRead, if_neg (by omega), b (by omega), ‹v = _›]
        · rw [if_neg hk]
      · simp only [lineRead]
    · split
      · split
        · by_cases hk : k = i
          · rw [if_pos hk, hk, b (by omega), ‹v = _›]
          · rw [if_neg hk, lineRead, if_neg (by omega)]
        · simp only [lineRead]; split <;> simp_all
      · simp only [lineRead, ih h₃]; split <;> split <;> first | rfl | omega

/-- A read after a write: the value written there, the old value everywhere else (20_memory.md R110). -/
theorem lineRead_lineWrite {l : DelayLine} (h : Memory.wf l = true) (i : Nat) (v : F32) (k : Nat) :
    lineRead (lineWrite l i v) k = if k = i then v else lineRead l k := lineRead_lineWrite_from i v k h

/-- A write lists no cell but the one written and those listed before. -/
theorem mem_lineWrite {l : DelayLine} {i : Nat} {v : F32} {p : Nat × F32} (h : p ∈ lineWrite l i v) :
    p = (i, v) ∨ p ∈ l := by
  induction l with
  | nil => unfold lineWrite at h; split at h <;> simp_all
  | cons q l ih =>
    obtain ⟨j, w⟩ := q
    unfold lineWrite at h
    repeat' split at h
    all_goals simp only [List.mem_cons] at h ⊢
    all_goals tauto

theorem lineRead_listed {l : DelayLine} {lo j : Nat} {w : F32} (h : Memory.wfFrom lo ((j, w) :: l) = true) :
    lineRead ((j, w) :: l) j = w ∧ w ≠ unlistedCell := ⟨by simp [lineRead], (wfFrom_cons.1 h).2.1⟩

/-- Canonical lines with equal cells are equal data. -/
theorem wfFrom_ext {l m : DelayLine} {a b : Nat} (hl : Memory.wfFrom a l = true) (hm : Memory.wfFrom b m = true)
    (h : ∀ i, lineRead l i = lineRead m i) : l = m := by
  induction l generalizing m a b with
  | nil =>
    cases m with
    | nil => rfl
    | cons q m =>
      obtain ⟨e, ne⟩ := lineRead_listed hm
      exact absurd ((h q.1).symm ▸ e : lineRead [] q.1 = q.2) (fun e' => ne e'.symm)
  | cons p l ih =>
    obtain ⟨j, w⟩ := p
    obtain ⟨e, ne⟩ := lineRead_listed hl
    obtain ⟨-, -, hl'⟩ := wfFrom_cons.1 hl
    cases m with
    | nil => exact absurd (e.symm.trans (h j)) (fun e' => ne e')
    | cons q m =>
      obtain ⟨k, u⟩ := q
      obtain ⟨e₂, ne₂⟩ := lineRead_listed hm
      obtain ⟨-, -, hm'⟩ := wfFrom_cons.1 hm
      have hjk : j = k := by
        rcases Nat.lt_trichotomy j k with hlt | heq | hgt
        · have hj := h j
          rw [e, lineRead, if_neg (by omega), lineRead_below hm' (by omega)] at hj
          exact absurd hj ne
        · exact heq
        · have hk := h k
          rw [e₂, lineRead, if_neg (by omega), lineRead_below hl' (by omega)] at hk
          exact absurd hk.symm ne₂
      subst hjk
      have hwu : w = u := by have := h j; rwa [e, e₂] at this
      subst hwu
      congr 1
      refine ih hl' hm' fun i => ?_
      by_cases hi : i = j
      · rw [hi, lineRead_below hl' (by omega), lineRead_below hm' (by omega)]
      · have := h i
        rwa [lineRead, if_neg hi, lineRead, if_neg hi] at this

/-- DelayRead after DelayWrite (20_memory.md R110). -/
theorem delayRead_delayWrite {r : ResState} {line : Fin 6} (h : Memory.wf r.lines[line] = true) (idx : Nat) (v : F32)
    (line' : Fin 6) (idx' : Nat) :
    delayRead (delayWrite r line idx v) line' idx' = if line' = line ∧ idx' = idx then v else delayRead r line' idx' := by
  unfold delayRead delayWrite
  by_cases hl : line' = line
  · subst hl
    simpa using lineRead_lineWrite h idx v idx'
  · have : (line : Nat) ≠ (line' : Nat) := fun e => hl (Fin.ext e.symm)
    simp [hl, Vector.getElem_set_ne, this]

/-- A write keeps every line's canonical form. -/
theorem wf_delayWrite {r : ResState} (line : Fin 6) (idx : Nat) (v : F32)
    (h : ∀ m : Fin 6, Memory.wf r.lines[m] = true) (m : Fin 6) :
    Memory.wf (delayWrite r line idx v).lines[m] = true := by
  unfold delayWrite
  by_cases hl : m = line
  · subst hl; simpa using wf_lineWrite idx v (h m)
  · have : (line : Nat) ≠ (m : Nat) := fun e => hl (Fin.ext e.symm)
    simpa [Vector.getElem_set_ne, this] using h m

/-- What a write can list. -/
theorem mem_delayWrite {r : ResState} {line m : Fin 6} {idx : Nat} {v : F32} {p : Nat × F32}
    (h : p ∈ (delayWrite r line idx v).lines[m]) : (m = line ∧ p = (idx, v)) ∨ p ∈ r.lines[m] := by
  unfold delayWrite at h
  by_cases hl : m = line
  · subst hl
    rcases mem_lineWrite (by simpa using h) with e | e
    · exact .inl ⟨rfl, e⟩
    · exact .inr e
  · have : (line : Nat) ≠ (m : Nat) := fun e => hl (Fin.ext e.symm)
    exact .inr (by simpa [Vector.getElem_set_ne, this] using h)

/-- Clearing leaves +0.0 in every cell (44_resonator.md R278). -/
@[simp] theorem delayRead_clearLines (r : ResState) (line : Fin 6) (idx : Nat) :
    delayRead (clearLines r) line idx = unlistedCell := by
  simp [delayRead, clearLines, lineRead]

@[simp] theorem delayRead_resReset (r : ResState) (line : Fin 6) (idx : Nat) :
    delayRead (resReset r) line idx = unlistedCell := delayRead_clearLines r line idx

/-- A retune keeps every cell (44_resonator.md R275). -/
@[simp] theorem delayRead_retune (c : Params) (f : F32) (r : ResState) (line : Fin 6) (idx : Nat) :
    delayRead (retune c f r) line idx = delayRead r line idx := rfl

theorem lines_resSetFrequency (c : Params) (f : F32) (r : ResState) : (resSetFrequency c f r).lines = r.lines := by
  unfold resSetFrequency; split <;> rfl

@[simp] theorem delayRead_resSetFrequency (c : Params) (f : F32) (r : ResState) (line : Fin 6) (idx : Nat) :
    delayRead (resSetFrequency c f r) line idx = delayRead r line idx := by
  unfold delayRead; rw [lines_resSetFrequency]

end Sys2Proof.Laws
end

