-- ==== Sys2Proof/Laws/Ops.lean ====
section
/-!
SUPPORT. One lemma per shared operation that says what it can do: the response, the integer clamp, the index and length
laws of the resonator, and what each oscillator's process step leaves alone.
-/

namespace Sys2Proof.Laws

open Sys2Proof.Machine

/-- An answer is always a next state, and which one. -/
theorem answer_next_iff {w : Word} {s t : State} : answer w s = .next t ↔ t = respond w s := by
  unfold answer
  constructor
  · intro h; cases h; rfl
  · rintro rfl; rfl

/-- The integer clamp lies between its bounds (40_numerics.md R146). -/
theorem clampI_bounds {n lo hi : Int} (h : lo ≤ hi) : lo ≤ clampI n lo hi ∧ clampI n lo hi ≤ hi := by
  unfold clampI; split
  · omega
  · split <;> omega

theorem clampI_toNat {n : Int} {lo hi : Nat} (h : (lo : Int) ≤ (hi : Int) - 1) :
    lo ≤ (clampI n lo (hi - 1)).toNat ∧ (clampI n lo (hi - 1)).toNat < hi := by
  have := clampI_bounds (n := n) h
  omega

theorem baseDelayOf_bounds (c : Params) (f : F32) (h : 1 < c.combCap) :
    1 ≤ baseDelayOf c f ∧ baseDelayOf c f < c.combCap :=
  clampI_toNat (lo := 1) (by omega)

theorem combLenOf_bounds (c : Params) (bd : Nat) (ratio : F32) (h : Config.combMin < c.combCap) :
    Config.combMin ≤ combLenOf c bd ratio ∧ combLenOf c bd ratio < c.combCap :=
  clampI_toNat (by omega)

theorem apLenOf_bounds (c : Params) (bd : Nat) (ratio : F32) (h : Config.apMin < c.apCap) :
    Config.apMin ≤ apLenOf c bd ratio ∧ apLenOf c bd ratio < c.apCap :=
  clampI_toNat (by omega)

/-- The length of comb line k is one of the four products. -/
theorem combLens_eq (c : Params) (bd : Nat) (k : Fin 4) : ∃ ratio, (combLens c bd)[k] = combLenOf c bd ratio := by
  fin_cases k <;> exact ⟨_, rfl⟩

/-- The length of allpass line j is one of the two products. -/
theorem apLens_eq (c : Params) (bd : Nat) (j : Fin 2) : ∃ ratio, (apLens c bd)[j] = apLenOf c bd ratio := by
  fin_cases j <;> exact ⟨_, rfl⟩

theorem combIdx_lt {x : ResState} {k : Fin 4} (h : 0 < x.combLen[k]) : combIdx x k < x.combLen[k] := Nat.mod_lt _ h

theorem apIdx_lt {x : ResState} {j : Fin 2} (h : 0 < x.apLen[j]) : apIdx x j < x.apLen[j] := Nat.mod_lt _ h

theorem combLine_ne_apLine (k : Fin 4) (j : Fin 2) : combLine k ≠ apLine j := by
  intro h; have := congrArg Fin.val h; simp [combLine, apLine] at this; omega

theorem combLine_inj {k k' : Fin 4} : combLine k = combLine k' ↔ k = k' := by
  simp [combLine, Fin.ext_iff]

theorem apLine_inj {j j' : Fin 2} : apLine j = apLine j' ↔ j = j' := by
  simp [apLine, Fin.ext_iff]

/-- The write index of every comb line after the step of line k (44_resonator.md R280). -/
theorem combStep_combW (c : Params) (exc a g : F32) (x : ResState) (k k' : Fin 4) :
    (combStep c exc a g x k).combW[k'] = if k' = k then (combIdx x k + 1) % x.combLen[k] else x.combW[k'] := by
  unfold combStep
  by_cases h : k' = k
  · subst h; simp
  · have : (k : Nat) ≠ (k' : Nat) := fun e => h (Fin.ext e.symm)
    simp [h, Vector.getElem_set_ne, this]

/-- The filter state of every comb line after the step of line k (44_resonator.md R280). -/
theorem combStep_lp (c : Params) (exc a g : F32) (x : ResState) (k k' : Fin 4) :
    (combStep c exc a g x k).lp[k'] = if k' = k then combLp a x k else x.lp[k'] := by
  unfold combStep
  by_cases h : k' = k
  · subst h; simp
  · have : (k : Nat) ≠ (k' : Nat) := fun e => h (Fin.ext e.symm)
    simp [h, Vector.getElem_set_ne, this]

/-- The cells after the step of comb line k (44_resonator.md R280). -/
theorem combStep_cells (c : Params) (exc a g : F32) (x : ResState) (k : Fin 4)
    (h : Memory.wf x.lines[combLine k] = true) (line : Fin 6) (idx : Nat) :
    delayRead (combStep c exc a g x k) line idx =
      if line = combLine k ∧ idx = combIdx x k then combOut c exc a g x k else delayRead x line idx :=
  delayRead_delayWrite h _ _ _ _

/-- The write index of every allpass line after the step of line j (44_resonator.md R281). -/
theorem apStep_apW (v : F32) (x : ResState) (j j' : Fin 2) :
    (apStep v x j).apW[j'] = if j' = j then (apIdx x j + 1) % x.apLen[j] else x.apW[j'] := by
  unfold apStep
  by_cases h : j' = j
  · subst h; simp
  · have : (j : Nat) ≠ (j' : Nat) := fun e => h (Fin.ext e.symm)
    simp [h, Vector.getElem_set_ne, this]

/-- The cells after the step of allpass line j (44_resonator.md R281). -/
theorem apStep_cells (v : F32) (x : ResState) (j : Fin 2) (h : Memory.wf x.lines[apLine j] = true) (line : Fin 6)
    (idx : Nat) :
    delayRead (apStep v x j) line idx =
      if line = apLine j ∧ idx = apIdx x j then apStored v x j else delayRead x line idx :=
  delayRead_delayWrite h _ _ _ _

/-- What a step of one comb line keeps, for a property that one step of a comb line keeps. -/
theorem combBank_induct {P : ResState → Prop} (c : Params) (exc a g : F32)
    (hs : ∀ x k, P x → P (combStep c exc a g x k)) (x : ResState) (h : P x) (n : Nat) : P (combBank c exc a g x n).1 := by
  induction n with
  | zero => exact h
  | succ n ih =>
    unfold combBank
    split
    · exact hs _ _ ih
    · exact ih

/-- What RES.process keeps, for a property that the excitation step and each line's step keep (44_resonator.md R282). -/
theorem resProcess_induct {P : ResState → Prop} (c : Params) (r : Regs) (x : ResState) (env : F32)
    (h₀ : P (exciteStep c x))
    (hc : ∀ y k, P y → P (combStep c (excitation x) (dampCoef c r.resDamp) (combGain r.resFeedback) y k))
    (ha : ∀ v y j, P y → P (apStep v y j)) : P (resProcess c r x env).1 :=
  ha _ _ _ (ha _ _ _ (combBank_induct c _ _ _ hc _ h₀ 4))

/-- What RES.process leaves alone: frequencies and lengths; the impulse is spent, the burst decays
(44_resonator.md R279, R282). -/
theorem resProcess_frame (c : Params) (r : Regs) (x : ResState) (env : F32) (y : ResState)
    (hy : (resProcess c r x env).1 = y) :
    y.freq = x.freq ∧ y.baseFreq = x.baseFreq ∧ y.baseDelay = x.baseDelay ∧ y.combLen = x.combLen ∧ y.apLen = x.apLen ∧
      y.impulse = lit0 ∧ y.burst = fMul x.burst c.excDecay := by
  subst hy
  exact resProcess_induct (P := fun y => y.freq = x.freq ∧ y.baseFreq = x.baseFreq ∧ y.baseDelay = x.baseDelay ∧
    y.combLen = x.combLen ∧ y.apLen = x.apLen ∧ y.impulse = lit0 ∧ y.burst = fMul x.burst c.excDecay) c r x env
    ⟨rfl, rfl, rfl, rfl, rfl, rfl, rfl⟩ (fun y k h => by simpa using h) (fun v y j h => by simpa using h)

/-- The comb bank of one RES.process: the resonator after it and the running sum (44_resonator.md R282). -/
abbrev bankOf (c : Params) (r : Regs) (x : ResState) : ResState × F32 :=
  combBank c (excitation x) (dampCoef c r.resDamp) (combGain r.resFeedback) (exciteStep c x) 4

/-- The sample of one RES.process, from the comb bank (44_resonator.md R282). -/
theorem resProcess_snd (c : Params) (r : Regs) (x : ResState) (env : F32) :
    (resProcess c r x env).2 =
      softclip c (fMul (fAdd (fMul (fSub lit1 r.resMix) (fMul (bankOf c r x).2 lit0_25))
        (fMul r.resMix (apOut (apOut (fMul (bankOf c r x).2 lit0_25) (bankOf c r x).1 0)
          (apStep (fMul (bankOf c r x).2 lit0_25) (bankOf c r x).1 0) 1))) (fMul env lit10)) := by
  simp only [resProcess, resBlend, apChain]

/-- What CAS.process leaves alone (42_cascade.md R209). -/
theorem casProcess_frame (c : Params) (r : Regs) (x : CasState) (env : F32) :
    (casProcess c r x env).1.freq = x.freq ∧ (casProcess c r x env).1.henv = x.henv ∧
      (casProcess c r x env).1.mod = modNext c.modSource x.mod := ⟨rfl, rfl, rfl⟩

/-- The phases after one pass of the harmonic loop (42_cascade.md R209, R213). -/
theorem harmonicStep_phase (c : Params) (r : Regs) (x : CasState) (m : F32) (i : Fin 8) (a : HarmonicSum) (i' : Fin 8) :
    (harmonicStep c r x m i a).phase[i'] =
      if i' = i ∧ fGt (harmonicFreq c r x m i) (aaLimit c) = false then
        wrap01 (fAdd a.phase[i] (fDiv (harmonicFreq c r x m i) c.sampleRate))
      else a.phase[i'] := by
  unfold harmonicStep
  cases fGt (harmonicFreq c r x m i) (aaLimit c)
  · by_cases h : i' = i
    · subst h; simp
    · have : (i : Nat) ≠ (i' : Nat) := fun e => h (Fin.ext e.symm)
      simp [h, Vector.getElem_set_ne, this]
  · simp

/-- Harmonic i + 1 is one pass on the sum over those before it. -/
theorem harmonicSum_succ (c : Params) (r : Regs) (x : CasState) (m : F32) (i : Fin 8) :
    harmonicSum c r x m (i.val + 1) = harmonicStep c r x m i (harmonicSum c r x m i.val) := by
  rw [harmonicSum, dif_pos i.isLt]

/-- A harmonic that is still to come has its phase as it was. -/
theorem harmonicSum_phase_before (c : Params) (r : Regs) (x : CasState) (m : F32) (i : Fin 8) (n : Nat) (hi : n ≤ i.val) :
    (harmonicSum c r x m n).phase[i] = x.phase[i] := by
  induction n with
  | zero => rfl
  | succ n ih =>
    have hn : n < 8 := by omega
    rw [harmonicSum_succ c r x m ⟨n, hn⟩, harmonicStep_phase, if_neg]
    · exact ih (by omega)
    · rintro ⟨e, -⟩; rw [e] at hi; exact absurd hi (by simp)

/-- A harmonic that has passed keeps its phase. -/
theorem harmonicSum_phase_after (c : Params) (r : Regs) (x : CasState) (m : F32) (i : Fin 8) (n : Nat) (hn : i.val < n) :
    (harmonicSum c r x m n).phase[i] = (harmonicSum c r x m (i.val + 1)).phase[i] := by
  induction n with
  | zero => omega
  | succ n ih =>
    rcases Nat.lt_or_eq_of_le (Nat.le_of_lt_succ hn) with h | h
    · rw [← ih h]
      conv_lhs => unfold harmonicSum
      split
      · rw [harmonicStep_phase, if_neg]
        rintro ⟨e, -⟩; rw [e] at h; exact absurd h (by simp)
      · rfl
    · subst h; rfl

/-- What one pass adds: nothing above the anti-aliasing limit, else the sine at the advanced phase and the amplitude. -/
theorem harmonicStep_sums (c : Params) (r : Regs) (x : CasState) (m : F32) (i : Fin 8) (a : HarmonicSum) :
    (fGt (harmonicFreq c r x m i) (aaLimit c) = true → harmonicStep c r x m i a = a) ∧
      (fGt (harmonicFreq c r x m i) (aaLimit c) = false →
        (harmonicStep c r x m i a).out = fAdd a.out (fMul (sinF c.fns (fMul litTwoPi
          (wrap01 (fAdd a.phase[i] (fDiv (harmonicFreq c r x m i) c.sampleRate))))) (harmonicAmp c r x m i)) ∧
        (harmonicStep c r x m i a).total = fAdd a.total (harmonicAmp c r x m i)) := by
  unfold harmonicStep
  cases fGt (harmonicFreq c r x m i) (aaLimit c)
  · exact ⟨fun h => absurd h (by simp), fun _ => ⟨rfl, rfl⟩⟩
  · exact ⟨fun _ => rfl, fun h => absurd h (by simp)⟩

/-- What FM.process leaves alone (43_fm.md R248). -/
theorem fmProcess_freq (c : Params) (r : Regs) (x : FmState) (env : F32) : (fmProcess c r x env).1.freq = x.freq := rfl

/-- What the dispatch leaves alone: everything but the active oscillator (45_engine.md R315, 70_reset_and_hazards.md R406). -/
theorem dispatchVoice_frame (env : F32) (s t : State) (ht : (dispatchVoice env s).1 = t) :
    t.cfg = s.cfg ∧ t.reg = s.reg ∧ t.env = s.env ∧ t.eng = s.eng ∧ t.status = s.status ∧ t.port = s.port ∧
      t.host = s.host ∧ (s.eng.voice ≠ .cascade → t.cas = s.cas) ∧ (s.eng.voice ≠ .fm → t.fm = s.fm) ∧
      (s.eng.voice ≠ .resonator → t.res = s.res) := by
  subst ht
  unfold dispatchVoice
  cases s.eng.voice <;> simp

/-- What a voice switch leaves alone, and what it does to the resonator (45_engine.md R311). -/
theorem switchVoice_frame (v : Voice) (s t : State) (ht : switchVoice v s = t) :
    t.cfg = s.cfg ∧ t.reg = s.reg ∧ t.env = s.env ∧ t.cas = s.cas ∧ t.fm = s.fm ∧ t.status = s.status ∧
      t.port = s.port ∧ t.host = s.host ∧ t.eng = { s.eng with voice := v } ∧
      t.res = if v = .resonator ∧ s.eng.gate = true then resTrigger s.cfg s.reg.verbExcite s.res else s.res := by
  subst ht
  unfold switchVoice
  split <;> simp_all

/-- One step of the envelope, stage by stage (41_envelope.md R174). -/
theorem envProcess_cases (e u : EnvState) (hu : envProcess e = u) :
    u.attackRate = e.attackRate ∧ u.decayCoeff = e.decayCoeff ∧
      ((e.stage = .idle ∧ u.stage = .idle ∧ u.level = lit0) ∨
        (e.stage = .attack ∧ fGe (fAdd e.level e.attackRate) lit1 = true ∧ u.stage = .sustain ∧ u.level = lit1) ∨
        (e.stage = .attack ∧ fGe (fAdd e.level e.attackRate) lit1 = false ∧ u.stage = .attack ∧
          u.level = fAdd e.level e.attackRate) ∨
        (e.stage = .sustain ∧ u.stage = .sustain ∧ u.level = lit1) ∨
        (e.stage = .decay ∧ fLt (fMul e.level e.decayCoeff) lit0_001 = true ∧ u.stage = .idle ∧ u.level = lit0) ∨
        (e.stage = .decay ∧ fLt (fMul e.level e.decayCoeff) lit0_001 = false ∧ u.stage = .decay ∧
          u.level = fMul e.level e.decayCoeff)) := by
  subst hu
  obtain ⟨st, lv, ar, dc⟩ := e
  cases st <;> simp only [envProcess] <;> try split
  all_goals simp_all

/-- The envelope and the active oscillator of one PROCESS: the state and the raw sample (45_engine.md R315). -/
theorem synthesise_cases (s t : State) (raw : F32) (h : synthesise s = (t, raw)) :
    t.cfg = s.cfg ∧ t.reg = s.reg ∧ t.env = envProcess s.env ∧ t.eng = s.eng ∧ t.status = s.status ∧ t.port = s.port ∧
      t.host = s.host ∧
      ((s.eng.voice = .cascade ∧ t.cas = (casProcess s.cfg s.reg s.cas (envProcess s.env).level).1 ∧
          raw = (casProcess s.cfg s.reg s.cas (envProcess s.env).level).2 ∧ t.fm = s.fm ∧
          t.res = s.res) ∨
        (s.eng.voice = .fm ∧ t.fm = (fmProcess s.cfg s.reg s.fm (envProcess s.env).level).1 ∧
          raw = (fmProcess s.cfg s.reg s.fm (envProcess s.env).level).2 ∧ t.cas = s.cas ∧
          t.res = s.res) ∨
        (s.eng.voice = .resonator ∧ t.res = (resProcess s.cfg s.reg s.res (envProcess s.env).level).1 ∧
          raw = (resProcess s.cfg s.reg s.res (envProcess s.env).level).2 ∧
          t.cas = s.cas ∧ t.fm = s.fm)) := by
  unfold synthesise dispatchVoice at h
  rcases hv : s.eng.voice <;> simp only [putEnv_eng, hv] at h <;> cases h <;> simp

/-- PROCESS is the recording of the guarded sample of one synthesis (45_engine.md R315). -/
theorem execProcess_eq {s t : State} {raw : F32} (h : synthesise s = (t, raw)) :
    execProcess s = .next (respond (guardSample s.cfg raw) (recordSample (guardSample s.cfg raw) t)) := by
  simp [execProcess, answer, h]

end Sys2Proof.Laws
end

