-- ==== Sys2Proof/Laws/Step.lean ====
section
/-!
SUPPORT. Said once, what one rising edge of clk can come to (20_memory.md R101, 70_reset_and_hazards.md R390).
-/

namespace Sys2Proof.Laws

open Sys2Proof.Machine

/-- A step that answers a next state: the configuration is legal, and the edge resets, accepts, waits, or executes. -/
theorem step_cases {s t : State} (h : step s = .next t) :
    s.cfg.legal = true ∧
      (((edgeInput s.host).rst = true ∧ t = State.resetWith s.cfg (hostStep s.host)) ∨
        ((edgeInput s.host).rst = false ∧
          ((s.port.inFlight = none ∧ t = acceptStep (edgeInput s.host)
              (s.putHost (pollStep (edgeInput s.host).cmd (hostStep s.host)))) ∨
            (∃ f n, s.port.inFlight = some { frame := f, wait := n + 1 } ∧ t = waitStep f n (s.putHost (hostStep s.host))) ∨
            (∃ f i, s.port.inFlight = some { frame := f, wait := 0 } ∧ decode f = .ok i ∧
              exec i (releaseStep (s.putHost (hostStep s.host))) = .next t)))) := by
  unfold step at h
  split at h
  · rename_i hl
    refine ⟨hl, ?_⟩
    unfold clockEdge at h
    cases hr : (edgeInput s.host).rst
    · refine .inr ⟨rfl, ?_⟩
      simp only [hr, Bool.false_eq_true, if_false] at h
      rcases hp : s.port.inFlight with _ | ⟨f, _ | n⟩
      · simp only [hp] at h
        exact .inl ⟨rfl, by cases h; rfl⟩
      · simp only [hp, runFrame] at h
        cases hd : decode f with
        | error e => simp [hd] at h
        | ok i => exact .inr (.inr ⟨f, i, rfl, hd, by simpa [hd] using h⟩)
      · simp only [hp] at h
        exact .inr (.inl ⟨f, n, rfl, by cases h; rfl⟩)
    · simp only [hr, if_true] at h
      exact .inl ⟨rfl, by cases h; rfl⟩
  · cases h

/-- The mailbox never touches the clock-edge inputs. -/
@[simp] theorem mailStep_inputs (m : MailAct) (h : HostSide) : (mailStep m h).inputs = h.inputs := by
  unfold mailStep
  cases m
  · rfl
  · rfl
  · cases h.mailbox <;> rfl

/-- A read empties the slot, counts as the read before the next PROCESS, and queues what it found (20_memory.md R116). -/
@[simp] theorem mailStep_read_mailbox (h : HostSide) : (mailStep .read h).mailbox = none := by
  unfold mailStep; cases h.mailbox <;> rfl

@[simp] theorem mailStep_read_polled (h : HostSide) : (mailStep .read h).polled = true := by
  unfold mailStep; cases h.mailbox <;> rfl

theorem mailStep_read_issue (h : HostSide) : (mailStep .read h).issue =
    h.issue ++ (match h.mailbox with | some r => (recordCommands r).map encode | none => []) := by
  unfold mailStep; cases h.mailbox <;> simp

/-- What the read before a PROCESS can come to: nothing, or a read, at an offered PROCESS with the slot unread. -/
theorem pollStep_cases (cmd : Option Frame) (h : HostSide) :
    pollStep cmd h = h ∨
      (h.polled = false ∧ (∃ f, cmd = some f ∧ isProcess f = true) ∧ pollStep cmd h = mailStep .read h) := by
  unfold pollStep
  cases cmd with
  | none => exact .inl rfl
  | some f => cases hp : h.polled <;> cases hf : isProcess f <;> simp [hf]

@[simp] theorem pollStep_inputs (cmd : Option Frame) (h : HostSide) : (pollStep cmd h).inputs = h.inputs := by
  rcases pollStep_cases cmd h with e | ⟨-, -, e⟩ <;> rw [e]
  exact mailStep_inputs _ _

/-- An offered PROCESS finds the slot read. -/
theorem pollStep_polled {f : Frame} (hf : isProcess f = true) (h : HostSide) : (pollStep (some f) h).polled = true := by
  unfold pollStep; cases hp : h.polled <;> simp [hf, hp]

/-- A frame that is no PROCESS, and an edge without one, leave the slot alone. -/
theorem pollStep_eq_self {cmd : Option Frame} (hc : ∀ f, cmd = some f → isProcess f = false) (h : HostSide) :
    pollStep cmd h = h := by
  rcases pollStep_cases cmd h with e | ⟨-, ⟨f, hf, hp⟩, -⟩
  · exact e
  · rw [hc f hf] at hp; cases hp

/-- The frame that goes first: an offered one that is no PROCESS, else the head of the queue, else an offered PROCESS
(20_memory.md R112, R116; log entry 12). -/
theorem drivenFrame_cases (cmd : Option Frame) (issue : List Frame) :
    (∃ f, cmd = some f ∧ (isProcess f = false ∨ issue = []) ∧ drivenFrame cmd issue = some (f, false)) ∨
      (∃ g rest, issue = g :: rest ∧ (∀ f, cmd = some f → isProcess f = true) ∧
        drivenFrame cmd issue = some (g, true)) ∨
      (cmd = none ∧ issue = [] ∧ drivenFrame cmd issue = none) := by
  cases cmd with
  | none => cases issue <;> simp [drivenFrame]
  | some f => cases issue <;> cases hf : isProcess f <;> simp [drivenFrame, hf]

@[simp] theorem takeFrame_inputs (f : Frame) (b : Bool) (h : HostSide) : (takeFrame f b h).inputs = h.inputs := rfl
@[simp] theorem takeFrame_mailbox (f : Frame) (b : Bool) (h : HostSide) : (takeFrame f b h).mailbox = h.mailbox := rfl
@[simp] theorem takeFrame_issue (f : Frame) (b : Bool) (h : HostSide) :
    (takeFrame f b h).issue = if b then h.issue.tail else h.issue := rfl
@[simp] theorem takeFrame_polled (f : Frame) (b : Bool) (h : HostSide) :
    (takeFrame f b h).polled = if isProcess f then false else h.polled := rfl

/-- A frame decodes to PROCESS exactly when its opcode is that of PROCESS (30_encoding.md R132, R135). -/
theorem decode_process_iff {f : Frame} : decode f = .ok .process ↔ isProcess f = true := by
  rw [decode_ok_iff, isProcess, beq_iff_eq]
  constructor
  · intro h
    unfold instrOf at h
    split at h <;> simp_all
    rename_i h; exact BitVec.eq_of_toNat_eq h
  · intro h; rw [h]; rfl

/-- Each edge uses up one input (log entry 7). -/
@[simp] theorem hostStep_inputs (h : HostSide) : (hostStep h).inputs = h.inputs.tail := by
  simp [hostStep]

/-- An edge at which a frame is driven accepts it. -/
theorem acceptStep_of_driven {e : EdgeInput} {s : State} {f : Frame} {b : Bool}
    (h : drivenFrame e.cmd s.host.issue = some (f, b)) :
    acceptStep e s = (s.putPort { s.port with inFlight := some { frame := f, wait := e.latency }, rspValid := false }).putHost
      (takeFrame f b s.host) := by
  rw [acceptStep, h]

/-- An edge at which no frame is driven only ends the response. -/
theorem acceptStep_of_none {e : EdgeInput} {s : State} (h : drivenFrame e.cmd s.host.issue = none) :
    acceptStep e s = s.putPort { s.port with rspValid := false } := by
  rw [acceptStep, h]

/-- The block's own state after an edge that accepts a frame or finds none: as before. -/
theorem acceptStep_sameBlock (e : EdgeInput) (s : State) : SameBlock s (acceptStep e s) := by
  unfold acceptStep
  cases drivenFrame e.cmd s.host.issue with
  | none => exact ⟨rfl, rfl, rfl, rfl, rfl, rfl, rfl, rfl⟩
  | some p => exact ⟨rfl, rfl, rfl, rfl, rfl, rfl, rfl, rfl⟩

theorem waitStep_sameBlock (f : Frame) (n : Nat) (s : State) : SameBlock s (waitStep f n s) :=
  ⟨rfl, rfl, rfl, rfl, rfl, rfl, rfl, rfl⟩

theorem releaseStep_sameBlock (s : State) : SameBlock s (releaseStep s) := ⟨rfl, rfl, rfl, rfl, rfl, rfl, rfl, rfl⟩

theorem respond_sameBlock (w : Word) (s : State) : SameBlock s (respond w s) := ⟨rfl, rfl, rfl, rfl, rfl, rfl, rfl, rfl⟩

/-- One more step of a run, for any machine behind the host's interface. -/
theorem run_succ (M : Host.Core) (n : Nat) {s t : M.State} (h : M.step s = .next t) :
    M.run (n + 1) s = M.run n t := by
  simp [Host.Core.run, h]

end Sys2Proof.Laws
end

