-- ==== Sys2Proof/Laws/Resonator.lean ====
section
/-!
SUPPORT. Every operation of the resonator keeps its invariants (10_state.md R74, 44_resonator.md R283).
-/

namespace Sys2Proof.Laws

open Sys2Proof.Machine

@[simp] theorem lineCap_combLine (c : Params) (k : Fin 4) : lineCap c (combLine k) = c.combCap :=
  if_pos (by simp only [combLine]; omega)

@[simp] theorem lineCap_apLine (c : Params) (j : Fin 2) : lineCap c (apLine j) = c.apCap :=
  if_neg (by simp only [apLine]; omega)

theorem combLens_bounds {c : Params} (h : c.legal = true) (bd : Nat) (k : Fin 4) :
    Config.combMin ≤ (combLens c bd)[k] ∧ (combLens c bd)[k] < c.combCap := by
  obtain ⟨-, -, -, -, hc, -⟩ := legal_facts h
  obtain ⟨x, hx⟩ := combLens_eq c bd k
  rw [hx]; exact combLenOf_bounds c bd x (by unfold Config.combMin; omega)

theorem apLens_bounds {c : Params} (h : c.legal = true) (bd : Nat) (j : Fin 2) :
    Config.apMin ≤ (apLens c bd)[j] ∧ (apLens c bd)[j] < c.apCap := by
  obtain ⟨-, -, -, -, -, hc, -⟩ := legal_facts h
  obtain ⟨x, hx⟩ := apLens_eq c bd j
  rw [hx]; exact apLenOf_bounds c bd x (by unfold Config.apMin; omega)

/-- Lengths in range are not 0. -/
theorem length_pos {c : Params} {r : ResState} (h : LengthsInRange c r) :
    (∀ k : Fin 4, 0 < r.combLen[k]) ∧ (∀ j : Fin 2, 0 < r.apLen[j]) := by
  refine ⟨fun k => ?_, fun j => ?_⟩
  · have := h.1 k; unfold Config.combMin at this; omega
  · have := h.2 j; unfold Config.apMin at this; omega

/-- Indices 0 are below lengths in range. -/
theorem indices_zero {c : Params} {r : ResState} (h : LengthsInRange c r) (hc : r.combW = Vector.replicate 4 0)
    (ha : r.apW = Vector.replicate 2 0) : IndicesBelowLengths r := by
  refine ⟨fun k => ?_, fun j => ?_⟩
  · rw [hc]; simpa using (length_pos h).1 k
  · rw [ha]; simpa using (length_pos h).2 j

/-- A retune to a frequency in range meets the invariants, whatever the lengths and indices before it. -/
theorem inv_retune {c : Params} (h : c.legal = true) {f : F32} {r : ResState} (hf : within c.fMin c.fMax f = true)
    (hr : within c.fMin c.fMax r.freq = true) (hw : ∀ line : Fin 6, Memory.wf r.lines[line] = true)
    (hc : ∀ (line : Fin 6) (p : Nat × F32), p ∈ r.lines[line] → p.1 < lineCap c line) : (retune c f r).Inv c := by
  obtain ⟨-, -, -, -, hcc, -⟩ := legal_facts h
  have hl : LengthsInRange c (retune c f r) := ⟨fun k => combLens_bounds h _ k, fun j => apLens_bounds h _ j⟩
  exact ⟨hr, hf, baseDelayOf_bounds c f (by omega), hl, indices_zero hl rfl rfl, hw, hc⟩

theorem inv_resSetFrequency {c : Params} (h : c.legal = true) (f : F32) {r : ResState} (hr : r.Inv c) :
    (resSetFrequency c f r).Inv c := by
  have hf := clampFreq_within h f
  unfold resSetFrequency
  split
  · exact inv_retune h hf hf hr.canonical hr.cells
  · exact ⟨hf, hr.baseFreq, hr.baseDelay, hr.lengths, hr.indices, hr.canonical, hr.cells⟩

theorem inv_resTrigger {c : Params} (x : F32) {r : ResState} (hr : r.Inv c) : (resTrigger c x r).Inv c :=
  ⟨hr.freq, hr.baseFreq, hr.baseDelay, hr.lengths, hr.indices, hr.canonical, hr.cells⟩

theorem inv_resReset {c : Params} {r : ResState} (hr : r.Inv c) : (resReset r).Inv c := by
  have hl : LengthsInRange c (resReset r) := hr.lengths
  refine ⟨hr.freq, hr.baseFreq, hr.baseDelay, hl, indices_zero hl rfl rfl, fun line => ?_, fun line p hp => ?_⟩
  · simp only [resReset, clearLines, Fin.getElem_fin, Vector.getElem_replicate]; rfl
  · simp [resReset, clearLines] at hp

theorem inv_exciteStep {c : Params} {r : ResState} (hr : r.Inv c) : (exciteStep c r).Inv c :=
  ⟨hr.freq, hr.baseFreq, hr.baseDelay, hr.lengths, hr.indices, hr.canonical, hr.cells⟩

theorem inv_combStep {c : Params} (exc a g : F32) {r : ResState} (k : Fin 4) (hr : r.Inv c) :
    (combStep c exc a g r k).Inv c := by
  have hp := (length_pos hr.lengths).1
  refine ⟨hr.freq, hr.baseFreq, hr.baseDelay, hr.lengths, ⟨fun k' => ?_, hr.indices.2⟩, wf_delayWrite _ _ _ hr.canonical,
    fun line p h => ?_⟩
  · rw [combStep_combW, combStep_combLen]
    split
    · rename_i e; subst e; exact Nat.mod_lt _ (hp _)
    · exact hr.indices.1 k'
  · rcases mem_delayWrite h with ⟨rfl, rfl⟩ | h
    · rw [lineCap_combLine]; exact (combIdx_lt (hp k)).trans (hr.lengths.1 k).2
    · exact hr.cells _ _ h

theorem inv_apStep {c : Params} (v : F32) {r : ResState} (j : Fin 2) (hr : r.Inv c) : (apStep v r j).Inv c := by
  have hp := (length_pos hr.lengths).2
  refine ⟨hr.freq, hr.baseFreq, hr.baseDelay, hr.lengths, ⟨hr.indices.1, fun j' => ?_⟩, wf_delayWrite _ _ _ hr.canonical,
    fun line p h => ?_⟩
  · rw [apStep_apW, apStep_apLen]
    split
    · rename_i e; subst e; exact Nat.mod_lt _ (hp _)
    · exact hr.indices.2 j'
  · rcases mem_delayWrite h with ⟨rfl, rfl⟩ | h
    · rw [lineCap_apLine]; exact (apIdx_lt (hp j)).trans (hr.lengths.2 j).2
    · exact hr.cells _ _ h

theorem inv_resProcess {c : Params} (r : Regs) (env : F32) {x : ResState} (hr : x.Inv c) :
    (resProcess c r x env).1.Inv c :=
  resProcess_induct (P := fun y => y.Inv c) c r x env (inv_exciteStep hr) (fun _ k h => inv_combStep _ _ _ k h)
    (fun v _ j h => inv_apStep v j h)

/-- The resonator of the reset state meets the invariants (70_reset_and_hazards.md R391, R392). -/
theorem inv_resetWith_res {c : Params} (h : c.legal = true) (hs : HostSide) : (State.resetWith c hs).res.Inv c := by
  obtain ⟨-, -, h₁, h₂, hcc, -⟩ := legal_facts h
  have hf : within c.fMin c.fMax c.defaultFreq = true := by rw [within, h₁, h₂]; rfl
  have hl : LengthsInRange c (State.resetWith c hs).res :=
    ⟨fun k => combLens_bounds h _ k, fun j => apLens_bounds h _ j⟩
  refine ⟨hf, hf, baseDelayOf_bounds c _ (by omega), hl, indices_zero hl rfl rfl, fun line => ?_, fun line p hp => ?_⟩
  · simp only [State.resetWith, Fin.getElem_fin, Vector.getElem_replicate]; rfl
  · simp [State.resetWith] at hp

end Sys2Proof.Laws
end

