-- ==== Sys2Proof/Laws/Voices.lean ====
section
/-!
SUPPORT. Ranges of what the oscillators compute under the default parameters, for every instance of the functions and of
the modulation source (10_state.md R74, 42_cascade.md R212, R213, 43_fm.md R248, 44_resonator.md R280 to R282).
-/

namespace Sys2Proof.Laws

open Sys2Proof.Machine

theorem finite_of_unit {x : F32} (h : within lit0 lit1 x = true) : isFinite x = true :=
  isFinite_of_within h (by decide) (by decide)

theorem finite_of_sym {x : F32} (h : within litNeg1 lit1 x = true) : isFinite x = true :=
  isFinite_of_within h (by decide) (by decide)

/-- The output of every modulation source is in [-1, 1] (00_scope.md R12). -/
theorem modOut_within (k : ModSource) (s : ModState) : within litNeg1 lit1 (modOut k s) = true := by
  cases k <;> exact clampF_within (by decide)

/-- The larger of a and a value above a is that value. -/
theorem maxF_of_lt {a x : F32} (h : fLt a x = true) : maxF a x = x := if_pos h

/-- The product of two values in [0, 1] is in [0, 1]. -/
theorem within_unit_fMul {x y : F32} (hx : within lit0 lit1 x = true) (hy : within lit0 lit1 y = true) :
    within lit0 lit1 (fMul x y) = true :=
  within_fMul_nonneg hx hy (by decide) (by decide) (by decide) (by decide) (by decide) (by decide) (by decide)
    (by decide) (by decide +kernel) (by decide +kernel)

/-! ### Cascade -/

/-- The chaos term is in [-1, 1] (42_cascade.md R212). -/
theorem chaosDepth_within (i : Fin 8) {chaos m : F32} (hc : within lit0 lit1 chaos = true)
    (hm : within litNeg1 lit1 m = true) : within litNeg1 lit1 (chaosDepth (f32i (i.val + 1)) chaos m) = true := by
  have hw : ∀ i : Fin 8, within lit0 lit1 (fMul (f32i (i.val + 1)) lit0_125) = true := by decide +kernel
  have h1 := magLe_fMul (magLe_of_unit hc) (magLe_one.2 hm) (by decide) (by decide) (by decide)
  unfold chaosDepth
  rw [← magLe_one]
  exact magLe_mono (magLe_fMul h1 (magLe_of_unit (hw i)) (by decide) (by decide) (by decide)) (by decide)

/-- The tremolo factor under the default parameters (42_cascade.md R212). -/
theorem tremMul_within {c : Params} (hd : c.isDefault) (i : Fin 8) {chaos m : F32} (hc : within lit0 lit1 chaos = true)
    (hm : within litNeg1 lit1 m = true) : within lit0_15 lit2 (tremMul c (f32i (i.val + 1)) chaos m) = true := by
  have e1 : c.chaosFloor = lit0_15 := by rw [isDefault_eq hd]; rfl
  have e2 : c.tremDepth = lit1 := by rw [isDefault_eq hd]; rfl
  have one : MagLe 1 lit1 := ⟨by decide, by decide⟩
  have h1 := magLe_fMul (magLe_one.2 (chaosDepth_within i hc hm)) one (by decide) (by decide) (by decide)
  have h2 : within lit0 lit2 (fAdd lit1 (fMul (chaosDepth (f32i (i.val + 1)) chaos m) lit1)) = true := by
    have := magLe_iff.1 h1
    have e : units lit1 = 2 ^ 149 := by decide
    have e' : units lit2 = 2 * 2 ^ 149 := by decide
    have e'' : units lit0 = 0 := by decide
    refine within_fAdd (by decide) h1.1 (by decide) (by decide) ?_ ?_ <;> push_cast at this <;> omega
  unfold tremMul
  rw [e1, e2]
  unfold maxF
  split
  · rename_i h
    rw [fGt_iff] at h
    rw [within_iff] at h2 ⊢
    exact ⟨by decide, by decide, h.1, by omega, h2.2.2.2.2⟩
  · decide

/-- The vibrato factor under the default parameters (42_cascade.md R212). -/
theorem vibMul_within {c : Params} (hd : c.isDefault) (i : Fin 8) {chaos m : F32} (hc : within lit0 lit1 chaos = true)
    (hm : within litNeg1 lit1 m = true) : within 0x3F7AE148 0x3F828F5C (vibMul c (f32i (i.val + 1)) chaos m) = true := by
  have e1 : c.chaosFloor = lit0_15 := by rw [isDefault_eq hd]; rfl
  have e2 : c.vibDepth = 0x3CA3D70A := by rw [isDefault_eq hd]; rfl
  have h1 : within (fNeg 0x3CA3D70A) 0x3CA3D70A (fMul (chaosDepth (f32i (i.val + 1)) chaos m) 0x3CA3D70A) = true :=
    within_fMul_sym (b := lit1) (d := 0x3CA3D70A) (chaosDepth_within i hc hm) (by decide) (by decide) (by decide)
      (by decide) (by decide +kernel)
  have hf := isFinite_of_within h1 (by decide) (by decide)
  have h2 : within 0x3F7AE148 0x3F828F5C (fAdd lit1 (fMul (chaosDepth (f32i (i.val + 1)) chaos m) 0x3CA3D70A)) = true := by
    rw [within_iff] at h1
    have lo := fAdd_mono (x := lit1) (y := fNeg 0x3CA3D70A) (x' := lit1) (by decide) (by decide) (by decide) hf le_rfl
      h1.2.2.2.1
    have hi := fAdd_mono (x := lit1) (x' := lit1) (y' := 0x3CA3D70A) (by decide) hf (by decide) (by decide) le_rfl
      h1.2.2.2.2
    have el : fAdd lit1 (fNeg 0x3CA3D70A) = 0x3F7AE148 := by decide +kernel
    have eh : fAdd lit1 0x3CA3D70A = 0x3F828F5C := by decide +kernel
    rw [el] at lo; rw [eh] at hi
    exact within_iff.2 ⟨by decide, by decide, isNaN_fAdd (by decide) hf, lo, hi⟩
  unfold vibMul
  rw [e1, e2]
  rw [maxF_of_lt]
  · exact h2
  · rw [within_iff] at h2
    have e : units lit0_15 < units 0x3F7AE148 := by decide
    exact fLt_iff.2 ⟨by decide, h2.2.2.1, lt_of_lt_of_le e h2.2.2.2.1⟩

/-- The base amplitude of every harmonic is in [0.125, 1] (42_cascade.md R211). -/
theorem baseAmp_within (i : Fin 8) {x : F32} (hx : within lit0 lit1 x = true) :
    within lit0_125 lit1 (baseAmp (f32i (i.val + 1)) x) = true := by
  have hd : ∀ i : Fin 8, within 0xBF600000 lit0 (fSub (fDiv lit1 (f32i (i.val + 1))) lit1) = true := by decide +kernel
  have h := hd i
  unfold baseAmp
  generalize fSub (fDiv lit1 (f32i (i.val + 1))) lit1 = d at h ⊢
  have fd : isFinite d = true := isFinite_of_within h (by decide) (by decide)
  have fx := finite_of_unit hx
  rw [within_iff] at h hx
  have e0 : units lit0 = 0 := by decide
  have e1 : units lit1 = 2 ^ 149 := by decide
  have ed : units (0xBF600000 : F32) = -(7 * 2 ^ 146) := by decide
  have e8 : units lit0_125 = 2 ^ 146 := by decide
  have hm : within 0xBF600000 lit0 (fMul x d) = true := by
    refine within_fMul fx fd (by decide) (by decide) ?_ ?_ <;> rw [e0, e1] at hx <;> rw [ed, e0] at h
    · rw [ed]; nlinarith
    · rw [e0]; nlinarith
  have fm := isFinite_of_within hm (by decide) (by decide)
  rw [within_iff] at hm
  exact within_fAdd (by decide) fm (by decide) (by decide) (by rw [e8, e1]; omega) (by rw [e1]; omega)

/-- The amplitude of every harmonic is at most 2 (42_cascade.md R209). -/
theorem magLe_harmonicAmp {c : Params} (hd : c.isDefault) {r : Regs} (hr : r.normalised) {x : CasState}
    (hh : x.henv = Vector.replicate 8 lit1) {m : F32} (hm : within litNeg1 lit1 m = true) (i : Fin 8) :
    MagLe 2 (harmonicAmp c r x m i) := by
  have hb := baseAmp_within i (hr 0x04 r.cascade rfl)
  have ht := tremMul_within hd i (hr 0x06 r.chaos rfl) hm
  have he : MagLe 1 x.henv[i] := by rw [hh]; simp only [Fin.getElem_fin, Vector.getElem_replicate]; exact ⟨by decide, by decide⟩
  have b1 : MagLe 1 (baseAmp (f32i (i.val + 1)) r.cascade) :=
    magLe_of_within hb ⟨by decide, by decide⟩ ⟨by decide, by decide⟩
  have t2 : MagLe 2 (tremMul c (f32i (i.val + 1)) r.chaos m) :=
    magLe_of_within ht ⟨by decide, by decide⟩ ⟨by decide, by decide⟩
  exact magLe_mono (magLe_fMul (magLe_fMul b1 he (by decide) (by decide) (by decide)) t2 (by decide) (by decide)
    (by decide)) (by decide)

/-- A sum, product or quotient of values that are not negative is not negative. -/
theorem units_fMul_nonneg {x y : F32} (hx : isFinite x = true) (hy : isFinite y = true) (h : 0 ≤ units x)
    (k : 0 ≤ units y) : 0 ≤ units (fMul x y) := by
  rw [fMul_finite hx hy]
  exact le_units_roundTo (lo := lit0) (by positivity) (by decide)
    (by rw [signed_mul]; have : units lit0 = 0 := by decide
        rw [this, zero_mul]; exact mul_nonneg h k)

/-- A finite value that is not negative, divided by the default sample rate. -/
theorem fDiv_sampleRate {b : Nat} (hb : b < 2 ^ 24) {x : F32} (hx : MagLe b x) (h : 0 ≤ units x) :
    MagLe b (fDiv x Params.default.sampleRate) ∧ 0 ≤ units (fDiv x Params.default.sampleRate) := by
  have hs : units Params.default.sampleRate = 44100 * 2 ^ 149 := by decide
  obtain ⟨-, hn, hu⟩ := bound_units hb
  have hm := magLe_iff.1 hx
  have : within lit0 (f32i b) (fDiv x Params.default.sampleRate) = true := by
    refine within_fDiv_pos hx.1 (by decide) h (by rw [hs]; positivity) (by decide) hn ?_ ?_
    · have : units lit0 = 0 := by decide
      rw [this]; omega
    · rw [hs, hu]
      have : (0 : Int) ≤ (b : Int) * 2 ^ 149 := mul_nonneg (Int.natCast_nonneg b) (by decide)
      nlinarith
  refine ⟨magLe_of_within this ⟨by decide, ?_⟩ ⟨(bound_units hb).1, ?_⟩, ?_⟩
  · have : magUnits lit0 = 0 := by decide
    omega
  · have := natAbs_units (f32i b)
    rw [hu] at this
    omega
  · rw [within_iff] at this
    have e : units lit0 = 0 := by decide
    omega

/-- Dividing by a value above 1.0 keeps a bound. -/
theorem magLe_fDiv {b : Nat} (hb : b < 2 ^ 24) {x y : F32} (hx : MagLe b x) (hy : isFinite y = true)
    (h : fGt y lit1 = true) : MagLe b (fDiv x y) := by
  rw [fGt_iff] at h
  obtain ⟨-, hn, hu⟩ := bound_units hb
  have e1 : units lit1 = 2 ^ 149 := by decide
  have hy1 : 2 ^ 149 ≤ magUnits y := by
    have := units_le_magUnits y
    omega
  have h0 : magBits y ≠ 0 := by
    intro e
    have : magUnits y = 0 := by rw [magUnits, e]; decide
    omega
  rw [magLe_iff_within hb, fDiv_finite hx.1 hy h0]
  have hm : magUnits x * 2 ^ 149 ≤ b * 2 ^ 149 * magUnits y := Nat.mul_le_mul hx.2 hy1
  have hm' : ((magUnits x * 2 ^ 149 : Nat) : Int) ≤ (b : Int) * 2 ^ 149 * (magUnits y : Int) := by exact_mod_cast hm
  have hneg : (0 : Int) ≤ ((magUnits x * 2 ^ 149 : Nat) : Int) := Int.natCast_nonneg _
  refine within_roundTo (by omega) (by rw [isNaN_fNeg]; exact hn) hn ?_ ?_
  all_goals
    simp only [units_fNeg, hu]
    unfold signed
    split <;> nlinarith

/-- A phase in [0, 1) advanced by a bounded increment that is not negative is in [0, 1) again (40_numerics.md R148). -/
theorem wrap01_advance {b : Nat} (hb : b < 2 ^ 23) {p d : F32} (hp : withinBelow lit0 lit1 p = true) (hd : MagLe b d)
    (h : 0 ≤ units d) : withinBelow lit0 lit1 (wrap01 (fAdd p d)) = true := by
  have hp' := within_of_withinBelow hp
  have hf := magLe_fAdd (magLe_of_unit hp') hd (by omega)
  rw [within_iff] at hp'
  have e : units lit0 = 0 := by decide
  refine wrap01_withinBelow hf.1 ?_
  have := within_fAdd (lo := lit0) (hi := f32i (1 + b : Nat)) (finite_of_unit (within_of_withinBelow hp)) hd.1 (by decide)
    (bound_units (b := 1 + b) (by omega)).2.1 (by omega) (by
      rw [(bound_units (b := 1 + b) (by omega)).2.2]
      have h1 := (magLe_iff.1 hd).2.2
      have e1 : units lit1 = 2 ^ 149 := by decide
      push_cast
      rw [add_mul]
      omega)
  rw [within_iff] at this
  omega

/-- The frequency of every harmonic is bounded and not negative (42_cascade.md R209). -/
theorem harmonicFreq_bounds {c : Params} (hd : c.isDefault) {r : Regs} (hr : r.normalised) {x : CasState}
    (hx : within c.fMin c.fMax x.freq = true) {m : F32} (hm : within litNeg1 lit1 m = true) (i : Fin 8) :
    MagLe 64000 (harmonicFreq c r x m i) ∧ 0 ≤ units (harmonicFreq c r x m i) := by
  have e1 : c.fMin = 0x41A00000 := by rw [isDefault_eq hd]; rfl
  have e2 : c.fMax = 0x457A0000 := by rw [isDefault_eq hd]; rfl
  rw [e1, e2] at hx
  have hv := vibMul_within hd i (hr 0x06 r.chaos rfl) hm
  have f4 : MagLe 4000 x.freq := magLe_of_within hx ⟨by decide, by decide⟩ ⟨by decide, by decide⟩
  have hn : ∀ i : Fin 8, isFinite (f32i (i.val + 1)) = true ∧ magUnits (f32i (i.val + 1)) ≤ 8 * 2 ^ 149 ∧
      0 ≤ units (f32i (i.val + 1)) := by decide +kernel
  have v2 : MagLe 2 (vibMul c (f32i (i.val + 1)) r.chaos m) :=
    magLe_of_within hv ⟨by decide, by decide⟩ ⟨by decide, by decide⟩
  have h1 := magLe_fMul (a := 4000) (b := 8) f4 ⟨(hn i).1, (hn i).2.1⟩ (by decide) (by decide) (by decide)
  rw [within_iff] at hx hv
  have p1 : 0 ≤ units x.freq := le_trans (by decide) hx.2.2.2.1
  have p2 : 0 ≤ units (vibMul c (f32i (i.val + 1)) r.chaos m) := le_trans (by decide) hv.2.2.2.1
  exact ⟨magLe_mono (magLe_fMul h1 v2 (by decide) (by decide) (by decide)) (by decide),
    units_fMul_nonneg h1.1 v2.1 (units_fMul_nonneg f4.1 (hn i).1 p1 (hn i).2.2) p2⟩

/-- There are at most eight active harmonics (42_cascade.md R210). -/
theorem numHarmonics_le {x : F32} (hx : within lit0 lit1 x = true) : numHarmonics x ≤ 8 := by
  have h1 : within lit0 lit7 (fMul x lit7) = true :=
    within_fMul_nonneg hx (c := lit7) (d := lit7) (by decide) (by decide) (by decide) (by decide) (by decide)
      (by decide) (by decide) (by decide) (by decide) (by decide +kernel) (by decide +kernel)
  have fm := isFinite_of_within h1 (by decide) (by decide)
  have h7 : units (fMul x lit7) ≤ 7 * 2 ^ 149 := le_trans (within_iff.1 h1).2.2.2.2 (by decide)
  have ex : numHarmonics x = (1 + units (fMul x lit7) / 2 ^ 149).toNat := by simp [numHarmonics, floorI, fm]
  omega

/-- The harmonic loop: phases in [0, 1), the sums bounded by twice the count (42_cascade.md R209). -/
theorem harmonicSum_bounds {c : Params} (hd : c.isDefault) {r : Regs} (hr : r.normalised) {x : CasState}
    (hh : x.henv = Vector.replicate 8 lit1) (hx : within c.fMin c.fMax x.freq = true)
    (hp : ∀ i : Fin 8, withinBelow lit0 lit1 x.phase[i] = true) {m : F32} (hm : within litNeg1 lit1 m = true) (n : Nat) :
    (∀ i : Fin 8, withinBelow lit0 lit1 (harmonicSum c r x m n).phase[i] = true) ∧
      MagLe (2 * min n 8) (harmonicSum c r x m n).out ∧ MagLe (2 * min n 8) (harmonicSum c r x m n).total := by
  have es : c.sampleRate = Params.default.sampleRate := by rw [isDefault_eq hd]
  induction n with
  | zero => exact ⟨hp, (⟨by decide, by decide⟩ : MagLe 0 lit0), (⟨by decide, by decide⟩ : MagLe 0 lit0)⟩
  | succ n ih =>
    unfold harmonicSum
    split
    · rename_i hn
      obtain ⟨h1, h2, h3⟩ := ih
      have hb := harmonicFreq_bounds hd hr hx hm ⟨n, hn⟩
      have hi := fDiv_sampleRate (by decide) hb.1 hb.2
      have ha := magLe_harmonicAmp hd hr hh hm ⟨n, hn⟩
      have hw := wrap01_advance (by decide) (h1 ⟨n, hn⟩) hi.1 hi.2
      refine ⟨fun i => ?_, ?_, ?_⟩
      · rw [harmonicStep_phase, es]
        split
        · exact hw
        · exact h1 i
      · unfold harmonicStep
        split
        · exact magLe_mono h2 (by omega)
        · have hs : isFinite (fMul litTwoPi (wrap01 (fAdd (harmonicSum c r x m n).phase[(⟨n, hn⟩ : Fin 8)]
              (fDiv (harmonicFreq c r x m ⟨n, hn⟩) c.sampleRate)))) = true := by
            rw [es]
            exact (magLe_fMul (a := 7) (b := 1) ⟨by decide, by decide⟩ (magLe_of_unit (within_of_withinBelow hw)) (by decide)
              (by decide) (by decide)).1
          have h4 := magLe_fMul (magLe_sinF c.fns hs) ha (by decide) (by decide) (by decide)
          exact magLe_mono (magLe_fAdd h2 h4 (by omega)) (by omega)
      · unfold harmonicStep
        split
        · exact magLe_mono h3 (by omega)
        · exact magLe_mono (magLe_fAdd h3 ha (by omega)) (by omega)
    · obtain ⟨h1, h2, h3⟩ := ih
      exact ⟨h1, magLe_mono h2 (by omega), magLe_mono h3 (by omega)⟩

/-- CAS.process under the default parameters: phases in [0, 1), the sample in [-1, 1] (42_cascade.md R209, R214). -/
theorem casProcess_bounds {c : Params} (hd : c.isDefault) {r : Regs} (hr : r.normalised) {x : CasState}
    (hh : x.henv = Vector.replicate 8 lit1) (hx : within c.fMin c.fMax x.freq = true)
    (hp : ∀ i : Fin 8, withinBelow lit0 lit1 x.phase[i] = true) {env : F32} (he : within lit0 lit1 env = true) :
    (∀ i : Fin 8, withinBelow lit0 lit1 (casProcess c r x env).1.phase[i] = true) ∧
      within litNeg1 lit1 (casProcess c r x env).2 = true := by
  obtain ⟨h1, h2, h3⟩ := harmonicSum_bounds hd hr hh hx hp (modOut_within c.modSource x.mod) (numHarmonics r.spread)
  refine ⟨h1, ?_⟩
  have hn : MagLe 16 (normalise (harmonicSum c r x (modOut c.modSource x.mod) (numHarmonics r.spread)).out
      (harmonicSum c r x (modOut c.modSource x.mod) (numHarmonics r.spread)).total) := by
    generalize (harmonicSum c r x (modOut c.modSource x.mod) (numHarmonics r.spread)).out = o at h2 ⊢
    generalize (harmonicSum c r x (modOut c.modSource x.mod) (numHarmonics r.spread)).total = w at h3 ⊢
    unfold normalise
    split
    · rename_i hg
      exact magLe_fDiv (by decide) (magLe_mono h2 (by omega)) h3.1 hg
    · exact magLe_mono h2 (by omega)
  have hf := magLe_foldStage hd (by decide) (by decide) hn (hr 0x05 r.wavefold rfl)
  have := magLe_fMul hf (magLe_of_unit he) (by decide) (by decide) (by decide)
  exact softclip_within c (magLe_isNaN this)

/-! ### FM -/

/-- The FM ratio is in [0.25, 6] (43_fm.md R244). -/
theorem ratioOf_within {x : F32} (hx : within lit0 lit1 x = true) : within lit0_25 0x40C00000 (ratioOf x) = true := by
  have hm : within lit0 lit5_75 (fMul x lit5_75) = true :=
    within_fMul_nonneg hx (c := lit5_75) (d := lit5_75) (by decide) (by decide) (by decide) (by decide) (by decide)
      (by decide) (by decide) (by decide) (by decide) (by decide +kernel) (by decide +kernel)
  have hf := isFinite_of_within hm (by decide) (by decide)
  rw [within_iff] at hm
  have e0 : units lit0 = 0 := by decide
  have e : units lit0_25 + units lit5_75 = units (0x40C00000 : F32) := by decide
  exact within_fAdd (by decide) hf (by decide) (by decide) (by omega) (by omega)

/-- The FM index under any parameters is in [0.15, 8] (43_fm.md R244, 40_numerics.md R165). -/
theorem indexOf_within (c : Params) {x : F32} (hx : within lit0 lit1 x = true) :
    within lit0_15 0x41000000 (indexOf c x) = true := by
  have hp := powF_within c.fns (b := litIdxRatio) (by decide) (by decide +kernel) (by decide +kernel) hx
  have e1 : minF lit1 litIdxRatio = lit1 := by decide +kernel
  have e2 : maxF lit1 litIdxRatio = litIdxRatio := by decide +kernel
  rw [e1, e2] at hp
  have hf : isFinite (powF c.fns litIdxRatio x) = true := isFinite_of_within hp (by decide) (by decide)
  rw [within_iff] at hp
  have lo := fMul_mono (x := lit0_15) (y := lit1) (x' := lit0_15) (by decide) (by decide) (by decide) hf (by decide)
    (by decide) le_rfl hp.2.2.2.1
  have hi := fMul_mono (x := lit0_15) (x' := lit0_15) (y' := litIdxRatio) (by decide) hf (by decide) (by decide)
    (le_trans (by decide) hp.2.2.2.1) (by decide) le_rfl hp.2.2.2.2
  have el : fMul lit0_15 lit1 = lit0_15 := by decide +kernel
  have eh : fMul lit0_15 litIdxRatio = 0x41000000 := by decide +kernel
  rw [el] at lo; rw [eh] at hi
  exact within_iff.2 ⟨by decide, by decide, isNaN_fMul (by decide) hf, lo, hi⟩

/-- FM.process under the default parameters: phases in [0, 1), the modulator output and the sample in [-1, 1]
(43_fm.md R248). -/
theorem fmProcess_bounds {c : Params} (hd : c.isDefault) {r : Regs} (hr : r.normalised) {x : FmState}
    (hx : within c.fMin c.fMax x.freq = true) (hmp : withinBelow lit0 lit1 x.modPhase = true)
    (hcp : withinBelow lit0 lit1 x.carPhase = true) (hlm : within litNeg1 lit1 x.lastMod = true) {env : F32}
    (he : within lit0 lit1 env = true) :
    withinBelow lit0 lit1 (fmProcess c r x env).1.modPhase = true ∧
      withinBelow lit0 lit1 (fmProcess c r x env).1.carPhase = true ∧
      within litNeg1 lit1 (fmProcess c r x env).1.lastMod = true ∧ within litNeg1 lit1 (fmProcess c r x env).2 = true := by
  have e1 : c.fMin = 0x41A00000 := by rw [isDefault_eq hd]; rfl
  have e2 : c.fMax = 0x457A0000 := by rw [isDefault_eq hd]; rfl
  have es : c.sampleRate = Params.default.sampleRate := by rw [isDefault_eq hd]
  rw [e1, e2] at hx
  have f4 : MagLe 4000 x.freq := magLe_of_within hx ⟨by decide, by decide⟩ ⟨by decide, by decide⟩
  have hrat := ratioOf_within (hr 0x08 r.fmRatio rfl)
  have r6 : MagLe 6 (ratioOf r.fmRatio) := magLe_of_within hrat ⟨by decide, by decide⟩ ⟨by decide, by decide⟩
  have i8 : MagLe 8 (indexOf c r.fmIndex) :=
    magLe_of_within (indexOf_within c (hr 0x07 r.fmIndex rfl)) ⟨by decide, by decide⟩ ⟨by decide, by decide⟩
  have p7 : MagLe 7 litTwoPi := ⟨by decide, by decide⟩
  have h9 : MagLe 1 lit0_9 := ⟨by decide, by decide⟩
  rw [within_iff] at hx hrat
  have q1 : 0 ≤ units x.freq := le_trans (by decide) hx.2.2.2.1
  have q2 : 0 ≤ units (ratioOf r.fmRatio) := le_trans (by decide) hrat.2.2.2.1
  have hmod : withinBelow lit0 lit1 (fmNextModPhase c r x) = true := by
    have h := fDiv_sampleRate (by decide) (magLe_fMul f4 r6 (by decide) (by decide) (by decide))
      (units_fMul_nonneg f4.1 r6.1 q1 q2)
    unfold fmNextModPhase
    rw [es]
    exact wrap01_advance (by decide) hmp h.1 h.2
  have hcar : withinBelow lit0 lit1 (fmNextCarPhase c x) = true := by
    have h := fDiv_sampleRate (by decide) f4 q1
    unfold fmNextCarPhase
    rw [es]
    exact wrap01_advance (by decide) hcp h.1 h.2
  have hfb := magLe_fMul (magLe_one.2 hlm) (magLe_fMul (magLe_of_unit (hr 0x09 r.fmFeedback rfl)) h9 (by decide) (by decide)
    (by decide)) (by decide) (by decide) (by decide)
  have hlast := magLe_sinF c.fns (magLe_fMul p7 (magLe_fAdd (magLe_of_unit (within_of_withinBelow hmod)) hfb (by decide))
    (by decide) (by decide) (by decide)).1
  have hca := magLe_sinF c.fns (magLe_fMul p7 (magLe_fAdd (magLe_of_unit (within_of_withinBelow hcar))
    (magLe_fMul hlast i8 (by decide) (by decide) (by decide)) (by decide)) (by decide) (by decide) (by decide)).1
  have hs := magLe_fMul (magLe_foldStage hd (by decide) (by decide) hca (hr 0x0A r.fmFold rfl)) (magLe_of_unit he)
    (by decide) (by decide) (by decide)
  exact ⟨hmod, hcar, magLe_one.1 hlast, softclip_within c (magLe_isNaN hs)⟩

/-! ### Resonator -/

/-- The damping coefficient and the comb gain are at most 1 (44_resonator.md R284). -/
theorem combGain_within {x : F32} (hx : within lit0 lit1 x = true) : within lit0_5 0x3F6B851E (combGain x) = true := by
  have hm : within lit0 lit0_42 (fMul x lit0_42) = true :=
    within_fMul_nonneg hx (c := lit0_42) (d := lit0_42) (by decide) (by decide) (by decide) (by decide) (by decide)
      (by decide) (by decide) (by decide) (by decide) (by decide +kernel) (by decide +kernel)
  have hf := isFinite_of_within hm (by decide) (by decide)
  rw [within_iff] at hm
  have lo := fAdd_mono (x := lit0_5) (y := lit0) (x' := lit0_5) (by decide) (by decide) (by decide) hf le_rfl hm.2.2.2.1
  have hi := fAdd_mono (x := lit0_5) (x' := lit0_5) (y' := lit0_42) (by decide) hf (by decide) (by decide) le_rfl
    hm.2.2.2.2
  have el : fAdd lit0_5 lit0 = lit0_5 := by decide +kernel
  have eh : fAdd lit0_5 lit0_42 = 0x3F6B851E := by decide +kernel
  rw [el] at lo; rw [eh] at hi
  exact within_iff.2 ⟨by decide, by decide, isNaN_fAdd (by decide) hf, lo, hi⟩

theorem dampCoef_within {c : Params} (hd : c.isDefault) {x : F32} (hx : within lit0 lit1 x = true) :
    within lit0 0x3F733333 (dampCoef c x) = true := by
  have e : c.dampMax = 0x3F733333 := by rw [isDefault_eq hd]; rfl
  unfold dampCoef
  rw [e]
  exact within_fMul_nonneg hx (c := (0x3F733333 : F32)) (d := (0x3F733333 : F32)) (by decide) (by decide) (by decide)
    (by decide) (by decide) (by decide) (by decide) (by decide) (by decide) (by decide +kernel) (by decide +kernel)

/-- The filter update keeps [-20, 20] (44_resonator.md R280). -/
theorem combLp_within {a d l : F32} (ha : within lit0 0x3F733333 a = true) (hdl : MagLe 1 d)
    (hl : within litNeg20 lit20 l = true) : within litNeg20 lit20 (fAdd (fMul (fSub lit1 a) d) (fMul a l)) = true := by
  have fa := isFinite_of_within ha (by decide) (by decide)
  have h1 : within lit0 lit1 (fSub lit1 a) = true := by
    rw [within_iff] at ha
    have e0 : units lit0 = 0 := by decide
    have e1 : units (0x3F733333 : F32) ≤ units lit1 := by decide
    exact within_fSub (by decide) fa (by decide) (by decide) (by omega) (by omega)
  have h2 := magLe_fMul (magLe_of_unit h1) hdl (by decide) (by decide) (by decide)
  have ha' : within (fNeg 0x3F733333) 0x3F733333 a = true := within_mono ha (by decide +kernel) (by decide +kernel)
  have h3 : within (fNeg 0x41980000) 0x41980000 (fMul a l) = true :=
    within_fMul_sym (b := (0x3F733333 : F32)) (d := lit20) ha' hl (by decide) (by decide) (by decide) (by decide +kernel)
  have f3 := isFinite_of_within h3 (by decide) (by decide)
  rw [magLe_iff] at h2
  rw [within_iff] at h3
  have e1 : units (fNeg 0x41980000) = -(19 * 2 ^ 149) := by decide
  have e2 : units (0x41980000 : F32) = 19 * 2 ^ 149 := by decide
  have e3 : units litNeg20 = -(20 * 2 ^ 149) := by decide
  have e4 : units lit20 = 20 * 2 ^ 149 := by decide
  refine within_fAdd h2.1 f3 (by decide) (by decide) ?_ ?_ <;> push_cast at h2 <;> omega

/-- What one comb line gives out is in [-1, 1] (44_resonator.md R280). -/
theorem combOut_within {c : Params} {exc a g : F32} {x : ResState} {k : Fin 4} (he : MagLe 2 exc) (hg : MagLe 1 g)
    (hl : within litNeg20 lit20 (combLp a x k) = true) : MagLe 1 (combOut c exc a g x k) := by
  have l20 : MagLe 20 (combLp a x k) := magLe_of_within hl ⟨by decide, by decide⟩ ⟨by decide, by decide⟩
  exact magLe_softclip c (magLe_fAdd (magLe_fMul l20 hg (by decide) (by decide) (by decide)) he (by decide))

/-- The cell bounds as whole numbers (44_resonator.md R280, R281). -/
theorem cellBound_combLine (k : Fin 4) : cellBound (combLine k) = lit1 := by revert k; decide

theorem cellBound_apLine : cellBound (apLine 0) = lit2 ∧ cellBound (apLine 1) = lit5 := by decide

/-- The filter states and cells in range: the part of the numeric invariants that the lines' steps keep. -/
def LinesBounded (x : ResState) : Prop :=
  (∀ k : Fin 4, within litNeg20 lit20 x.lp[k] = true) ∧
    (∀ (line : Fin 6) (idx : Nat), within (fNeg (cellBound line)) (cellBound line) (delayRead x line idx) = true) ∧
    ∀ line : Fin 6, Memory.wf x.lines[line] = true

theorem comb_cell {x : ResState} (h : LinesBounded x) (k : Fin 4) (idx : Nat) :
    MagLe 1 (delayRead x (combLine k) idx) := by
  have := h.2.1 (combLine k) idx
  rw [cellBound_combLine] at this
  exact magLe_one.2 this

theorem linesBounded_combStep {c : Params} {exc a g : F32} {x : ResState} (k : Fin 4) (he : MagLe 2 exc) (hg : MagLe 1 g)
    (ha : within lit0 0x3F733333 a = true) (h : LinesBounded x) :
    LinesBounded (combStep c exc a g x k) ∧ MagLe 1 (combOut c exc a g x k) := by
  have hl : within litNeg20 lit20 (combLp a x k) = true := combLp_within ha (comb_cell h k _) (h.1 k)
  have ho := combOut_within (c := c) he hg hl
  refine ⟨⟨fun k' => ?_, fun line idx => ?_, wf_delayWrite _ _ _ h.2.2⟩, ho⟩
  · rw [combStep_lp]
    split
    · exact hl
    · exact h.1 k'
  · rw [combStep_cells _ _ _ _ _ _ (h.2.2 _)]
    split
    · rename_i e
      rw [e.1, cellBound_combLine]
      exact magLe_one.1 ho
    · exact h.2.1 line idx

/-- The comb bank: lines bounded, the running sum at most the number of lines (44_resonator.md R282). -/
theorem linesBounded_combBank {c : Params} {exc a g : F32} {x : ResState} (he : MagLe 2 exc) (hg : MagLe 1 g)
    (ha : within lit0 0x3F733333 a = true) (h : LinesBounded x) (n : Nat) :
    LinesBounded (combBank c exc a g x n).1 ∧ MagLe (min n 4) (combBank c exc a g x n).2 := by
  induction n with
  | zero => exact ⟨h, (⟨by decide, by decide⟩ : MagLe 0 lit0)⟩
  | succ n ih =>
    unfold combBank
    simp only
    split
    · rename_i hn
      have hs := linesBounded_combStep (c := c) ⟨n, hn⟩ he hg ha ih.1
      exact ⟨hs.1, magLe_mono (magLe_fAdd ih.2 hs.2 (by omega)) (by omega)⟩
    · exact ⟨ih.1, magLe_mono ih.2 (by omega)⟩

/-- The bounds 2 and 5 of the allpass cells as whole numbers. -/
theorem magLe_two {x : F32} : MagLe 2 x ↔ within (fNeg lit2) lit2 x = true := by
  have e : f32i (2 : Nat) = lit2 := by decide +kernel
  rw [magLe_iff_within (b := 2) (by decide), e]

theorem magLe_five {x : F32} : MagLe 5 x ↔ within (fNeg lit5) lit5 x = true := by
  have e : f32i (5 : Nat) = lit5 := by decide +kernel
  rw [magLe_iff_within (b := 5) (by decide), e]

/-- A sum of values within symmetric bounds is within the sum of the bounds, where that is an f32. -/
theorem within_fAdd_sym {b d h x y : F32} (hx : within (fNeg b) b x = true) (hy : within (fNeg d) d y = true)
    (hb : isFinite b = true) (hd : isFinite d = true) (hh : isNaN h = false) (hs : units b + units d ≤ units h) :
    within (fNeg h) h (fAdd x y) = true := by
  have fx := isFinite_of_within hx (by rw [isFinite_fNeg]; exact hb) hb
  have fy := isFinite_of_within hy (by rw [isFinite_fNeg]; exact hd) hd
  rw [within_iff, units_fNeg] at hx hy
  refine within_fAdd fx fy (by rw [isNaN_fNeg]; exact hh) hh ?_ ?_
  · rw [units_fNeg]; omega
  · omega

/-- The first allpass, on a comb average in [-1, 1] (44_resonator.md R281). -/
theorem linesBounded_ap0 {v : F32} {x : ResState} (hv : MagLe 1 v) (h : LinesBounded x) :
    LinesBounded (apStep v x 0) ∧ within (fNeg 0x40200000) 0x40200000 (apOut v x 0) = true := by
  have hd := h.2.1 (apLine 0) (apIdx x 0)
  rw [cellBound_apLine.1] at hd
  have hv' := magLe_one.1 hv
  have h1 : within (fNeg lit1) lit1 (fMul lit0_5 (delayRead x (apLine 0) (apIdx x 0))) = true :=
    within_fMul_sym (b := lit0_5) (d := lit2) (by decide) hd (by decide) (by decide) (by decide) (by decide +kernel)
  have h2 : within (fNeg lit0_5) lit0_5 (fMul litNeg0_5 v) = true :=
    within_fMul_sym (b := lit0_5) (d := lit1) (by decide) hv' (by decide) (by decide) (by decide) (by decide +kernel)
  have hs : within (fNeg lit2) lit2 (apStored v x 0) = true :=
    within_fAdd_sym (b := lit1) (d := lit1) hv' h1 (by decide) (by decide) (by decide) (by decide)
  refine ⟨⟨h.1, fun line idx => ?_, wf_delayWrite _ _ _ h.2.2⟩,
    within_fAdd_sym (b := lit0_5) (d := lit2) h2 hd (by decide) (by decide) (by decide) (by decide)⟩
  rw [apStep_cells _ _ _ (h.2.2 _)]
  split
  · rename_i e
    rw [e.1, cellBound_apLine.1]
    exact hs
  · exact h.2.1 line idx

/-- The second allpass, on the first one's output (44_resonator.md R281). -/
theorem linesBounded_ap1 {v : F32} {x : ResState} (hv : within (fNeg 0x40200000) 0x40200000 v = true)
    (h : LinesBounded x) : LinesBounded (apStep v x 1) ∧ MagLe 8 (apOut v x 1) := by
  have hd := h.2.1 (apLine 1) (apIdx x 1)
  rw [cellBound_apLine.2] at hd
  have h1 : within (fNeg 0x40200000) 0x40200000 (fMul lit0_5 (delayRead x (apLine 1) (apIdx x 1))) = true :=
    within_fMul_sym (b := lit0_5) (d := lit5) (by decide) hd (by decide) (by decide) (by decide) (by decide +kernel)
  have hs : within (fNeg lit5) lit5 (apStored v x 1) = true :=
    within_fAdd_sym (b := (0x40200000 : F32)) (d := (0x40200000 : F32)) hv h1 (by decide) (by decide) (by decide) (by decide)
  have v3 : MagLe 3 v := magLe_of_within hv ⟨by decide, by decide⟩ ⟨by decide, by decide⟩
  have hn : MagLe 1 litNeg0_5 := ⟨by decide, by decide⟩
  refine ⟨⟨h.1, fun line idx => ?_, wf_delayWrite _ _ _ h.2.2⟩,
    magLe_mono (magLe_fAdd (magLe_fMul hn v3 (by decide) (by decide) (by decide)) (magLe_five.2 hd) (by decide)) (by decide)⟩
  rw [apStep_cells _ _ _ (h.2.2 _)]
  split
  · rename_i e
    rw [e.1, cellBound_apLine.2]
    exact hs
  · exact h.2.1 line idx

/-- RES.process under the default parameters: filter states and cells in range, the sample in [-1, 1]
(44_resonator.md R280 to R282). -/
theorem resProcess_bounds {c : Params} (hd : c.isDefault) {r : Regs} (hr : r.normalised) {x : ResState}
    (hi : within lit0 lit1 x.impulse = true) (hb : within lit0 lit1 x.burst = true) (hl : LinesBounded x) {env : F32}
    (he : within lit0 lit1 env = true) :
    LinesBounded (resProcess c r x env).1 ∧ within litNeg1 lit1 (resProcess c r x env).2 = true := by
  have hx : MagLe 2 (excitation x) :=
    magLe_mono (magLe_fAdd (magLe_of_unit hi) (magLe_of_unit hb) (by decide)) (by decide)
  have hg : MagLe 1 (combGain r.resFeedback) :=
    magLe_of_within (combGain_within (hr 0x0B r.resFeedback rfl)) ⟨by decide, by decide⟩ ⟨by decide, by decide⟩
  have ha := dampCoef_within hd (hr 0x0C r.resDamp rfl)
  have h0 : LinesBounded (exciteStep c x) := hl
  obtain ⟨h1, h2⟩ := linesBounded_combBank (c := c) hx hg ha h0 4
  have h2' : within (fNeg (f32i (4 : Nat))) (f32i (4 : Nat)) _ = true := (magLe_iff_within (b := 4) (by decide)).1 h2
  have hv : MagLe 1 (fMul (combBank c (excitation x) (dampCoef c r.resDamp) (combGain r.resFeedback) (exciteStep c x) 4).2
      lit0_25) := by
    rw [magLe_one]
    exact within_fMul_sym (h := lit1) (d := lit0_25) h2' (by decide) (by decide +kernel) (by decide) (by decide)
      (by decide +kernel)
  obtain ⟨h3, h4⟩ := linesBounded_ap0 hv h1
  obtain ⟨h5, h6⟩ := linesBounded_ap1 h4 h3
  have hm := magLe_of_unit (hr 0x0D r.resMix rfl)
  have one : MagLe 1 lit1 := ⟨by decide, by decide⟩
  have ten : MagLe 10 lit10 := ⟨by decide, by decide⟩
  have hs := magLe_fMul (magLe_fAdd (magLe_fMul (magLe_fSub one hm (by decide)) hv (by decide) (by decide) (by decide))
    (magLe_fMul hm h6 (by decide) (by decide) (by decide)) (by decide))
    (magLe_fMul (magLe_of_unit he) ten (by decide) (by decide) (by decide)) (by decide) (by decide) (by decide)
  exact ⟨h5, resProcess_snd c r x env ▸ softclip_within c (magLe_isNaN hs)⟩

/-! ### Envelope and meter -/

/-- The envelope level stays in [0, 1] when the rate and the coefficient are in [0, 1] (41_envelope.md R174). -/
theorem envProcess_level {e : EnvState} (hl : within lit0 lit1 e.level = true) (ha : within lit0 lit1 e.attackRate = true)
    (hc : within lit0 lit1 e.decayCoeff = true) : within lit0 lit1 (envProcess e).level = true := by
  have hm := within_unit_fMul hl hc
  have fl := finite_of_unit hl
  have fa := finite_of_unit ha
  have h01 : within lit0 lit1 lit0 = true ∧ within lit0 lit1 lit1 = true := by decide
  obtain ⟨-, -, ⟨-, -, h⟩ | ⟨-, -, -, h⟩ | ⟨-, hg, -, h⟩ | ⟨-, -, h⟩ | ⟨-, -, -, h⟩ | ⟨-, -, -, h⟩⟩ :=
    envProcess_cases e _ rfl
  · rw [h]; exact h01.1
  · rw [h]; exact h01.2
  · rw [h]
    have n := isNaN_fAdd fl fa
    have e0 : units lit0 = 0 := by decide
    rw [within_iff] at hl ha ⊢
    have lo := fAdd_mono (x := lit0) (y := lit0) (by decide) (by decide) fl fa hl.2.2.2.1 ha.2.2.2.1
    have ez : fAdd lit0 lit0 = lit0 := by decide +kernel
    rw [ez] at lo
    refine ⟨by decide, by decide, n, lo, ?_⟩
    by_contra hlt
    have hge : fGe (fAdd e.level e.attackRate) lit1 = true := by
      unfold fGe
      exact fLe_iff.2 ⟨by decide, n, by omega⟩
    rw [hge] at hg
    exact Bool.noConfusion hg
  · rw [h]; exact h01.2
  · rw [h]; exact h01.1
  · rw [h]; exact hm

/-- The guard leaves a sample in [-1, 1] in [-0.8, 0.8] under the default parameters (45_engine.md R315, R327). -/
theorem guardSample_within {c : Params} (hd : c.isDefault) {raw : F32} (h : within litNeg1 lit1 raw = true) :
    within 0xBF4CCCCD 0x3F4CCCCD (guardSample c raw) = true := by
  have e1 : c.masterGain = 0x3F4CCCCD := by rw [isDefault_eq hd]; rfl
  have e2 : c.safetyBound = lit1_5 := by rw [isDefault_eq hd]; rfl
  have hm : within (fNeg 0x3F4CCCCD) 0x3F4CCCCD (fMul raw 0x3F4CCCCD) = true :=
    within_fMul_sym (b := lit1) (d := (0x3F4CCCCD : F32)) h (by decide) (by decide) (by decide) (by decide)
      (by decide +kernel)
  have hf := isFinite_of_within hm (by decide) (by decide)
  unfold guardSample
  rw [e1, e2, hf, if_pos rfl, clampF_of_within]
  · exact hm
  · exact within_mono hm (by decide +kernel) (by decide +kernel)

/-- The meter stays in [0, 2] for samples in [-0.8, 0.8] (45_engine.md R315). -/
theorem nextMeter_within {m y : F32} (hm : within lit0 lit2 m = true) (hy : within 0xBF4CCCCD 0x3F4CCCCD y = true) :
    within lit0 lit2 (nextMeter m y) = true := by
  have ha : within lit0 0x3F4CCCCD (absF y) = true := by
    rw [within_iff] at hy ⊢
    have e0 : units lit0 = 0 := by decide
    have e1 : units (0xBF4CCCCD : F32) = -units (0x3F4CCCCD : F32) := by decide
    have e2 := natAbs_units y
    rw [isNaN_absF, units_absF]
    exact ⟨by decide, by decide, hy.2.2.1, by omega, by omega⟩
  have h1 : within lit0 0x3FFFBE77 (fMul m lit0_999) = true :=
    within_fMul_nonneg hm (c := lit0_999) (d := lit0_999) (by decide) (by decide) (by decide) (by decide) (by decide)
      (by decide) (by decide) (by decide) (by decide) (by decide +kernel) (by decide +kernel)
  have h2 : within lit0 lit0_001 (fMul (absF y) lit0_001) = true :=
    within_fMul_nonneg ha (c := lit0_001) (d := lit0_001) (by decide) (by decide) (by decide) (by decide) (by decide)
      (by decide) (by decide) (by decide) (by decide) (by decide +kernel) (by decide +kernel)
  have f1 := isFinite_of_within h1 (by decide) (by decide)
  have f2 := isFinite_of_within h2 (by decide) (by decide)
  rw [within_iff] at h1 h2
  have e0 : units lit0 = 0 := by decide
  have es : units (0x3FFFBE77 : F32) + units lit0_001 ≤ units lit2 := by decide
  exact within_fAdd f1 f2 (by decide) (by decide) (by omega) (by omega)

/-- The output level of a meter in [0, 2] is in [0, 1] (45_engine.md R316). -/
theorem outputLevel_within {m : F32} (hm : within lit0 lit2 m = true) : within lit0 lit1 (outputLevel m) = true := by
  have h1 : within lit0 0x40800000 (fMul m lit2) = true :=
    within_fMul_nonneg hm (c := lit2) (d := lit2) (by decide) (by decide) (by decide) (by decide) (by decide)
      (by decide) (by decide) (by decide) (by decide) (by decide +kernel) (by decide +kernel)
  unfold outputLevel minF
  split
  · rename_i h
    rw [fLt_iff] at h
    rw [within_iff] at h1 ⊢
    exact ⟨by decide, by decide, h.1, h1.2.2.2.1, h.2.2.le⟩
  · decide

end Sys2Proof.Laws
end

