-- ==== Sys2Proof/Laws/Invariant.lean ====
section
/-!
SUPPORT. How the invariants of 10_state.md R74 pass from state to state: they read the block alone, and each of them reads
one part of it.
-/

namespace Sys2Proof.Laws

open Sys2Proof.Machine

/-- The invariants read the block's own state alone. -/
theorem inv_of_sameBlock {s t : State} (h : SameBlock s t) (hi : s.Inv) : t.Inv := by
  obtain ⟨h1, h2, h3, h4, h5, h6, h7, h8⟩ := h
  cases s; cases t; simp only at h1 h2 h3 h4 h5 h6 h7 h8
  subst h1 h2 h3 h4 h5 h6 h7 h8
  exact ⟨hi.legal, hi.regs, hi.curFreq, hi.casFreq, hi.fmFreq, hi.henv, hi.res, hi.sample⟩

/-- The numeric invariants read the block's own state alone. -/
theorem numeric_of_sameBlock {s t : State} (h : SameBlock s t) (hn : s.Numeric) : t.Numeric := by
  obtain ⟨h1, h2, h3, h4, h5, h6, h7, h8⟩ := h
  cases s; cases t; simp only at h1 h2 h3 h4 h5 h6 h7 h8
  subst h1 h2 h3 h4 h5 h6 h7 h8
  exact ⟨hn.isDefault, hn.level, hn.attackRate, hn.decayCoeff, hn.phase, hn.modPhase, hn.carPhase, hn.lastMod, hn.res,
    hn.meter, hn.statusLevel⟩

/-- The invariants of a state with the same configuration, part by part. -/
theorem inv_of_parts {s t : State} (hi : s.Inv) (hc : t.cfg = s.cfg) (hr : t.reg.normalised)
    (hf : within s.cfg.fMin s.cfg.fMax t.eng.curFreq = true) (hcas : within s.cfg.fMin s.cfg.fMax t.cas.freq = true)
    (hfm : within s.cfg.fMin s.cfg.fMax t.fm.freq = true) (hh : t.cas.henv = Vector.replicate 8 lit1)
    (hres : t.res.Inv s.cfg) (hs : InSafetyRange s.cfg t.eng.lastSample) : t.Inv := by
  constructor
  · rw [hc]; exact hi.legal
  · exact hr
  · rw [hc]; exact hf
  · rw [hc]; exact hcas
  · rw [hc]; exact hfm
  · exact hh
  · rw [hc]; exact hres
  · rw [hc]; exact hs

/-- The guarded sample is finite and within the safety bound (45_engine.md R327). -/
theorem guardSample_inSafetyRange {c : Params} (h : c.legal = true) (raw : F32) : InSafetyRange c (guardSample c raw) := by
  have hs := safety_range h
  refine ⟨?_, clampF_within hs⟩
  rw [fLe_iff, isNaN_fNeg, units_fNeg] at hs
  unfold guardSample
  apply clampF_finite
  · split
    · assumption
    · decide
  · rw [units_fNeg]; omega
  · omega

/-- Registers of which each is an old one or a clamped operand are normalised (10_state.md R42). -/
theorem normalised_of_set {r r' : Regs} (h : r.normalised) (x : F32)
    (hs : ∀ id y, regOfId r' id = some y → regOfId r id = some y ∨ y = clamp01 x) : r'.normalised := by
  intro id y hy
  rcases hs id y hy with h' | rfl
  · exact h id y h'
  · exact clamp01_within x

/-- The registers after reset are normalised (70_reset_and_hazards.md R391). -/
theorem resetRegs_normalised : State.resetRegs.normalised := by
  intro id x h
  unfold regOfId at h
  split at h <;> first
    | (cases h; decide +kernel)
    | cases h

/-- The two parts of the resonator's numeric invariants. -/
theorem resNumeric_iff {r : ResState} (hw : ∀ line : Fin 6, Memory.wf r.lines[line] = true) :
    r.Numeric ↔ within lit0 lit1 r.impulse = true ∧ within lit0 lit1 r.burst = true ∧ LinesBounded r :=
  ⟨fun h => ⟨h.impulse, h.burst, h.lp, h.cells, hw⟩, fun h => ⟨h.1, h.2.1, h.2.2.1, h.2.2.2.1⟩⟩

/-- 0.0 is within the bound of every line. -/
theorem zero_within_cellBound (line : Fin 6) : within (fNeg (cellBound line)) (cellBound line) unlistedCell = true := by
  revert line
  decide +kernel

theorem zero_within_lp : within litNeg20 litNeg20 litNeg20 = true ∧ within litNeg20 lit20 lit0 = true := by decide +kernel

/-- RES.trigger under the default parameters arms values in [0, 1] (44_resonator.md R277). -/
theorem numeric_resTrigger {c : Params} (hd : c.isDefault) {x : F32} (hx : within lit0 lit1 x = true) {r : ResState}
    (h : r.Numeric) : (resTrigger c x r).Numeric := by
  have e1 : c.impulseAmp = lit1 := by rw [isDefault_eq hd]; rfl
  have e2 : c.burstInit = lit0_5 := by rw [isDefault_eq hd]; rfl
  have h1 : within lit0 lit1 lit1 = true ∧ within lit0 lit1 lit0_5 = true := by decide
  refine ⟨?_, ?_, h.lp, h.cells⟩
  · simp only [resTrigger, e1]; exact within_unit_fMul h1.1 hx
  · simp only [resTrigger, e2]; exact within_unit_fMul h1.2 hx

/-- RES.reset leaves zeros (44_resonator.md R278). -/
theorem numeric_resReset (r : ResState) : (resReset r).Numeric := by
  have h0 : within lit0 lit1 lit0 = true := by decide
  refine ⟨h0, h0, fun k => ?_, fun line idx => ?_⟩
  · simp only [resReset, clearLines, Fin.getElem_fin, Vector.getElem_replicate]; exact zero_within_lp.2
  · rw [delayRead_resReset]; exact zero_within_cellBound line

/-- RES.setFrequency keeps the numeric invariants (44_resonator.md R275, R276). -/
theorem numeric_resSetFrequency (c : Params) (f : F32) {r : ResState} (h : r.Numeric) :
    (resSetFrequency c f r).Numeric := by
  unfold resSetFrequency
  split
  · refine ⟨h.impulse, h.burst, fun k => ?_, h.cells⟩
    simp only [retune, Fin.getElem_fin, Vector.getElem_replicate]; exact zero_within_lp.2
  · exact ⟨h.impulse, h.burst, h.lp, h.cells⟩

/-- RES.process keeps the numeric invariants, and its sample is in [-1, 1] (44_resonator.md R279 to R282). -/
theorem numeric_resProcess {c : Params} (hd : c.isDefault) {r : Regs} (hr : r.normalised) {x : ResState}
    (hw : ∀ line : Fin 6, Memory.wf x.lines[line] = true) (h : x.Numeric) {env : F32} (he : within lit0 lit1 env = true) :
    (resProcess c r x env).1.Numeric ∧ within litNeg1 lit1 (resProcess c r x env).2 = true := by
  obtain ⟨h1, h2⟩ := resProcess_bounds hd hr h.impulse h.burst ⟨h.lp, h.cells, hw⟩ he
  obtain ⟨-, -, -, -, -, hi, hb⟩ := resProcess_frame c r x env _ rfl
  have e : c.excDecay = 0x3F7F7CEE := by rw [isDefault_eq hd]; rfl
  have h0 : within lit0 lit1 lit0 = true ∧ within lit0 lit1 (0x3F7F7CEE : F32) = true := by decide
  refine ⟨⟨?_, ?_, h1.1, h1.2.1⟩, h2⟩
  · rw [hi]; exact h0.1
  · rw [hb, e]; exact within_unit_fMul h.burst h0.2

end Sys2Proof.Laws
end

