-- ==== Sys2Proof/Laws/Bank.lean ====
section
/-!
SUPPORT. What one RES.process does to the delay memories, line by line: the comb lines read and write their own cells
only, so each of them works on the state before the sample (44_resonator.md R280 to R282).
-/

namespace Sys2Proof.Laws

open Sys2Proof.Machine

/-- b is x after the comb lines below n have run. -/
structure AfterCombs (c : Params) (exc a g : F32) (x b : ResState) (n : Nat) : Prop where
  wf : ∀ m : Fin 6, Memory.wf b.lines[m] = true
  combLen : b.combLen = x.combLen
  apLen : b.apLen = x.apLen
  apW : b.apW = x.apW
  later : ∀ k : Fin 4, n ≤ k.val → b.combW[k] = x.combW[k] ∧ b.lp[k] = x.lp[k]
  done : ∀ k : Fin 4, k.val < n → b.combW[k] = (combIdx x k + 1) % x.combLen[k] ∧ b.lp[k] = combLp a x k ∧
    delayRead b (combLine k) (combIdx x k) = combOut c exc a g x k
  kept : ∀ (l : Fin 6) (i : Nat), (¬∃ k : Fin 4, k.val < n ∧ l = combLine k ∧ i = combIdx x k) →
    delayRead b l i = delayRead x l i

theorem afterCombs_zero (c : Params) (exc a g : F32) {x : ResState} (hw : ∀ m : Fin 6, Memory.wf x.lines[m] = true) :
    AfterCombs c exc a g x x 0 :=
  ⟨hw, rfl, rfl, rfl, fun _ _ => ⟨rfl, rfl⟩, fun _ h => absurd h (by omega), fun _ _ _ => rfl⟩

/-- The next comb line sees the state before the sample. -/
theorem afterCombs_reads {c : Params} {exc a g : F32} {x b : ResState} {k : Fin 4}
    (h : AfterCombs c exc a g x b k.val) :
    combIdx b k = combIdx x k ∧ combLp a b k = combLp a x k ∧ combOut c exc a g b k = combOut c exc a g x k := by
  have hi : combIdx b k = combIdx x k := by
    unfold combIdx
    rw [h.combLen, (h.later k le_rfl).1]
  have hr : delayRead b (combLine k) (combIdx x k) = delayRead x (combLine k) (combIdx x k) := by
    refine h.kept _ _ ?_
    rintro ⟨k', hk, hl, -⟩
    rw [combLine_inj.1 hl] at hk
    omega
  have hl : combLp a b k = combLp a x k := by
    unfold combLp
    rw [hi, hr, (h.later k le_rfl).2]
  exact ⟨hi, hl, by unfold combOut; rw [hl]⟩

theorem afterCombs_succ {c : Params} {exc a g : F32} {x b : ResState} {k : Fin 4}
    (h : AfterCombs c exc a g x b k.val) : AfterCombs c exc a g x (combStep c exc a g b k) (k.val + 1) := by
  obtain ⟨hi, hl, ho⟩ := afterCombs_reads h
  have hcells : ∀ (l : Fin 6) (i : Nat), delayRead (combStep c exc a g b k) l i =
      if l = combLine k ∧ i = combIdx x k then combOut c exc a g x k else delayRead b l i := by
    intro l i
    rw [combStep_cells _ _ _ _ _ _ (h.wf _), hi, ho]
  refine ⟨wf_delayWrite _ _ _ h.wf, h.combLen, h.apLen, h.apW, fun k' hk => ?_, fun k' hk => ?_, fun l i hne => ?_⟩
  · have hne : k' ≠ k := by rintro rfl; omega
    rw [combStep_combW, combStep_lp, if_neg hne, if_neg hne]
    exact h.later k' (by omega)
  · rw [combStep_combW, combStep_lp, hcells]
    by_cases e : k' = k
    · subst e
      rw [if_pos rfl, if_pos rfl, if_pos ⟨rfl, rfl⟩, hi, hl, h.combLen]
      exact ⟨rfl, rfl, rfl⟩
    · rw [if_neg e, if_neg e, if_neg (fun h' => e (combLine_inj.1 h'.1))]
      exact h.done k' (by have : k'.val ≠ k.val := fun h' => e (Fin.ext h'); omega)
  · rw [hcells, if_neg (fun h' => hne ⟨k, by omega, h'⟩)]
    exact h.kept l i (fun ⟨k', hk, h'⟩ => hne ⟨k', by omega, h'⟩)

theorem combBank_succ (c : Params) (exc a g : F32) (x : ResState) (k : Fin 4) :
    combBank c exc a g x (k.val + 1) = (combStep c exc a g (combBank c exc a g x k.val).1 k,
      fAdd (combBank c exc a g x k.val).2 (combOut c exc a g (combBank c exc a g x k.val).1 k)) := by
  rw [combBank]
  simp

/-- The four comb lines after one sample: the state, and the sum of what they give out, in ascending order
(44_resonator.md R282). -/
theorem afterCombs_bank (c : Params) (exc a g : F32) {x : ResState} (hw : ∀ m : Fin 6, Memory.wf x.lines[m] = true) :
    AfterCombs c exc a g x (combBank c exc a g x 4).1 4 ∧
      (combBank c exc a g x 4).2 = fAdd (fAdd (fAdd (fAdd lit0 (combOut c exc a g x 0)) (combOut c exc a g x 1))
        (combOut c exc a g x 2)) (combOut c exc a g x 3) := by
  have h0 : AfterCombs c exc a g x (combBank c exc a g x (0 : Fin 4).val).1 (0 : Fin 4).val := afterCombs_zero c exc a g hw
  have e0 : (combBank c exc a g x (0 : Fin 4).val).2 = lit0 := rfl
  have step : ∀ k : Fin 4, AfterCombs c exc a g x (combBank c exc a g x k.val).1 k.val →
      AfterCombs c exc a g x (combBank c exc a g x (k.val + 1)).1 (k.val + 1) ∧
        (combBank c exc a g x (k.val + 1)).2 = fAdd (combBank c exc a g x k.val).2 (combOut c exc a g x k) := by
    intro k h
    rw [combBank_succ]
    exact ⟨afterCombs_succ h, by rw [(afterCombs_reads h).2.2]⟩
  obtain ⟨h1, e1⟩ := step 0 h0
  obtain ⟨h2, e2⟩ := step 1 h1
  obtain ⟨h3, e3⟩ := step 2 h2
  obtain ⟨h4, e4⟩ := step 3 h3
  refine ⟨h4, ?_⟩
  rw [← e0, ← e1]
  refine e4.trans (congrArg (fAdd · _) (e3.trans (congrArg (fAdd · _) e2)))

/-- The two allpasses after the comb lines: what they store, and their indices; no other cell changes
(44_resonator.md R281). -/
theorem apChain_cells (v : F32) {b : ResState} (hw : ∀ m : Fin 6, Memory.wf b.lines[m] = true) :
    (∀ (l : Fin 6) (i : Nat), delayRead (apChain v b).1 l i =
      if l = apLine 0 ∧ i = apIdx b 0 then apStored v b 0
      else if l = apLine 1 ∧ i = apIdx b 1 then
        fAdd (apOut v b 0) (fMul lit0_5 (delayRead b (apLine 1) (apIdx b 1)))
      else delayRead b l i) ∧
    (apChain v b).2 = fAdd (fMul litNeg0_5 (apOut v b 0)) (delayRead b (apLine 1) (apIdx b 1)) ∧
    (∀ j : Fin 2, (apChain v b).1.apW[j] = (apIdx b j + 1) % b.apLen[j]) := by
  have hi : apIdx (apStep v b 0) 1 = apIdx b 1 := by
    unfold apIdx
    rw [apStep_apW, if_neg (by decide)]
    rfl
  have hne : apLine 1 ≠ apLine 0 := by decide
  have hr : delayRead (apStep v b 0) (apLine 1) (apIdx b 1) = delayRead b (apLine 1) (apIdx b 1) := by
    rw [apStep_cells _ _ _ (hw _), if_neg (fun h => hne h.1)]
  have hw' : ∀ m : Fin 6, Memory.wf (apStep v b 0).lines[m] = true := wf_delayWrite _ _ _ hw
  refine ⟨fun l i => ?_, ?_, fun j => ?_⟩
  · show delayRead (apStep (apOut v b 0) (apStep v b 0) 1) l i = _
    rw [apStep_cells _ _ _ (hw' _), hi, apStep_cells _ _ _ (hw _)]
    unfold apStored
    rw [hi, hr]
    by_cases h1 : l = apLine 1 ∧ i = apIdx b 1
    · rw [if_pos h1, if_neg (fun h => hne (h1.1.symm.trans h.1)), if_pos h1]
    · rw [if_neg h1, if_neg h1]
  · show apOut (apOut v b 0) (apStep v b 0) 1 = _
    rw [apOut, hi, hr]
  · show (apStep (apOut v b 0) (apStep v b 0) 1).apW[j] = _
    rw [apStep_apW, apStep_apW, hi]
    by_cases h : j = 1
    · subst h; rw [if_pos rfl]; rfl
    · have h0 : j = 0 := by omega
      subst h0; rw [if_neg h, if_pos rfl]

end Sys2Proof.Laws
end

