-- ==== Sys2Proof/Laws/Functions.lean ====
section
/-!
SUPPORT. tanhF and powF are monotone, for every instance (40_numerics.md R143, R144).
-/

namespace Sys2Proof.Laws

open Sys2Proof.Machine

/-- A clamp does not fall as the value and the bounds rise (R146). -/
theorem clampF_mono {x y lo hi lo' hi' : F32} (hx : isNaN x = false) (hy : isNaN y = false)
    (hh : isNaN hi = false) (hl' : isNaN lo' = false) (h : units x ≤ units y)
    (h₁ : units lo ≤ units lo') (h₂ : units hi ≤ units hi') (h₃ : units lo' ≤ units hi') :
    units (clampF x lo hi) ≤ units (clampF y lo' hi') := by
  unfold clampF
  split_ifs <;> simp only [fGt_iff, fLt_iff, hx, hy, hh, hl', true_and, Bool.false_eq_true] at * <;> omega

/-! ### exp and ln in fixed point -/

theorem expSeries_mono {r r' : Nat} (h : r ≤ r') : ∀ k j, expSeries r k j ≤ expSeries r' k j
  | 0, _ => le_rfl
  | k + 1, j => Nat.add_le_add_left (Nat.div_le_div_right (Nat.mul_le_mul h (expSeries_mono h k (j + 1)))) _

theorem fixExp_mono {r r' : Nat} (h : r ≤ r') : fixExp r ≤ fixExp r' := expSeries_mono h _ _

theorem fixOne_le_fixExp (r : Nat) : fixOne ≤ fixExp r := Nat.le_add_right _ _

/-- exp of the largest rest below ln 2 is at most 2. -/
theorem fixExp_le {r : Nat} (h : r < fixLn2) : fixExp r ≤ 2 * fixOne :=
  le_trans (fixExp_mono (show r ≤ fixLn2 - 1 by omega)) (by decide +kernel)

theorem artanhSeries_mono {z z' : Nat} (h : z ≤ z') : ∀ k j, artanhSeries z k j ≤ artanhSeries z' k j
  | 0, _ => le_rfl
  | k + 1, j => Nat.add_le_add_left (Nat.div_le_div_right (Nat.mul_le_mul h (artanhSeries_mono h k (j + 1)))) _

/-- The logarithm is not negative from 1.0 on. -/
theorem fixLn_nonneg {n : Nat} (h : 2 ^ 149 ≤ n) : 0 ≤ fixLn n := by
  have : 149 ≤ Nat.log2 n := (Nat.le_log2 (by omega)).2 h
  have e : (0 : Int) ≤ ((Nat.log2 n : Int) - 149) * fixLn2 := Int.mul_nonneg (by omega) (Int.natCast_nonneg _)
  exact Int.add_nonneg (Int.natCast_nonneg _) e

/-- The logarithm is not positive below 1.0. -/
theorem fixLn_nonpos {n : Nat} (h₀ : 0 < n) (h : n < 2 ^ 149) : fixLn n ≤ 0 := by
  have hl : Nat.log2 n < 149 := (Nat.log2_lt (by omega)).2 h
  have hn : n < 2 ^ (Nat.log2 n + 1) := Nat.lt_log2_self
  unfold fixLn
  dsimp only
  set m := n * fixOne / 2 ^ Nat.log2 n with hm
  have hm₂ : m ≤ 2 * fixOne := by
    rw [hm]
    refine Nat.div_le_of_le_mul ?_
    have : n * fixOne ≤ 2 ^ (Nat.log2 n + 1) * fixOne := Nat.mul_le_mul_right _ hn.le
    rw [pow_succ] at this
    linarith [this]
  clear_value m
  have ho : 0 < fixOne := by decide
  set z := (m - fixOne) * fixOne / (m + fixOne) with hz
  have hz₂ : z ≤ fixOne / 3 := by
    rw [Nat.le_div_iff_mul_le (by decide)]
    have h₁ : z * (m + fixOne) ≤ (m - fixOne) * fixOne := Nat.div_mul_le_self _ _
    have h₂ : 3 * (m - fixOne) ≤ m + fixOne := by omega
    have h₃ : z * 3 * (m + fixOne) ≤ fixOne * (m + fixOne) := by nlinarith
    exact Nat.le_of_mul_le_mul_right h₃ (by omega)
  have hs : 2 * z * artanhSeries (z * z / fixOne) 64 0 / fixOne ≤ fixLn2 := by
    refine le_trans (Nat.div_le_div_right (Nat.mul_le_mul (Nat.mul_le_mul_left 2 hz₂)
      (artanhSeries_mono (Nat.div_le_div_right (Nat.mul_le_mul hz₂ hz₂)) 64 0))) ?_
    decide +kernel
  have e : ((Nat.log2 n : Int) - 149) * fixLn2 ≤ -1 * fixLn2 :=
    Int.mul_le_mul_of_nonneg_right (by omega) (Int.natCast_nonneg _)
  have := Int.ofNat_le.2 hs
  push_cast at this ⊢
  omega

/-! ### tanh -/

/-- e^2x of the reference tanh, fixed point, for y = 2x in fixed point (R143). -/
def fixE (y : Nat) : Nat := fixExp (y % fixLn2) * 2 ^ (y / fixLn2)

theorem fixE_mono {y y' : Nat} (h : y ≤ y') : fixE y ≤ fixE y' := by
  have hL : 0 < fixLn2 := by decide
  unfold fixE
  rcases Nat.eq_or_lt_of_le (Nat.div_le_div_right (c := fixLn2) h) with e | e
  · rw [e]
    refine Nat.mul_le_mul_right _ (fixExp_mono ?_)
    have := Nat.div_add_mod y fixLn2
    have := Nat.div_add_mod y' fixLn2
    rw [e] at *
    omega
  · calc fixExp (y % fixLn2) * 2 ^ (y / fixLn2) ≤ 2 * fixOne * 2 ^ (y / fixLn2) :=
          Nat.mul_le_mul_right _ (fixExp_le (Nat.mod_lt _ hL))
      _ = fixOne * 2 ^ (y / fixLn2 + 1) := by rw [pow_succ]; ring
      _ ≤ fixOne * 2 ^ (y' / fixLn2) := Nat.mul_le_mul_left _ (Nat.pow_le_pow_right (by decide) e)
      _ ≤ _ := Nat.mul_le_mul_right _ (fixOne_le_fixExp _)

theorem fixOne_le_fixE (y : Nat) : fixOne ≤ fixE y :=
  le_trans (fixOne_le_fixExp _) (Nat.le_mul_of_pos_right _ (Nat.pow_pos (by decide)))

/-- The magnitude of the middle range of the reference tanh at n units (R143). -/
def tanhMid (n : Nat) : Nat := roundMag ((fixE (n * 2 ^ 44) - fixOne) * 2 ^ 149) (fixE (n * 2 ^ 44) + fixOne)

theorem roundMag_ratio_mono {a b o : Nat} (w : Nat) (ho : 0 < o) (h₁ : o ≤ a) (h₂ : a ≤ b) :
    roundMag ((a - o) * w) (a + o) ≤ roundMag ((b - o) * w) (b + o) := by
  refine roundMag_mono (by omega) (by omega) ?_
  obtain ⟨u, rfl⟩ := Nat.exists_eq_add_of_le h₁
  obtain ⟨v, rfl⟩ := Nat.exists_eq_add_of_le h₂
  simp only [Nat.add_sub_cancel_left, Nat.add_assoc]
  have : u * (o + (u + (v + o))) ≤ (u + v) * (o + (u + o)) := by nlinarith
  calc u * w * (o + (u + (v + o))) = u * (o + (u + (v + o))) * w := by ring
    _ ≤ (u + v) * (o + (u + o)) * w := Nat.mul_le_mul_right _ this
    _ = _ := by ring

theorem tanhMid_mono {n n' : Nat} (h : n ≤ n') : tanhMid n ≤ tanhMid n' :=
  roundMag_ratio_mono _ (by decide) (fixOne_le_fixE _) (fixE_mono (Nat.mul_le_mul_right _ h))

theorem tanhMid_le (n : Nat) : tanhMid n ≤ magBits lit1 := by
  have ho : 0 < fixOne := by decide
  unfold tanhMid
  refine roundMag_le (by omega) (by decide) ?_
  have : unitsOfMag (magBits lit1) = 2 ^ 149 := by decide
  rw [this, Nat.mul_comm]
  exact Nat.mul_le_mul_left _ (by omega)

/-- The reference tanh at 2^-13 is 2^-13. -/
theorem tanhMid_smallArg : unitsOfMag (tanhMid smallArg) = smallArg := by decide +kernel

theorem tanhRef_cases (x : F32) :
    (magUnits x < smallArg ∧ tanhRef x = x) ∨ (10 * 2 ^ 149 ≤ magUnits x ∧ tanhRef x = lit1) ∨
      (smallArg ≤ magUnits x ∧ magUnits x < 10 * 2 ^ 149 ∧ tanhRef x = pack false (tanhMid (magUnits x))) := by
  unfold tanhRef
  split
  · exact .inl ⟨‹_›, rfl⟩
  · split
    · exact .inr (.inl ⟨‹_›, rfl⟩)
    · exact .inr (.inr ⟨by omega, by omega, rfl⟩)

/-- The reference tanh of arguments that are not negative is no NaN and does not fall (R143). -/
theorem tanhRef_mono {x y : F32} (hx : isNaN x = false) (sx : signBit x = false)
    (sy : signBit y = false) (h : units x ≤ units y) :
    isNaN (tanhRef x) = false ∧ units (tanhRef x) ≤ units (tanhRef y) := by
  have n₁ : isNaN lit1 = false := by decide
  have u₁ : units lit1 = 2 ^ 149 := by decide
  have m₁ : unitsOfMag (magBits lit1) = 2 ^ 149 := by decide
  have s₁ : (smallArg : Int) ≤ 2 ^ 149 := by decide
  have hmid : ∀ n, isNaN (pack false (tanhMid n)) = false ∧
      units (pack false (tanhMid n)) = (unitsOfMag (tanhMid n) : Int) ∧ unitsOfMag (tanhMid n) ≤ 2 ^ 149 := by
    intro n
    have hl := tanhMid_le n
    have hi : magBits lit1 ≤ infMag := by decide
    have := infMag_lt
    refine ⟨isNaN_pack _ (by omega), by rw [units_pack _ (by omega)]; rfl, ?_⟩
    rw [← m₁]; exact unitsOfMag_le_iff.2 hl
  have hsm : ∀ n, smallArg ≤ n → (smallArg : Int) ≤ unitsOfMag (tanhMid n) := by
    intro n hn
    rw [← tanhMid_smallArg]
    exact Int.ofNat_le.2 (unitsOfMag_le_iff.2 (tanhMid_mono hn))
  rw [units_of_pos sx, units_of_pos sy] at h
  have ux := units_of_pos sx
  have uy := units_of_pos sy
  rcases tanhRef_cases x with ⟨a, e⟩ | ⟨a, e⟩ | ⟨a, a', e⟩ <;>
    rcases tanhRef_cases y with ⟨b, f⟩ | ⟨b, f⟩ | ⟨b, b', f⟩ <;> rw [e, f]
  · exact ⟨hx, by omega⟩
  · exact ⟨hx, by omega⟩
  · have := hsm _ b; have := hmid (magUnits y); exact ⟨hx, by omega⟩
  · omega
  · exact ⟨n₁, le_rfl⟩
  · omega
  · omega
  · have := hmid (magUnits x); exact ⟨this.1, by omega⟩
  · have hm := unitsOfMag_le_iff.2 (tanhMid_mono (show magUnits x ≤ magUnits y by omega))
    have p := hmid (magUnits x); have q := hmid (magUnits y)
    exact ⟨p.1, by rw [p.2.1, q.2.1]; exact Int.ofNat_le.2 hm⟩

/-- The magnitude tanhF gives, as a function of the argument's magnitude. -/
def tanhMag (i : FnInstance) (m : Nat) : Nat :=
  if m = infMag then magBits lit1
  else match i with
    | .reference => magBits (clampF (tanhRef (pack false m)) lit0 (minF lit1 (pack false m)))
    | .other k => runMax (otherTanhMag k) m

theorem absF_eq_pack (x : F32) : absF x = pack false (magBits x) := by
  apply eq_of_bits <;> simp [magBits_pack _ (magBits_lt x), signBit_pack _ (magBits_lt x)]

theorem tanhF_eq_tanhMag (i : FnInstance) {x : F32} (h : isNaN x = false) :
    tanhF i x = pack (signBit x) (tanhMag i (magBits x)) := by
  unfold tanhF tanhMag isInf
  simp only [h, Bool.false_eq_true, if_false, beq_iff_eq]
  split
  · rfl
  · cases i
    · rw [absF_eq_pack]
    · rfl

theorem magBits_le_of_units {x y : F32} (h₀ : 0 ≤ units x) (h : units x ≤ units y) : magBits x ≤ magBits y := by
  have hx := natAbs_units x
  have hy := natAbs_units y
  unfold magUnits at hx hy
  exact unitsOfMag_le_iff.1 (by omega)

theorem tanhMag_mono (i : FnInstance) {m n : Nat} (h : m ≤ n) (hn : n ≤ infMag) : tanhMag i m ≤ tanhMag i n := by
  have hi := infMag_lt
  have n₀ : isNaN lit0 = false ∧ isNaN lit1 = false ∧ units lit0 = 0 ∧ 0 ≤ units lit1 := by decide
  unfold tanhMag
  by_cases hm : m = infMag
  · rw [if_pos hm, if_pos (by omega)]
  rw [if_neg hm]
  have bd : ∀ l, l ≤ infMag → isNaN (minF lit1 (pack false l)) = false ∧ 0 ≤ units (minF lit1 (pack false l)) ∧
      units (minF lit1 (pack false l)) ≤ units lit1 := by
    intro l hl
    have hnan : isNaN (pack false l) = false := isNaN_pack _ hl
    have hu : units (pack false l) = (unitsOfMag l : Int) := by rw [units_pack _ (by omega)]; rfl
    unfold minF
    split
    · rename_i hc; exact ⟨hnan, by omega, (fLt_iff.1 hc).2.2.le⟩
    · exact ⟨n₀.2.1, n₀.2.2.2, le_rfl⟩
  cases i with
  | other k =>
    by_cases hn' : n = infMag
    · rw [if_pos hn']; exact le_trans (runMax_otherTanhMag_le k m) (Nat.min_le_right _ _)
    · rw [if_neg hn']; exact runMax_mono _ h
  | reference =>
    dsimp only
    obtain ⟨b₁, b₂, b₃⟩ := bd m (by omega)
    have w := within_iff.1 (clampF_within (x := tanhRef (pack false m)) (lo := lit0) (hi := minF lit1 (pack false m))
      (fLe_iff.2 ⟨n₀.1, b₁, by omega⟩))
    by_cases hn' : n = infMag
    · rw [if_pos hn']; exact magBits_le_of_units (by omega) (by omega)
    · rw [if_neg hn']
      refine magBits_le_of_units (by omega) ?_
      have hu : ∀ l, l ≤ infMag → units (pack false l) = (unitsOfMag l : Int) := fun l hl => by
        rw [units_pack _ (by omega)]; rfl
      have hle := unitsOfMag_le_iff.2 h
      have hx := isNaN_pack false (show m ≤ infMag by omega)
      have hy := isNaN_pack false hn
      have sg : ∀ l, l ≤ infMag → signBit (pack false l) = false := fun l hl => signBit_pack _ (by omega)
      have um := hu m (by omega)
      have un := hu n hn
      obtain ⟨t₁, t₂⟩ := tanhRef_mono hx (sg m (by omega)) (sg n hn) (by omega)
      obtain ⟨t₃, -⟩ := tanhRef_mono hy (sg n hn) (sg n hn) le_rfl
      obtain ⟨c₁, c₂, c₃⟩ := bd n hn
      refine clampF_mono t₁ t₃ b₁ n₀.1 t₂ le_rfl ?_ (by omega)
      unfold minF
      split_ifs <;> simp only [fLt_iff, hx, hy, n₀.2.1, true_and] at * <;> omega

/-- tanhF does not fall, for every instance (R143). -/
theorem tanhF_mono (i : FnInstance) {x y : F32} (h : fLe x y = true) : fLe (tanhF i x) (tanhF i y) = true := by
  obtain ⟨hx, hy, hu⟩ := fLe_iff.1 h
  have wx := within_iff.1 (tanhF_within i hx)
  have wy := within_iff.1 (tanhF_within i hy)
  refine fLe_iff.2 ⟨wx.2.2.1, wy.2.2.1, ?_⟩
  have mx := isNaN_false_iff.1 hx
  have my := isNaN_false_iff.1 hy
  have small : ∀ m, m ≤ infMag → tanhMag i m < 2 ^ 31 := by
    intro m hm
    have h₁ := tanhMag_mono i hm le_rfl
    have h₂ : tanhMag i infMag = magBits lit1 := by unfold tanhMag; rw [if_pos rfl]
    have := magBits_lt lit1
    omega
  rw [tanhF_eq_tanhMag i hx, tanhF_eq_tanhMag i hy, units_pack _ (small _ mx), units_pack _ (small _ my)]
  unfold units magUnits at hu
  have up : ∀ a b : Nat, b ≤ infMag → unitsOfMag a ≤ unitsOfMag b → unitsOfMag (tanhMag i a) ≤ unitsOfMag (tanhMag i b) :=
    fun a b hb hab => unitsOfMag_le_iff.2 (tanhMag_mono i (unitsOfMag_le_iff.1 hab) hb)
  have z : unitsOfMag 0 = 0 := by decide
  have tz : unitsOfMag (tanhMag i 0) = 0 := by
    cases i with
    | reference => decide +kernel
    | other k =>
      have := runMax_otherTanhMag_le k 0
      have e : tanhMag (.other k) 0 = runMax (otherTanhMag k) 0 := rfl
      rw [e, show runMax (otherTanhMag k) 0 = 0 by omega, z]
  cases hs : signBit x <;> cases ht : signBit y <;> simp only [hs, ht, if_true, if_false, Bool.false_eq_true] at hu ⊢
  · have := up _ _ my (show unitsOfMag (magBits x) ≤ unitsOfMag (magBits y) by omega); omega
  · have := up _ 0 (by omega) (show unitsOfMag (magBits x) ≤ unitsOfMag 0 by omega)
    have := up _ 0 (by omega) (show unitsOfMag (magBits y) ≤ unitsOfMag 0 by omega)
    omega
  · omega
  · have := up _ _ mx (show unitsOfMag (magBits y) ≤ unitsOfMag (magBits x) by omega); omega

/-! ### pow -/

/-- e^r rounded to 152 fraction bits, of the reference power (R144). -/
def fixV (r : Nat) : Nat := (fixExp r + 2 ^ 39) / 2 ^ 40 * 2 ^ 40

theorem fixV_mono {r r' : Nat} (h : r ≤ r') : fixV r ≤ fixV r' :=
  Nat.mul_le_mul_right _ (Nat.div_le_div_right (Nat.add_le_add_right (fixExp_mono h) _))

theorem fixOne_le_fixV (r : Nat) : fixOne ≤ fixV r :=
  le_trans (by decide) (Nat.mul_le_mul_right _ (Nat.div_le_div_right (Nat.add_le_add_right (fixOne_le_fixExp r) _)))

theorem fixV_le {r : Nat} (h : r < fixLn2) : fixV r ≤ 2 * fixOne :=
  le_trans (Nat.mul_le_mul_right _ (Nat.div_le_div_right (Nat.add_le_add_right (fixExp_le h) _))) (by decide)

/-- The reference power as a function of y = e × ln b in fixed point (R144). -/
def powMag (y : Int) : Nat :=
  if 200 < y / fixLn2 then infMag
  else if y / fixLn2 < -400 then 0
  else if 0 ≤ y / fixLn2 + 149 then
    roundMag (fixV (y - y / fixLn2 * fixLn2).toNat * 2 ^ (y / fixLn2 + 149).toNat) fixOne
  else roundMag (fixV (y - y / fixLn2 * fixLn2).toNat) (fixOne * 2 ^ (-(y / fixLn2 + 149)).toNat)

theorem powRef_eq (b e : F32) : powRef b e = pack false (powMag (units e * fixLn (magUnits b) / 2 ^ 149)) := by
  unfold powRef powMag
  dsimp only
  split_ifs <;> rfl

theorem powMag_le (y : Int) : powMag y ≤ infMag := by
  unfold powMag
  split_ifs
  · exact le_rfl
  · exact Nat.zero_le _
  · exact roundMag_le_infMag _ _
  · exact roundMag_le_infMag _ _

/-- v × 2^j rounded, for the mantissa v in units of o and any exponent j. -/
def scaled (v o : Nat) (j : Int) : Nat :=
  if 0 ≤ j then roundMag (v * 2 ^ j.toNat) o else roundMag v (o * 2 ^ (-j).toNat)

theorem scaled_mono {v v' o : Nat} {j : Int} (d : Nat) (ho : 0 < o) (h : v ≤ v' * 2 ^ d) :
    scaled v o j ≤ scaled v' o (j + d) := by
  have hp : ∀ n : Nat, 0 < 2 ^ n := fun n => Nat.pow_pos (by decide)
  unfold scaled
  split
  · rw [if_pos (by omega)]
    refine roundMag_mono ho ho (Nat.mul_le_mul_right _ ?_)
    have e : (j + d).toNat = j.toNat + d := by omega
    rw [e, pow_add, Nat.mul_comm (2 ^ j.toNat), ← Nat.mul_assoc]
    exact Nat.mul_le_mul_right _ h
  · split
    · refine roundMag_mono (Nat.mul_pos ho (hp _)) ho ?_
      have e : d = (j + d).toNat + (-j).toNat := by omega
      calc v * o ≤ v' * 2 ^ d * o := Nat.mul_le_mul_right _ h
        _ = v' * 2 ^ ((j + d).toNat + (-j).toNat) * o := by rw [← e]
        _ = _ := by rw [pow_add]; ring
    · refine roundMag_mono (Nat.mul_pos ho (hp _)) (Nat.mul_pos ho (hp _)) ?_
      have e : (-j).toNat = (-(j + d)).toNat + d := by omega
      calc v * (o * 2 ^ (-(j + d)).toNat) ≤ v' * 2 ^ d * (o * 2 ^ (-(j + d)).toNat) := Nat.mul_le_mul_right _ h
        _ = _ := by rw [e, pow_add]; ring

theorem powMag_mono {y y' : Int} (h : y ≤ y') : powMag y ≤ powMag y' := by
  have hL : (0 : Int) < fixLn2 := by decide
  have hk := Int.ediv_le_ediv hL h
  have r₀ := Int.emod_nonneg y hL.ne'
  have r₁ := Int.emod_lt_of_pos y hL
  have e := Int.emod_add_mul_ediv y fixLn2
  have e' := Int.emod_add_mul_ediv y' fixLn2
  have r₀' := Int.emod_nonneg y' hL.ne'
  have key : scaled (fixV (y - y / fixLn2 * fixLn2).toNat) fixOne (y / fixLn2 + 149) ≤
      scaled (fixV (y' - y' / fixLn2 * fixLn2).toNat) fixOne (y' / fixLn2 + 149) := by
    have hy : y - y / fixLn2 * fixLn2 = y % fixLn2 := by rw [mul_comm]; omega
    have hy' : y' - y' / fixLn2 * fixLn2 = y' % fixLn2 := by rw [mul_comm]; omega
    rw [hy, hy']
    obtain ⟨d, hd⟩ := Int.le.dest hk
    have ed : y' / fixLn2 + 149 = y / fixLn2 + 149 + d := by omega
    rw [ed]
    refine scaled_mono d (by decide) ?_
    rcases Nat.eq_zero_or_pos d with rfl | hd'
    · rw [pow_zero, Nat.mul_one]
      refine fixV_mono ?_
      have : y / fixLn2 = y' / fixLn2 := by omega
      rw [this] at e
      omega
    · calc fixV (y % fixLn2).toNat ≤ 2 * fixOne := fixV_le (by omega)
        _ = fixOne * 2 ^ 1 := by rw [pow_one, Nat.mul_comm]
        _ ≤ _ := Nat.mul_le_mul (fixOne_le_fixV _) (Nat.pow_le_pow_right (by decide) hd')
  have unf : ∀ z : Int, powMag z = if 200 < z / fixLn2 then infMag else if z / fixLn2 < -400 then 0 else
      scaled (fixV (z - z / fixLn2 * fixLn2).toNat) fixOne (z / fixLn2 + 149) := fun z => by
    unfold powMag scaled; rfl
  have top := powMag_le y
  by_cases a : 200 < y' / fixLn2
  · rw [unf y', if_pos a]; exact top
  by_cases c : y / fixLn2 < -400
  · rw [unf y, if_neg (by omega), if_pos c]; exact Nat.zero_le _
  rw [unf y, unf y', if_neg a, if_neg c, if_neg (by omega), if_neg (by omega)]
  exact key

/-- The reference power does not fall in the order of R144. -/
theorem powRef_mono {b e e' : F32} (hb : isFinite b = true) (hp : fGt b lit0 = true)
    (h : units (powOrder b e) ≤ units (powOrder b e')) :
    isNaN (powRef b e) = false ∧ units (powRef b e) ≤ units (powRef b e') := by
  obtain ⟨b₁, b₂, b₃, b₄⟩ := base_facts hb hp
  have hi := infMag_lt
  have u₁ : units lit1 = 2 ^ 149 := by decide
  have ub : units b = (magUnits b : Int) := units_of_one_le b₄
  have n₂ : isNaN lit1 = false := by decide
  have hy : units e * fixLn (magUnits b) / 2 ^ 149 ≤ units e' * fixLn (magUnits b) / 2 ^ 149 := by
    refine Int.ediv_le_ediv (by decide) ?_
    unfold powOrder at h
    by_cases hl : fLt b lit1 = true
    · have := (fLt_iff.1 hl).2.2
      simp only [hl, if_true, units_fNeg] at h
      exact Int.mul_le_mul_of_nonpos_right (by omega) (fixLn_nonpos (by omega) (by omega))
    · have hl' : ¬units b < units lit1 := fun hc => hl (fLt_iff.2 ⟨b₁, n₂, hc⟩)
      simp only [hl, if_false, Bool.false_eq_true] at h
      exact Int.mul_le_mul_of_nonneg_right h (fixLn_nonneg (by omega))
  have q := powMag_le (units e * fixLn (magUnits b) / 2 ^ 149)
  have q' := powMag_le (units e' * fixLn (magUnits b) / 2 ^ 149)
  rw [powRef_eq, powRef_eq, units_pack _ (by omega), units_pack _ (by omega)]
  refine ⟨isNaN_pack _ q, ?_⟩
  simp only [Bool.false_eq_true, if_false]
  exact Int.ofNat_le.2 (unitsOfMag_le_iff.2 (powMag_mono hy))

/-- The powers of two exponents other than 0 and 1, in the order of R144, for every instance. -/
theorem powF_mono_inner (i : FnInstance) {b e e' : F32} (hb : isFinite b = true) (hp : fGt b lit0 = true)
    (he : isFinite e = true) (he' : isFinite e' = true) (h₁ : units b ≠ units lit1)
    (z : magBits e ≠ 0) (z' : magBits e' ≠ 0) (o : e ≠ lit1) (o' : e' ≠ lit1)
    (h : units (powOrder b e) ≤ units (powOrder b e')) : units (powF i b e) ≤ units (powF i b e') := by
  have hn := isFinite_not_isNaN he
  have hn' := isFinite_not_isNaN he'
  have hb₁ : b ≠ lit1 := fun hc => h₁ (by rw [hc])
  unfold powF
  simp only [hb, he, he', hp, Bool.not_true, Bool.or_self, Bool.false_eq_true, if_false, beq_iff_eq, z, z', o, o', hb₁]
  cases i with
  | reference =>
    obtain ⟨l₁, l₂, l₃, l₄⟩ := powLo_le_powHi (e := e) hb hp
    obtain ⟨l₁', l₂', l₃', l₄'⟩ := powLo_le_powHi (e := e') hb hp
    obtain ⟨m₁, m₂⟩ := pow_bounds_mono hb hp hn hn' h
    exact clampF_mono (powRef_mono hb hp h).1 (powRef_mono hb hp le_rfl).1 l₂ l₁' (powRef_mono hb hp h).2 m₁ m₂ l₄'
  | other k =>
    have hi := infMag_lt
    have r := runMax_otherPowMag k hb hp hn
    have r' := runMax_otherPowMag k hb hp hn'
    have t := isNaN_false_iff.1 (powLo_le_powHi (e := e) hb hp).2.1
    have t' := isNaN_false_iff.1 (powLo_le_powHi (e := e') hb hp).2.1
    dsimp only
    rw [units_pack _ (by omega), units_pack _ (by omega)]
    simp only [Bool.false_eq_true, if_false]
    exact Int.ofNat_le.2 (unitsOfMag_le_iff.2 (runMax_mono _ (placeOf_mono (by simpa using hn) (by simpa using hn') h)))

/-- Where powF lies on either side of the exponents 0 and 1, for every instance (R144). -/
theorem powF_sides (i : FnInstance) {b e : F32} (hb : isFinite b = true) (hp : fGt b lit0 = true)
    (he : isFinite e = true) :
    isNaN (powF i b e) = false ∧ (units e = 0 → units (powF i b e) = units lit1) ∧
      (units e = units lit1 → units (powF i b e) = units b) ∧
      (units lit1 < units b →
        (units e < 0 → units (powF i b e) ≤ units lit1) ∧ (0 < units e → units lit1 ≤ units (powF i b e)) ∧
          (units e < units lit1 → units (powF i b e) ≤ units b) ∧ (units lit1 < units e → units b ≤ units (powF i b e))) ∧
      (units b < units lit1 →
        (units e < 0 → units lit1 ≤ units (powF i b e)) ∧ (0 < units e → units (powF i b e) ≤ units lit1) ∧
          (units e < units lit1 → units b ≤ units (powF i b e)) ∧
          (units lit1 < units e → units (powF i b e) ≤ units b)) := by
  obtain ⟨b₁, b₂, b₃, b₄⟩ := base_facts hb hp
  obtain ⟨n₁, n₂, n₃, n₄, n₅, n₆, n₇, n₈⟩ := pow_numerals
  have hn := isFinite_not_isNaN he
  have ha := natAbs_units e
  have z : unitsOfMag 0 = 0 := by decide
  have s₁ : signBit lit1 = false := by decide
  unfold magUnits at ha
  by_cases hz : magBits e = 0
  · have hv : powF i b e = lit1 := by simp [powF, hb, he, hp, hz]
    rw [hz, z] at ha
    rw [hv]
    refine ⟨n₂, fun _ => rfl, ?_, ?_, ?_⟩ <;> omega
  have hnz : units e ≠ 0 := fun hc => hz (Nat.le_zero.1 (unitsOfMag_le_iff.1 (by omega)))
  by_cases ho : e = lit1
  · have hv : powF i b e = b := by subst ho; simp [powF, hb, he, hp, hz]
    rw [hv, ho]
    refine ⟨b₁, ?_, fun _ => rfl, ?_, ?_⟩ <;> omega
  have hno : units e ≠ units lit1 := by
    intro hc
    have se : signBit e = false := by
      cases hs : signBit e
      · rfl
      · rw [units_of_neg hs] at hc; omega
    refine ho (eq_of_bits (by rw [se, s₁]) ?_)
    have hl := natAbs_units lit1
    unfold magUnits at hl
    exact unitsOfMag_inj.1 (by omega)
  have w := within_iff.1 (powF_bounds i hb hp he hz ho)
  generalize powF i b e = v at *
  refine ⟨w.2.2.1, fun hc => absurd hc hnz, fun hc => absurd hc hno, ?_⟩
  have wl := w.2.2.2.1
  have wh := w.2.2.2.2
  clear w ha
  unfold powLo at wl
  unfold powHi at wh
  split_ifs at wl wh <;> simp only [fGt_iff, fLt_iff, b₁, hn, n₁, n₂, true_and] at * <;> constructor <;> intro _ <;>
    refine ⟨?_, ?_, ?_, ?_⟩ <;> intro _ <;> omega

/-- The order of two values from their sides, for a base L < B. -/
theorem sides_rising {u u' v v' L B : Int} (hL : 0 < L) (hB : L < B) (a : u = 0 → v = L) (b : u = L → v = B)
    (c : (u < 0 → v ≤ L) ∧ (0 < u → L ≤ v) ∧ (u < L → v ≤ B) ∧ (L < u → B ≤ v)) (a' : u' = 0 → v' = L)
    (b' : u' = L → v' = B) (c' : (u' < 0 → v' ≤ L) ∧ (0 < u' → L ≤ v') ∧ (u' < L → v' ≤ B) ∧ (L < u' → B ≤ v'))
    (h : u ≤ u') (hi : u = 0 ∨ u' = 0 ∨ u = L ∨ u' = L) : v ≤ v' := by
  rcases hi with rfl | rfl | rfl | rfl
  · rcases Int.lt_or_eq_of_le h with h | h <;> omega
  · rcases Int.lt_or_eq_of_le h with h | h <;> omega
  · rcases Int.lt_or_eq_of_le h with h | h <;> omega
  · rcases Int.lt_or_eq_of_le h with h | h <;> omega

/-- The same for a base B < L. -/
theorem sides_falling {u u' v v' L B : Int} (hL : 0 < L) (hB : B < L) (a : u = 0 → v = L) (b : u = L → v = B)
    (c : (u < 0 → L ≤ v) ∧ (0 < u → v ≤ L) ∧ (u < L → B ≤ v) ∧ (L < u → v ≤ B)) (a' : u' = 0 → v' = L)
    (b' : u' = L → v' = B) (c' : (u' < 0 → L ≤ v') ∧ (0 < u' → v' ≤ L) ∧ (u' < L → B ≤ v') ∧ (L < u' → v' ≤ B))
    (h : u' ≤ u) (hi : u = 0 ∨ u' = 0 ∨ u = L ∨ u' = L) : v ≤ v' := by
  rcases hi with rfl | rfl | rfl | rfl
  · rcases Int.lt_or_eq_of_le h with h | h <;> omega
  · rcases Int.lt_or_eq_of_le h with h | h <;> omega
  · rcases Int.lt_or_eq_of_le h with h | h <;> omega
  · rcases Int.lt_or_eq_of_le h with h | h <;> omega

/-- powF does not fall in the order of R144, that is as the exponent rises for b > 1 and as it falls for b < 1, for
every instance. -/
theorem powF_mono (i : FnInstance) {b e e' : F32} (hb : isFinite b = true) (hp : fGt b lit0 = true)
    (he : isFinite e = true) (he' : isFinite e' = true) (h₁ : units b ≠ units lit1)
    (h : units (powOrder b e) ≤ units (powOrder b e')) : fLe (powF i b e) (powF i b e') = true := by
  obtain ⟨b₁, b₂, b₃, b₄⟩ := base_facts hb hp
  obtain ⟨n₁, n₂, n₃, n₄, n₅, n₆, n₇, n₈⟩ := pow_numerals
  obtain ⟨v₁, v₂, v₃, v₄, v₅⟩ := powF_sides i hb hp he
  obtain ⟨w₁, w₂, w₃, w₄, w₅⟩ := powF_sides i hb hp he'
  have inner := powF_mono_inner i hb hp he he' h₁
  refine fLe_iff.2 ⟨v₁, w₁, ?_⟩
  have zero : ∀ x : F32, units x = 0 ∨ magBits x ≠ 0 := by
    intro x
    have := natAbs_units x
    have z : unitsOfMag 0 = 0 := by decide
    unfold magUnits at this
    by_cases hx : magBits x = 0
    · rw [hx, z] at this; exact .inl (by omega)
    · exact .inr hx
  have one : ∀ x : F32, x = lit1 → units x = units lit1 := fun x hx => by rw [hx]
  have hL : 0 < units lit1 := Int.lt_trans (by decide) n₇
  by_cases hi : units e = 0 ∨ units e' = 0 ∨ units e = units lit1 ∨ units e' = units lit1
  · unfold powOrder at h
    by_cases hl : fLt b lit1 = true
    · have hB := (fLt_iff.1 hl).2.2
      simp only [hl, if_true, units_fNeg] at h
      exact sides_falling hL hB v₂ v₃ (v₅ hB) w₂ w₃ (w₅ hB) (neg_le_neg_iff.1 h) hi
    · have hB : units lit1 < units b :=
        lt_of_le_of_ne (not_lt.1 fun hc => hl (fLt_iff.2 ⟨b₁, n₂, hc⟩)) (Ne.symm h₁)
      simp only [hl, if_false, Bool.false_eq_true] at h
      exact sides_rising hL hB v₂ v₃ (v₄ hB) w₂ w₃ (w₄ hB) h hi
  · simp only [not_or] at hi
    exact inner ((zero e).resolve_left hi.1) ((zero e').resolve_left hi.2.1) (fun hc => hi.2.2.1 (one e hc))
      (fun hc => hi.2.2.2 (one e' hc)) h

end Sys2Proof.Laws
end

