-- ==== Sys2Proof/Laws/Nearest.lean ====
section
/-!
SUPPORT. Rounding to nearest (40_numerics.md R141): the rounded magnitude is nearest to the exact one, and even at a tie;
strict bounds that a value rounds above or below.
-/

namespace Sys2Proof.Laws

open Sys2Proof.Machine

/-- What `roundRaw` answers: a multiple R × Q of the unit Q in the last place, at most half of Q away, even at a tie,
with the next magnitudes at least Q away on each side that the exact value can lie on. -/
theorem roundRaw_spec (p q : Nat) (hq : 0 < q) : ∃ Q R : Nat, 0 < Q ∧ unitsOfMag (roundRaw p q) * q = R * Q ∧
    2 * (R * Q) ≤ 2 * p + Q ∧ 2 * p ≤ 2 * (R * Q) + Q ∧
    (2 * (R * Q) = 2 * p + Q ∨ 2 * p = 2 * (R * Q) + Q → roundRaw p q % 2 = 0) ∧
    R * Q + Q ≤ unitsOfMag (roundRaw p q + 1) * q ∧
    (p < R * Q → ∀ m, m < roundRaw p q → unitsOfMag m * q + Q ≤ R * Q) := by
  set k := Nat.log2 (p / q) - 23 with hk
  have hQ : 0 < q * 2 ^ k := by positivity
  have s₁ := shift_lt p q hq
  have s₂ := shift_ge p q hq
  rw [← hk] at s₁ s₂
  set R := roundQuot p (q * 2 ^ k) with hR
  have hr : roundRaw p q = k * 2 ^ 23 + R := rfl
  have hR₁ : R ≤ 2 ^ 24 := roundQuot_le_of_le hQ s₁.le
  have hR₂ : 0 < k → 2 ^ 23 ≤ R := fun h => le_roundQuot_of_le hQ (s₂ h)
  have val : ∀ n, n ≤ 2 ^ 24 → (0 < k → 2 ^ 23 ≤ n) → unitsOfMag (k * 2 ^ 23 + n) = n * 2 ^ k := by
    intro n h₁ h₂
    rcases Nat.lt_or_ge n (2 ^ 24) with h | h
    · rcases Nat.eq_zero_or_pos k with h0 | h0
      · rw [h0]; simpa using unitsOfMag_small n h
      · exact unitsOfMag_eq k n (h₂ h0) h
    · have : n = 2 ^ 24 := by omega
      subst this
      have : k * 2 ^ 23 + 2 ^ 24 = (k + 1) * 2 ^ 23 + 2 ^ 23 := by ring
      rw [this, unitsOfMag_eq (k + 1) _ (by omega) (by omega), pow_succ]; ring
  have e₁ := roundQuot_le p (q * 2 ^ k) hQ
  have e₂ := le_roundQuot p (q * 2 ^ k) hQ
  rw [← hR] at e₁ e₂
  refine ⟨q * 2 ^ k, R, hQ, ?_, by nlinarith, by nlinarith, ?_, ?_, ?_⟩
  · rw [hr, val R hR₁ hR₂]; ring
  · intro h
    have := roundQuot_tie p (q * 2 ^ k) hQ (h.imp (fun h => by rw [← hR]; linarith) (fun h => by rw [← hR]; linarith))
    rw [hr, ← hR] at *; omega
  · have : (R + 1) * 2 ^ k ≤ unitsOfMag (k * 2 ^ 23 + (R + 1)) := by
      rcases Nat.lt_or_ge R (2 ^ 24) with h | h
      · exact (val (R + 1) (by omega) (fun h0 => by have := hR₂ h0; omega)).ge
      · have hR₃ : R = 2 ^ 24 := by omega
        rw [hR₃]
        have e : k * 2 ^ 23 + (2 ^ 24 + 1) = (k + 1) * 2 ^ 23 + (2 ^ 23 + 1) := by ring
        have e₂ : (2 : Nat) ^ (k + 1) = 2 * 2 ^ k := by ring
        rw [e, unitsOfMag_eq (k + 1) _ (by omega) (by omega), e₂]
        omega
    rw [hr, Nat.add_assoc]
    calc R * (q * 2 ^ k) + q * 2 ^ k = (R + 1) * 2 ^ k * q := by ring
      _ ≤ _ := Nat.mul_le_mul_right q this
  · intro hlt m hm
    have hR₃ : 0 < R := by
      rcases Nat.eq_zero_or_pos R with h | h
      · rw [h] at hlt; simp at hlt
      · exact h
    have hR₄ : 0 < k → 2 ^ 23 ≤ R - 1 := by
      intro h0
      have := s₂ h0
      have h' := hR₂ h0
      rcases Nat.lt_or_ge (2 ^ 23) R with h | h
      · omega
      · have : R = 2 ^ 23 := by omega
        rw [this] at hlt; omega
    have : unitsOfMag m ≤ unitsOfMag (k * 2 ^ 23 + (R - 1)) := unitsOfMag_le_iff.2 (by rw [hr] at hm; omega)
    rw [val (R - 1) (by omega) hR₄] at this
    calc unitsOfMag m * q + q * 2 ^ k ≤ (R - 1) * 2 ^ k * q + q * 2 ^ k :=
          Nat.add_le_add_right (Nat.mul_le_mul_right q this) _
      _ = (R - 1 + 1) * (q * 2 ^ k) := by ring
      _ = _ := by rw [Nat.sub_add_cancel hR₃]

/-- No magnitude is nearer to p / q than the rounded one, and one as near as it leaves it even. -/
theorem roundRaw_nearest (p q : Nat) (hq : 0 < q) (m : Nat) :
    ((unitsOfMag (roundRaw p q) * q : Nat) - (p : Int)).natAbs ≤ ((unitsOfMag m * q : Nat) - (p : Int)).natAbs ∧
      (((unitsOfMag (roundRaw p q) * q : Nat) - (p : Int)).natAbs = ((unitsOfMag m * q : Nat) - (p : Int)).natAbs →
        m ≠ roundRaw p q → roundRaw p q % 2 = 0) := by
  obtain ⟨Q, R, hQ, hu, h₁, h₂, ht, hup, hdn⟩ := roundRaw_spec p q hq
  rw [hu]
  rcases Nat.lt_trichotomy m (roundRaw p q) with h | h | h
  · rcases Nat.lt_or_ge p (R * Q) with hp | hp
    · have := hdn hp m h
      refine ⟨by omega, fun e _ => ht (.inl (by omega))⟩
    · have : unitsOfMag m * q < R * Q := by
        rw [← hu]; exact Nat.mul_lt_mul_of_pos_right (unitsOfMag_lt_iff.2 h) hq
      refine ⟨by omega, fun e _ => absurd e (by omega)⟩
  · subst h; rw [hu]; exact ⟨le_rfl, fun _ h => absurd rfl h⟩
  · have : unitsOfMag (roundRaw p q + 1) * q ≤ unitsOfMag m * q := Nat.mul_le_mul_right q (unitsOfMag_le_iff.2 h)
    refine ⟨by omega, fun e _ => ht (.inr (by omega))⟩

/-- A sign and a magnitude as an integer. -/
theorem signed_sub_natAbs (s : Bool) (a b : Nat) : (signed s a - signed s b).natAbs = ((a : Int) - b).natAbs := by
  cases s <;> simp [signed]; omega

/-- The rounded value is the nearest f32 to the exact one, ties to even. -/
theorem roundTo_nearest {s : Bool} {p q : Nat} (hq : 0 < q) (hf : isFinite (roundTo s p q) = true) (z : F32) :
    (units (roundTo s p q) * q - signed s p).natAbs ≤ (units z * q - signed s p).natAbs ∧
      ((units (roundTo s p q) * q - signed s p).natAbs = (units z * q - signed s p).natAbs →
        units z ≠ units (roundTo s p q) → magBits (roundTo s p q) % 2 = 0) := by
  have hm : roundMag p q = roundRaw p q := by
    have := isFinite_iff.1 hf
    rw [magBits_roundTo, roundMag_eq] at this
    rw [roundMag_eq]; omega
  have hu : units (roundTo s p q) = signed s (unitsOfMag (roundRaw p q)) := by
    rw [units_roundTo, hm]; rfl
  have hmul : ∀ a : Nat, signed s a * (q : Int) = signed s (a * q) := by intro a; cases s <;> simp [signed]
  rw [hu, hmul, magBits_roundTo, hm, signed_sub_natAbs]
  have key := roundRaw_nearest p q hq (magBits z)
  have hz : units z = signed s (magUnits z) ∨ units z = -signed s (magUnits z) := by
    unfold units signed; cases s <;> cases signBit z <;> simp
  rcases hz with hz | hz
  · rw [hz, hmul, signed_sub_natAbs]
    refine ⟨key.1, fun e ne => key.2 e ?_⟩
    rintro e'
    apply ne
    unfold magUnits; rw [e']
  · have hd : (-signed s (magUnits z) * (q : Int) - signed s p).natAbs = magUnits z * q + p := by
      rw [neg_mul, hmul]; cases s <;> simp [signed] <;> omega
    have k0 := roundRaw_nearest p q hq 0
    have z0 : unitsOfMag 0 = 0 := by decide
    rw [z0] at k0
    rw [hz, hd]
    rw [Nat.zero_mul] at k0
    have k1 := k0.1
    refine ⟨by omega, fun e ne => k0.2 (by omega) ?_⟩
    intro h0
    have hz0 : magUnits z * q = 0 := by
      rw [← h0, z0, Nat.zero_mul] at e
      have : (((0 : Nat) : Int) - (p : Int)).natAbs = p := by omega
      omega
    apply ne
    have : magUnits z = 0 := by
      rcases Nat.mul_eq_zero.1 hz0 with h | h
      · exact h
      · omega
    rw [this, ← h0, z0]; cases s <;> simp [signed]

/-- A quotient no larger than the largest finite f32 rounds to a finite f32. -/
theorem isFinite_roundTo {s : Bool} {p q : Nat} (hq : 0 < q) (h : p ≤ magUnits 0x7F7FFFFF * q) :
    isFinite (roundTo s p q) = true := by
  rw [isFinite_iff, magBits_roundTo]
  have := roundMag_le hq (show magBits 0x7F7FFFFF ≤ infMag by decide) h
  have : magBits 0x7F7FFFFF < infMag := by decide
  omega

/-- A decimal as one rounding of a quotient, whatever the sign of its exponent (30_encoding.md R138). -/
theorem f32OfDecimal_eq (neg : Bool) (digits : Nat) (exp10 : Int) :
    f32OfDecimal neg digits exp10 =
      roundTo neg (digits * 10 ^ exp10.toNat * 2 ^ 149) (10 ^ (-exp10).toNat) := by
  unfold f32OfDecimal
  split
  · rename_i h; rw [show (-exp10).toNat = 0 by omega, pow_zero]
  · rename_i h; rw [show exp10.toNat = 0 by omega, pow_zero, mul_one]

theorem magUnits_pos {x : F32} (h : magBits x ≠ 0) : 0 < magUnits x := by
  have z : unitsOfMag 0 = 0 := by decide
  have := unitsOfMag_lt_iff.2 (Nat.pos_of_ne_zero h)
  unfold magUnits; omega

/-- A quotient is the nearest f32 to the exact one, ties to even. -/
theorem fDiv_nearest {x y : F32} (hx : isFinite x = true) (hy : isFinite y = true) (h0 : magBits y ≠ 0)
    (hf : isFinite (fDiv x y) = true) (z : F32) :
    (units (fDiv x y) * units y - units x * 2 ^ 149).natAbs ≤ (units z * units y - units x * 2 ^ 149).natAbs ∧
      ((units (fDiv x y) * units y - units x * 2 ^ 149).natAbs = (units z * units y - units x * 2 ^ 149).natAbs →
        units z ≠ units (fDiv x y) → magBits (fDiv x y) % 2 = 0) := by
  rw [fDiv_finite hx hy h0] at hf ⊢
  have n := roundTo_nearest (magUnits_pos h0) hf z
  generalize roundTo (signBit x != signBit y) (magUnits x * 2 ^ 149) (magUnits y) = r at *
  have key : ∀ u : Int, (u * units y - units x * 2 ^ 149).natAbs =
      (u * (magUnits y : Int) - signed (signBit x != signBit y) (magUnits x * 2 ^ 149)).natAbs := by
    intro u
    unfold units signed
    cases signBit x <;> cases signBit y <;> simp <;> omega
  rw [key, key]
  exact n

end Sys2Proof.Laws
end

