-- ==== Sys2Proof/Laws/PerInstr.lean ====
section
/-!
SUPPORT. The family OpcodeRow: every command has a row of 30_encoding.md R132, and its frame carries the row's opcode and
the command's operand field (R130, R138).
-/

namespace Sys2Proof.Laws.OpcodeRow

open Sys2Proof.Machine

/-- The frame of i carries its opcode and operand field, and the opcode is assigned. -/
def Statement (i : Instr) : Prop :=
  i.wellFormed = true ∧ opcodeOf (encode i) = i.opcode ∧ operandField (encode i) = i.field ∧
    (operandTypeOf i.opcode).isSome = true

theorem of_assigned {i : Instr} (h : (operandTypeOf i.opcode).isSome = true) : Statement i :=
  ⟨rfl, opcodeOf_frameOf _ _, operandField_frameOf _ _, h⟩

theorem nop : Statement .nop := of_assigned rfl
theorem setAttack (x : F32) : Statement (.setAttack x) := of_assigned rfl
theorem setDecay (x : F32) : Statement (.setDecay x) := of_assigned rfl
theorem setSpread (x : F32) : Statement (.setSpread x) := of_assigned rfl
theorem setCascade (x : F32) : Statement (.setCascade x) := of_assigned rfl
theorem setWavefold (x : F32) : Statement (.setWavefold x) := of_assigned rfl
theorem setChaos (x : F32) : Statement (.setChaos x) := of_assigned rfl
theorem setFmIndex (x : F32) : Statement (.setFmIndex x) := of_assigned rfl
theorem setFmRatio (x : F32) : Statement (.setFmRatio x) := of_assigned rfl
theorem setFmFeedback (x : F32) : Statement (.setFmFeedback x) := of_assigned rfl
theorem setFmFold (x : F32) : Statement (.setFmFold x) := of_assigned rfl
theorem setResFeedback (x : F32) : Statement (.setResFeedback x) := of_assigned rfl
theorem setResDamp (x : F32) : Statement (.setResDamp x) := of_assigned rfl
theorem setResMix (x : F32) : Statement (.setResMix x) := of_assigned rfl
theorem setVerbExcite (x : F32) : Statement (.setVerbExcite x) := of_assigned rfl
theorem setFrequency (f : F32) : Statement (.setFrequency f) := of_assigned rfl
theorem setVoice (v : Word) : Statement (.setVoice v) := of_assigned rfl
theorem gate (b : Bool) : Statement (.gate b) := of_assigned rfl
theorem noteOn (f : F32) : Statement (.noteOn f) := of_assigned rfl
theorem noteOff : Statement .noteOff := of_assigned rfl
theorem process : Statement .process := of_assigned rfl
theorem getOutputLevel : Statement .getOutputLevel := of_assigned rfl
theorem isPlaying : Statement .isPlaying := of_assigned rfl
theorem getCurrentFreq : Statement .getCurrentFreq := of_assigned rfl
theorem getEnvStage : Statement .getEnvStage := of_assigned rfl
theorem getEnvLevel : Statement .getEnvLevel := of_assigned rfl
theorem getResBaseFreq : Statement .getResBaseFreq := of_assigned rfl
theorem getResDelayLen (sel : Word) : Statement (.getResDelayLen sel) := of_assigned rfl
theorem readReg (id : Word) : Statement (.readReg id) := of_assigned rfl

end Sys2Proof.Laws.OpcodeRow
end

