-- ==== Sys2Proof/Laws/Rates.lean ====
section
/-!
SUPPORT. The envelope's rates under the default parameters, and the gap between neighbouring f32 below 1.0
(40_numerics.md R165, 41_envelope.md R170, R171, R177).
-/

namespace Sys2Proof.Laws

open Sys2Proof.Machine

/-- Below 1.0 neighbouring f32 are at most 2^-24 apart. -/
theorem gap_below_one {m : Nat} (h : m < magBits lit1) : unitsOfMag (m + 1) ≤ unitsOfMag m + 2 ^ 125 := by
  have e1 : magBits lit1 = 127 * 2 ^ 23 := by decide
  rw [e1] at h
  rcases unitsOfMag_cases m with ⟨h1, e⟩ | ⟨k, n, hk, h₁, h₂, rfl, e⟩
  · rcases Nat.lt_or_ge (m + 1) (2 ^ 24) with h' | h'
    · rw [e, unitsOfMag_small _ h']; omega
    · have : m + 1 = 1 * 2 ^ 23 + 2 ^ 23 := by omega
      rw [e, this, unitsOfMag_eq 1 _ (by omega) (by omega)]; omega
  · have hk2 : k ≤ 125 := by omega
    have hp : (2:Nat) ^ k ≤ 2 ^ 125 := Nat.pow_le_pow_right (by omega) hk2
    rcases Nat.lt_or_ge (n + 1) (2 ^ 24) with h' | h'
    · rw [e, Nat.add_assoc, unitsOfMag_eq k _ (by omega) h']
      have : (n + 1) * 2 ^ k = n * 2 ^ k + 2 ^ k := by ring
      omega
    · have h3 : k * 2 ^ 23 + n + 1 = (k + 1) * 2 ^ 23 + 2 ^ 23 := by omega
      have hn : n = 2 ^ 24 - 1 := by omega
      have e3 : 2 ^ 23 * 2 ^ (k + 1) = 2 ^ 24 * (2:Nat) ^ k := by ring
      rw [e, h3, unitsOfMag_eq (k + 1) _ (by omega) (by omega), e3, hn]
      omega

/-- The exponential map lies between lo and lo × ratio, for ratio above 1 (40_numerics.md R165). -/
theorem expMap_within {c : Params} {x lo ratio hi : F32} (hx : within lit0 lit1 x = true) (hl : isFinite lo = true)
    (hl0 : 0 ≤ units lo) (hr : isFinite ratio = true) (h1 : fGt ratio lit1 = true) (el : fMul lo lit1 = lo)
    (eh : fMul lo ratio = hi) (hh : isFinite hi = true) : within lo hi (expMap c x lo ratio) = true := by
  have e0 : units lit0 = 0 := by decide
  have e1 : 0 < units lit1 := by decide
  have n1 : isNaN lit1 = false := by decide
  have hg := fGt_iff.1 h1
  have hp := powF_within c.fns (b := ratio) hr
    (fGt_iff.2 ⟨isFinite_not_isNaN hr, by decide, by omega⟩) (by omega) hx
  have m1 : minF lit1 ratio = lit1 := by
    unfold minF
    rw [if_neg]
    rw [fLt_iff]
    omega
  have m2 : maxF lit1 ratio = ratio := if_pos h1
  rw [m1, m2] at hp
  have fp := isFinite_of_within hp (by decide) hr
  have hp' := within_iff.1 hp
  have lo' := fMul_mono (x := lo) (y := lit1) (x' := lo) (y' := powF c.fns ratio x) hl (by decide) hl fp (by decide) hl0
    le_rfl hp'.2.2.2.1
  have hi' := fMul_mono (x := lo) (y := powF c.fns ratio x) (x' := lo) (y' := ratio) hl fp hl hr (by omega) hl0 le_rfl
    hp'.2.2.2.2
  rw [el] at lo'
  rw [eh] at hi'
  exact within_iff.2 ⟨isFinite_not_isNaN hl, isFinite_not_isNaN hh, isNaN_fMul hl fp, lo', hi'⟩

/-- The attack time is in [0.001, 2] (41_envelope.md R170). -/
theorem attackTime_within (c : Params) {x : F32} (hx : within lit0 lit1 x = true) :
    within lit0_001 0x40000000 (expMap c x lit0_001 lit2000) = true :=
  expMap_within hx (by decide) (by decide) (by decide) (by decide) (by decide +kernel) (by decide +kernel) (by decide)

/-- The decay time is in [0.01, 8] (41_envelope.md R171). -/
theorem decayTime_within (c : Params) {x : F32} (hx : within lit0 lit1 x = true) :
    within lit0_01 0x41000000 (expMap c x lit0_01 lit800) = true :=
  expMap_within hx (by decide) (by decide) (by decide) (by decide) (by decide +kernel) (by decide +kernel) (by decide)

/-- One over a time in [a, b] times the default sample rate, between its values at the ends. -/
theorem rate_within {a b t pa pb ra rb : F32} (ht : within a b t = true) (ha : isFinite a = true) (hb : isFinite b = true)
    (ha0 : 0 < units a) (ea : fMul a Params.default.sampleRate = pa) (eb : fMul b Params.default.sampleRate = pb)
    (fa : isFinite pa = true) (fb : isFinite pb = true) (pa0 : 0 < units pa) (era : fDiv lit1 pa = ra)
    (erb : fDiv lit1 pb = rb) (nr : isNaN ra = false) (ns : isNaN rb = false) :
    within rb ra (fDiv lit1 (fMul t Params.default.sampleRate)) = true := by
  have ft := isFinite_of_within ht ha hb
  have fs : isFinite Params.default.sampleRate = true := by decide
  have s0 : 0 ≤ units Params.default.sampleRate := by decide
  have t' := within_iff.1 ht
  have d1 := fMul_mono (x := a) (y := Params.default.sampleRate) (x' := t) (y' := Params.default.sampleRate) ha fs ft fs
    s0 (by omega) t'.2.2.2.1 le_rfl
  have d2 := fMul_mono (x := t) (y := Params.default.sampleRate) (x' := b) (y' := Params.default.sampleRate) ft fs hb fs
    s0 (by omega) t'.2.2.2.2 le_rfl
  rw [ea] at d1
  rw [eb] at d2
  have fd : isFinite (fMul t Params.default.sampleRate) = true := by
    refine isFinite_of_within (lo := pa) (hi := pb) ?_ fa fb
    exact within_iff.2 ⟨isFinite_not_isNaN fa, isFinite_not_isNaN fb, isNaN_fMul ft fs, d1, d2⟩
  have z1 := fDiv_mono (x := lit1) (x' := lit1) (by decide) fb (by decide) fd (by decide) (by omega) le_rfl d2
  have z2 := fDiv_mono (x := lit1) (x' := lit1) (by decide) fd (by decide) fa (by decide) pa0 le_rfl d1
  rw [erb] at z1
  rw [era] at z2
  exact within_iff.2 ⟨ns, nr, z2.1, z1.2, z2.2⟩

/-- The attack rate of every legal ATTACK under the default parameters (41_envelope.md R170). -/
theorem attackRateOf_within {c : Params} (hd : c.isDefault) {x : F32} (hx : within lit0 lit1 x = true) :
    within 0x373E37C6 0x3CB9C277 (attackRateOf c x) = true := by
  have sr : c.sampleRate = Params.default.sampleRate := by rw [isDefault_eq hd]
  unfold attackRateOf
  rw [sr]
  exact rate_within (attackTime_within c hx) (by decide) (by decide) (by decide) rfl rfl (by decide +kernel)
    (by decide +kernel) (by decide +kernel) (by decide +kernel) (by decide +kernel) (by decide) (by decide)

/-- The decay coefficient of every legal DECAY under the default parameters (41_envelope.md R171). -/
theorem decayCoeffOf_within {c : Params} (hd : c.isDefault) {x : F32} (hx : within lit0 lit1 x = true) :
    within lit0_001 lit1 (decayCoeffOf c x) = true := by
  have sr : c.sampleRate = Params.default.sampleRate := by rw [isDefault_eq hd]
  have hq : within 0x363E37C6 0x3B149B93 (fDiv lit1 (fMul (expMap c x lit0_01 lit800) Params.default.sampleRate)) = true :=
    rate_within (decayTime_within c hx) (by decide) (by decide) (by decide) rfl rfl (by decide +kernel)
      (by decide +kernel) (by decide +kernel) (by decide +kernel) (by decide +kernel) (by decide) (by decide)
  have hq' := within_mono hq (lo' := lit0) (hi' := lit1) (by decide +kernel) (by decide +kernel)
  have hp := powF_within c.fns (b := lit0_001) (by decide) (by decide +kernel) (by decide +kernel) hq'
  have m1 : minF lit1 lit0_001 = lit0_001 := by decide +kernel
  have m2 : maxF lit1 lit0_001 = lit1 := by decide +kernel
  rw [m1, m2] at hp
  unfold decayCoeffOf
  rw [sr]
  exact hp

/-- From 0.001 on, the gap below an f32 is at most 2^-23 of it. -/
theorem gap_above {m : Nat} (h : magBits lit0_001 ≤ m) :
    ∃ k, 0 < m ∧ 2^23 * 2^k ≤ unitsOfMag m ∧ unitsOfMag (m - 1) + 2 ^ k = unitsOfMag m ∧ 0 < k := by
  have e1 : magBits lit1 = 127 * 2 ^ 23 := by decide
  have e2 : magBits lit0_001 = 0x3A83126F := by decide
  have h0 : 0 < m := by omega
  rcases unitsOfMag_cases (m-1) with ⟨h1, e⟩ | ⟨k, n, hk, h₁, h₂, e3, e⟩
  · omega
  · refine ⟨k, h0, ?_, ?_, hk⟩
    · rcases Nat.lt_or_ge (n + 1) (2 ^ 24) with hh | hh
      · have : m = k * 2^23 + (n+1) := by omega
        rw [this, unitsOfMag_eq k _ (by omega) hh]
        exact Nat.mul_le_mul_right _ (by omega)
      · have hn : n = 2^24 - 1 := by omega
        have : m = (k+1) * 2^23 + 2^23 := by omega
        rw [this, unitsOfMag_eq (k+1) _ (by omega) (by omega)]
        have : (2:Nat)^(k+1) = 2 * 2^k := by ring
        omega
    · rcases Nat.lt_or_ge (n + 1) (2 ^ 24) with hh | hh
      · have : m = k * 2^23 + (n+1) := by omega
        rw [e, this, unitsOfMag_eq k _ (by omega) hh]; ring
      · have hn : n = 2^24 - 1 := by omega
        have : m = (k+1) * 2^23 + 2^23 := by omega
        rw [e, this, unitsOfMag_eq (k+1) _ (by omega) (by omega), hn, pow_succ]; omega

/-- A level in [0, 1) rises strictly by every legal attack rate (41_envelope.md R177). -/
theorem level_rises {l r : F32} (hl : withinBelow lit0 lit1 l = true) (hr : within 0x373E37C6 0x3CB9C277 r = true) :
    isFinite l = true ∧ isNaN (fAdd l r) = false ∧ units l < units (fAdd l r) := by
  have fl : isFinite l = true := isFinite_of_within (within_of_withinBelow hl) (by decide) (by decide)
  have fr : isFinite r = true := isFinite_of_within hr (by decide) (by decide)
  refine ⟨fl, isNaN_fAdd fl fr, ?_⟩
  have hl := withinBelow_iff.1 hl
  have hr := within_iff.1 hr
  have e0 : units lit0 = 0 := by decide
  have e1 : units lit1 = 2 ^ 149 := by decide
  have er : (2:Int) ^ 125 ≤ units (0x373E37C6 : F32) := by decide
  have hm : (magUnits l : Int) = units l := by have := natAbs_units l; omega
  have hlt : magBits l < magBits lit1 := by
    apply unitsOfMag_lt_iff.1
    have : (unitsOfMag (magBits lit1) : Int) = 2 ^ 149 := by decide
    have h2 : (unitsOfMag (magBits l) : Int) = magUnits l := rfl
    omega
  have e2 : magBits lit1 < 2 ^ 31 := by decide
  have g := gap_below_one hlt
  have us : units (pack false (magBits l + 1)) = unitsOfMag (magBits l + 1) := by
    rw [units_pack _ (by omega)]; simp
  have nn : isNaN (pack false (magBits l + 1)) = false := isNaN_pack _ (by simp only [show magBits lit1 = 0x3F800000 by decide, infMag] at *; omega)
  have ub : units (pack false (magBits l + 1)) ≤ units (fAdd l r) := by
    rw [units_fAdd fl fr]
    apply le_units_roundTo (by decide) nn
    rw [signed_natAbs, us]
    have h2 : (unitsOfMag (magBits l) : Int) = magUnits l := rfl
    have : (unitsOfMag (magBits l + 1) : Int) ≤ unitsOfMag (magBits l) + 2 ^ 125 := by exact_mod_cast g
    norm_num
    omega
  have := unitsOfMag_succ_lt (magBits l)
  rw [us] at ub
  have h2 : (unitsOfMag (magBits l) : Int) = magUnits l := rfl
  omega

/-- A level in [0.001, 1] falls strictly by every coefficient up to the largest legal one (41_envelope.md R177). -/
theorem level_falls {l d : F32} (hl : within lit0_001 lit1 l = true) (hd : within lit0 0x3F7FFEB8 d = true) :
   isNaN (fMul l d) = false ∧ 0 ≤ units (fMul l d) ∧ units (fMul l d) < units l := by
  have fl := isFinite_of_within hl (by decide) (by decide)
  have fd := isFinite_of_within hd (by decide) (by decide)
  have l' := within_iff.1 hl
  have d' := within_iff.1 hd
  have e0 : units lit0 = 0 := by decide
  have el : 0 < units lit0_001 := by decide
  refine ⟨isNaN_fMul fl fd, units_fMul_nonneg fl fd (by omega) (by omega), ?_⟩
  have ml : (magUnits l : Int) = units l := by have := natAbs_units l; omega
  have md : (magUnits d : Int) = units d := by have := natAbs_units d; omega
  have hsl : signBit l = false := by
    by_contra h; have h : signBit l = true := by simpa using h
    rw [units_of_neg h] at l'; omega
  have hm1 : magBits lit0_001 ≤ magBits l := by
    apply unitsOfMag_le_iff.1
    have : (unitsOfMag (magBits lit0_001) : Int) = units lit0_001 := by decide
    have h2 : (unitsOfMag (magBits l) : Int) = magUnits l := rfl
    omega
  have hm2 : magBits l ≤ magBits lit1 := by
    apply unitsOfMag_le_iff.1
    have : (unitsOfMag (magBits lit1) : Int) = units lit1 := by decide
    have h2 : (unitsOfMag (magBits l) : Int) = magUnits l := rfl
    omega
  obtain ⟨k, h0, g1, g2, hk⟩ := gap_above hm1
  have hlt : magBits l < 2^31 := magBits_lt l
  have up : units (pack false (magBits l - 1)) = unitsOfMag (magBits l - 1) := by
    rw [units_pack _ (by omega)]; simp
  have nn : isNaN (pack false (magBits l - 1)) = false := isNaN_pack _ (by simp only [show magBits lit1 = 0x3F800000 by decide, infMag] at *; omega)
  have ub : units (fMul l d) ≤ units (pack false (magBits l - 1)) := by
    rw [fMul_finite fl fd]
    apply units_roundTo_le (by positivity) nn
    rw [signed_mul, up, ← ml, ← md]
    have dm : magUnits d ≤ 2^149 - 328 * 2^125 := by
      have : units (0x3F7FFEB8 : F32) = 2^149 - 328 * 2^125 := by decide
      omega
    have h2 : magUnits l = unitsOfMag (magBits l) := rfl
    rw [h2]
    have : unitsOfMag (magBits l) * magUnits d ≤ unitsOfMag (magBits l - 1) * 2^149 := by
      calc unitsOfMag (magBits l) * magUnits d ≤ unitsOfMag (magBits l) * (2^149 - 328 * 2^125) := Nat.mul_le_mul_left _ dm
        _ ≤ unitsOfMag (magBits l - 1) * 2^149 := by
          have : unitsOfMag (magBits l) * (328 * 2^125) ≥ 2^k * 2^149 := by
            have : unitsOfMag (magBits l) ≥ 2^23 * 2^k := by omega
            nlinarith
          rw [Nat.mul_sub]
          have : unitsOfMag (magBits l) * 2^149 = unitsOfMag (magBits l - 1) * 2^149 + 2^k * 2^149 := by rw [← g2]; ring
          omega
    exact_mod_cast this
  rw [up] at ub
  have h2 : (unitsOfMag (magBits l) : Int) = magUnits l := rfl
  have : 0 < 2^k := by positivity
  omega

/-- Multiplication by 1.0 changes no finite value, bit for bit (40_numerics.md R141). -/
theorem fMul_one {x : F32} (h : isFinite x = true) : fMul x lit1 = x := by
  rw [fMul_finite h (by decide), show magUnits lit1 = 2^149 by decide, show signBit lit1 = false by decide]
  have hm := isFinite_iff.1 h
  refine eq_of_bits ?_ ?_
  · simp
  · rw [magBits_roundTo]; exact roundMag_unitsOfMag (by omega) _ (by positivity)

end Sys2Proof.Laws
end

