-- ==== Sys2Proof/Tests/Slice0.lean ====
section
/-!
SUPPORT. The model's own tests: small facts whose expected values come from spec/95_test_vectors.md and the rules' own
tables, and a witness for every obligation that has hypotheses.
-/

namespace Sys2Proof.Tests

open Sys2Proof Sys2Proof.Machine

set_option Elab.async false

/-- The next state of an outcome, or the state given. -/
def nextOr (s : State) : Host.Outcome State Fault Refusal → State
  | .next t => t
  | .fault _ => s
  | .refused _ => s

/-- The outcome is a refusal for the reason given. -/
def refusedFor (r : Refusal) : Host.Outcome State Fault Refusal → Bool
  | .next _ => false
  | .fault _ => false
  | .refused q => q == r

/-- The state after one command. -/
def after (i : Instr) (s : State) : State := nextOr s (exec i s)

/-- The response of one command. -/
def rsp (i : Instr) (s : State) : Word := (after i s).port.rspData

/-- The reset state. -/
def s0 : State := State.reset

/-- The reset state with a note held on a voice: NOTE_ON 220.0 after the voice is chosen (V-ENG-4). -/
def note (v : Word) : State := after (.noteOn 0x435C0000) (after (.setVoice v) s0)

/-- The reset state with a frame in flight, due at the next edge. -/
def due (f : Frame) : State := s0.putPort { inFlight := some { frame := f, wait := 0 }, rspValid := false, rspData := 0 }

/-- The reset state with rst 1 at the coming edge and an offered frame. -/
def resetting : State :=
  s0.putHost { inputs := [{ rst := true, cmd := some 0x20DEADBEEF, latency := 0, mail := .none }], mailbox := none,
               issue := [], polled := true }

/-- A parameter record with a value in range, above it, below it, and a NaN. -/
def record : ParamRecord where
  attack := 0x3F000000
  decay := 0x40000000
  spread := 0xBF800000
  cascade := 0x7FC00000
  wavefold := 0x3F800000
  chaos := 0
  fmIndex := 0
  fmRatio := 0
  fmFeedback := 0
  fmFold := 0
  resFeedback := 0
  resDamp := 0
  resMix := 0
  verbExcite := 0x3F000000
  freq := 0x459C4000
  voice := 7
  gate := true

/-! ## Well-formedness (00_scope.md R13, 30_encoding.md R138): each check refuses an ill-formed term -/

theorem test_default_configuration_is_legal : Params.default.legal = true := by decide +kernel

theorem test_sample_rate_not_positive : ({ Params.default with sampleRate := lit0 } : Params).legal = false := by
  decide +kernel

theorem test_sample_rate_nan : ({ Params.default with sampleRate := 0x7FC00000 } : Params).legal = false := by
  decide +kernel

theorem test_f_min_zero : ({ Params.default with fMin := lit0 } : Params).legal = false := by decide +kernel

theorem test_default_freq_below_f_min : ({ Params.default with defaultFreq := lit10 } : Params).legal = false := by
  decide +kernel

theorem test_default_freq_above_f_max : ({ Params.default with fMax := lit28 } : Params).legal = false := by
  decide +kernel

theorem test_comb_cap_too_small :
    ({ Params.default with combCap := 16 } : Params).legal = false ∧
      ({ Params.default with combCap := 17 } : Params).legal = true := by decide +kernel

theorem test_ap_cap_too_small :
    ({ Params.default with apCap := 8 } : Params).legal = false ∧
      ({ Params.default with apCap := 9 } : Params).legal = true := by decide +kernel

theorem test_damp_max_one : ({ Params.default with dampMax := lit1 } : Params).legal = false := by decide +kernel

theorem test_damp_max_negative : ({ Params.default with dampMax := litNeg0_5 } : Params).legal = false := by
  decide +kernel

theorem test_exc_decay_zero_or_one :
    ({ Params.default with excDecay := lit0 } : Params).legal = false ∧
      ({ Params.default with excDecay := lit1 } : Params).legal = false := by decide +kernel

theorem test_chaos_floor_range :
    ({ Params.default with chaosFloor := litNeg0_5 } : Params).legal = false ∧
      ({ Params.default with chaosFloor := lit1 } : Params).legal = false ∧
      ({ Params.default with chaosFloor := lit0 } : Params).legal = true := by decide +kernel

theorem test_fold_max_iter_zero : ({ Params.default with foldMaxIter := 0 } : Params).legal = false := by decide +kernel

theorem test_master_gain_zero : ({ Params.default with masterGain := lit0 } : Params).legal = false := by decide +kernel

theorem test_safety_bound_one : ({ Params.default with safetyBound := lit1 } : Params).legal = false := by decide +kernel

theorem test_line_without_operand : (AsmLine.mk 0x03 none).wellFormed = false := by decide

theorem test_line_with_operand_for_none : (AsmLine.mk 0x20 (some (.int 1))).wellFormed = false := by decide

theorem test_line_with_unassigned_opcode : (AsmLine.mk 0x0F none).wellFormed = false := by decide

theorem test_line_f32_with_integer : (AsmLine.mk 0x03 (some (.int 1))).wellFormed = false := by decide

theorem test_line_u32_too_large :
    (AsmLine.mk 0x11 (some (.int (2 ^ 32)))).wellFormed = false ∧
      (AsmLine.mk 0x11 (some (.int (2 ^ 32 - 1)))).wellFormed = true := by decide

theorem test_line_bool_too_large :
    (AsmLine.mk 0x12 (some (.int 2))).wellFormed = false ∧ (AsmLine.mk 0x12 (some (.int 1))).wellFormed = true := by
  decide

theorem test_line_u32_with_decimal : (AsmLine.mk 0x11 (some (.decimal false 1 0))).wellFormed = false := by decide

/-- The spellings of R138: SET_SPREAD 1.0, PROCESS, nan, inf, -1e-3, and a raw pattern. -/
theorem test_assemble_lines :
    (AsmLine.mk 0x03 (some (.decimal false 10 (-1)))).assemble = some 0x033F800000 ∧
      (AsmLine.mk 0x20 none).assemble = some 0x2000000000 ∧
      (AsmLine.mk 0x10 (some .nan)).assemble = some 0x107FC00000 ∧
      (AsmLine.mk 0x10 (some (.infinity true))).assemble = some 0x10FF800000 ∧
      (AsmLine.mk 0x01 (some (.decimal true 1 (-3)))).assemble = some 0x01BA83126F ∧
      (AsmLine.mk 0x06 (some (.bits 0x80000000))).assemble = some 0x0680000000 := by decide +kernel

theorem test_pseudo_commands :
    Pseudo.gateOn.expand = [.gate true] ∧ Pseudo.gateOff.expand = [.gate false] ∧
      Pseudo.voiceResonator.expand = [.setVoice 2] ∧ (Pseudo.processN 0).expand = [] ∧
      (Pseudo.processN 2).expand = [.process, .process] := by decide

/-! ## Decoding: words written out from 30_encoding.md R130 to R132 -/

theorem test_decode_nop_and_envelope :
    decode 0x0000000000 = .ok .nop ∧ decode 0x01BF800000 = .ok (.setAttack 0xBF800000) ∧
      decode 0x027FC00000 = .ok (.setDecay 0x7FC00000) := by decide

theorem test_decode_cascade :
    decode 0x033F800000 = .ok (.setSpread 0x3F800000) ∧ decode 0x04FF800000 = .ok (.setCascade 0xFF800000) ∧
      decode 0x05BF000000 = .ok (.setWavefold 0xBF000000) ∧ decode 0x0680000000 = .ok (.setChaos 0x80000000) := by
  decide

theorem test_decode_fm :
    decode 0x073F000000 = .ok (.setFmIndex 0x3F000000) ∧ decode 0x0800000000 = .ok (.setFmRatio 0) ∧
      decode 0x093F000000 = .ok (.setFmFeedback 0x3F000000) ∧ decode 0x0A3C23D70A = .ok (.setFmFold 0x3C23D70A) := by
  decide

theorem test_decode_resonator :
    decode 0x0B3F800000 = .ok (.setResFeedback 0x3F800000) ∧ decode 0x0C00000001 = .ok (.setResDamp 1) ∧
      decode 0x0D3F800000 = .ok (.setResMix 0x3F800000) ∧ decode 0x0E3F000000 = .ok (.setVerbExcite 0x3F000000) := by
  decide

theorem test_decode_engine :
    decode 0x10459C4000 = .ok (.setFrequency 0x459C4000) ∧ decode 0x11FFFFFFFF = .ok (.setVoice 0xFFFFFFFF) ∧
      decode 0x1200000003 = .ok (.gate true) ∧ decode 0x12FFFFFFFE = .ok (.gate false) ∧
      decode 0x13435C0000 = .ok (.noteOn 0x435C0000) ∧ decode 0x1400000000 = .ok .noteOff ∧
      decode 0x20DEADBEEF = .ok .process := by decide

theorem test_decode_reads :
    decode 0x3000000000 = .ok .getOutputLevel ∧ decode 0x3100000000 = .ok .isPlaying ∧
      decode 0x3200000000 = .ok .getCurrentFreq ∧ decode 0x3300000000 = .ok .getEnvStage ∧
      decode 0x3400000000 = .ok .getEnvLevel ∧ decode 0x3500000000 = .ok .getResBaseFreq ∧
      decode 0x3600000005 = .ok (.getResDelayLen 5) ∧ decode 0x3700000011 = .ok (.readReg 0x11) := by decide

theorem test_decode_unassigned :
    decode 0x0F12345678 = .error (.unassignedOpcode 0x0F) ∧ decode 0x1500000000 = .error (.unassignedOpcode 0x15) ∧
      decode 0x2100000000 = .error (.unassignedOpcode 0x21) ∧ decode 0x3800000000 = .error (.unassignedOpcode 0x38) ∧
      decode 0xFFFFFFFFFF = .error (.unassignedOpcode 0xFF) := by decide

theorem test_decode_bytes :
    decodeBytes [0x13, 0x43, 0x5C, 0x00, 0x00, 0x20] = .ok (.noteOn 0x435C0000, [0x20]) ∧
      decodeBytes [0x13, 0x43, 0x5C, 0x00] = .error .partialFrame := by decide

theorem test_table_word : decodeTableWord 40 0x033F800000 = some (.setSpread 0x3F800000) ∧
    decodeTableWord 40 0x2100000000 = none := by decide

/-! ## Numerics (40_numerics.md) -/

theorem test_literals_small :
    f32OfDecimal false 1 (-3) = lit0_001 ∧ f32OfDecimal false 1 (-2) = lit0_01 ∧ f32OfDecimal false 5 (-2) = lit0_05 ∧
      f32OfDecimal false 1 (-1) = lit0_1 ∧ f32OfDecimal false 1 (-4) = lit0_0001 ∧ f32OfDecimal false 125 (-3) = lit0_125 ∧
      f32OfDecimal false 15 (-2) = lit0_15 ∧ f32OfDecimal false 25 (-2) = lit0_25 ∧ f32OfDecimal false 42 (-2) = lit0_42 ∧
      f32OfDecimal false 45 (-2) = lit0_45 ∧ f32OfDecimal false 5 (-1) = lit0_5 ∧ f32OfDecimal false 75 (-2) = lit0_75 ∧
      f32OfDecimal false 9 (-1) = lit0_9 ∧ f32OfDecimal false 999 (-3) = lit0_999 := by decide +kernel

theorem test_literals_large :
    f32OfDecimal false 1333 (-3) = lit1_333 ∧ f32OfDecimal false 15 (-1) = lit1_5 ∧
      f32OfDecimal false 26666667 (-7) = lit2_6666667 ∧ f32OfDecimal false 575 (-2) = lit5_75 ∧
      f32OfDecimal false 62831853 (-7) = litTwoPi ∧ f32OfDecimal false 53333333 (-6) = litIdxRatio ∧
      f32OfDecimal false 800 0 = lit800 ∧ f32OfDecimal false 2000 0 = lit2000 ∧
      f32OfDecimal true 1 0 = litNeg1 ∧ f32OfDecimal false 28 0 = lit28 := by decide +kernel

theorem test_default_parameters :
    f32OfDecimal false 44100 0 = Params.default.sampleRate ∧ f32OfDecimal false 20 0 = Params.default.fMin ∧
      f32OfDecimal false 4000 0 = Params.default.fMax ∧ f32OfDecimal false 220 0 = Params.default.defaultFreq ∧
      f32OfDecimal false 15 (-2) = Params.default.chaosFloor ∧ f32OfDecimal false 2 (-2) = Params.default.vibDepth ∧
      f32OfDecimal false 4 0 = Params.default.foldDrive ∧ f32OfDecimal false 998 (-3) = Params.default.excDecay ∧
      f32OfDecimal false 95 (-2) = Params.default.dampMax ∧ f32OfDecimal false 8 (-1) = Params.default.masterGain ∧
      f32OfDecimal false 15 (-1) = Params.default.safetyBound := by decide +kernel

/-- V-NUM-1 to V-NUM-5. -/
theorem test_clamps :
    clamp01 0x7FC00000 = lit0 ∧ clamp01 0x7F800000 = lit1 ∧ clampF 0xFF800000 0x41A00000 0x457A0000 = 0x41A00000 ∧
      clamp01 0x80000000 = 0x80000000 ∧ clamp01 0xBF000000 = lit0 := by decide +kernel

/-- V-NUM-6, V-NUM-7, V-NUM-21. -/
theorem test_extremes :
    maxF lit0_15 0x7FC00000 = lit0_15 ∧ minF lit1 0x7FC00000 = lit1 ∧ absF 0x80000000 = lit0 ∧
      isFinite 0x7FC00000 = false ∧ isFinite 0xFF800000 = false ∧ isFinite 0x80000000 = true := by decide +kernel

/-- V-NUM-8 to V-NUM-11. -/
theorem test_integer_conversions :
    roundI (fDiv 0x472C4400 0x455C8000) = 13 ∧ roundI (fDiv 0x472C4400 0x435C0000) = 200 ∧
      floorI (fMul 0x3E124925 lit7) = 1 ∧ floorI (fMul 0x3E124924 lit7) = 0 := by decide +kernel

/-- V-NUM-12, V-NUM-22. -/
theorem test_wrap_and_subnormal :
    wrap01 (fAdd (fDiv (fMul 0x457A0000 0x40C00000) 0x472C4400) (fDiv (fMul 0x457A0000 0x40C00000) 0x472C4400)) =
        0x3DB51DA0 ∧
      fMul 0x000000FA Params.default.excDecay = 0x000000FA := by decide +kernel

/-- V-NUM-13 to V-NUM-17. -/
theorem test_fold :
    foldMix Params.default 0x3F000000 lit1 = 0xBF000000 ∧ foldMix Params.default lit0_9 lit1 = 0x3F000000 ∧
      foldMix Params.default lit1 lit1 = lit1 ∧ foldMix Params.default 0x3E99999A lit0_5 = 0x3F19999A ∧
      foldMix Params.default 0xBF333333 lit0_25 = 0xBF2CCCCC := by decide +kernel

/-- V-NUM-18 to V-NUM-20. -/
theorem test_softclip :
    softclip Params.default (f32OfDecimal false 90514827 (-7)) = lit1 ∧ softclip Params.default lit1_5 = 0x3F67B7CC ∧
      combGain lit1 = 0x3F6B851E := by decide +kernel

/-- 43_fm.md R244 and 44_resonator.md R284 at 0.5, and an exponent between: V-CAS-2. -/
theorem test_maps_and_amplitudes :
    indexOf Params.default lit0_5 = 0x3F8C378C ∧ dampCoef Params.default lit0_5 = 0x3EF33333 ∧
      baseAmp (f32i 3) lit0_5 = f32OfDecimal false 66666669 (-8) ∧ baseAmp (f32i 5) lit1 = f32OfDecimal false 19999999 (-8) := by
  decide +kernel

/-- V-CAS-3. -/
theorem test_chaos_floor :
    tremMul Params.default (f32i 8) lit1 litNeg1 = lit0_15 ∧
      vibMul Params.default (f32i 8) lit1 litNeg1 = f32OfDecimal false 98000002 (-8) := by decide +kernel

/-- V-CAS-6, the first output. -/
theorem test_lorenz : modOut .lorenz (modInit .lorenz) = 0x3BA3AD19 := by decide +kernel

/-! ## Commands, one step each -/

/-- V-ENV-1: SET_ATTACK 0.5, and 2.0 stored as 1.0. -/
theorem test_set_attack :
    (after (.setAttack lit0_5) s0).env.attackRate = 0x3A04EB35 ∧ (after (.setAttack lit2) s0).env.attackRate = 0x373E37C6 ∧
      (after (.setAttack lit2) s0).reg.attack = lit1 := by decide +kernel

/-- V-ENV-1: SET_DECAY 0.5 and 1.0, and a NaN stored as 0.0. -/
theorem test_set_decay :
    (after (.setDecay lit0_5) s0).env.decayCoeff = 0x3F7FDBB7 ∧ (after (.setDecay lit1) s0).env.decayCoeff = 0x3F7FFEB8 ∧
      (after (.setDecay 0x7FC00000) s0).env.decayCoeff = 0x3F7C0574 := by decide +kernel

/-- V-CAS-1, V-ENG-15: the count from the stored register. -/
theorem test_set_spread :
    (after (.setSpread lit2) s0).reg.spread = lit1 ∧ numHarmonics (after (.setSpread 0x3F7D70A4) s0).reg.spread = 7 ∧
      numHarmonics (after (.setSpread 0x3E924925) s0).reg.spread = 3 ∧
      numHarmonics (after (.setSpread 0x7FC00000) s0).reg.spread = 1 := by decide +kernel

/-- P5: -Inf, -0.5 and -0.0 (V-ENG-16). -/
theorem test_set_cascade_wavefold_chaos :
    (after (.setCascade 0xFF800000) s0).reg.cascade = lit0 ∧ (after (.setWavefold 0xBF000000) s0).reg.wavefold = lit0 ∧
      (after (.setChaos 0x80000000) s0).reg.chaos = 0x80000000 := by decide +kernel

/-- Each FM setter writes its own register. -/
theorem test_set_fm :
    (after (.setFmIndex lit0_5) s0).reg = { s0.reg with fmIndex := lit0_5 } ∧
      (after (.setFmRatio lit0_25) s0).reg = { s0.reg with fmRatio := lit0_25 } ∧
      (after (.setFmFeedback lit2) s0).reg = { s0.reg with fmFeedback := lit1 } ∧
      (after (.setFmFold lit0_1) s0).reg = { s0.reg with fmFold := lit0_1 } := by decide +kernel

/-- Each RES setter writes its own register. -/
theorem test_set_res :
    (after (.setResFeedback lit0_5) s0).reg = { s0.reg with resFeedback := lit0_5 } ∧
      (after (.setResDamp lit0_25) s0).reg = { s0.reg with resDamp := lit0_25 } ∧
      (after (.setResMix lit2) s0).reg = { s0.reg with resMix := lit1 } ∧
      (after (.setVerbExcite lit0_1) s0).reg = { s0.reg with verbExcite := lit0_1 } := by decide +kernel

/-- V-ENG-1, V-ENG-2: the clamp, a NaN, and the lengths at 4000 Hz. -/
theorem test_set_frequency_clamps :
    (after (.setFrequency 0x459C4000) s0).eng.curFreq = 0x457A0000 ∧
      (after (.setFrequency 0x459C4000) s0).res.combLen = #v[11, 14, 16, 22] ∧
      (after (.setFrequency 0x459C4000) s0).res.apLen = #v[5, 8] ∧
      (after (.setFrequency 0x7FC00000) s0).res.combLen = #v[2205, 2939, 3307, 4095] := by decide +kernel

/-- V-ENG-3, V-RES-2: no retune at a difference of exactly 2.0, a retune beyond it. -/
theorem test_set_frequency_hysteresis :
    (after (.setFrequency 0x435E0000) s0).res.baseFreq = 0x435C0000 ∧
      (after (.setFrequency 0x435E0000) s0).res.freq = 0x435E0000 ∧
      (after (.setFrequency 0x435E8000) s0).res.baseFreq = 0x435E8000 ∧
      (after (.setFrequency 0x435E8000) s0).res.combLen = #v[198, 263, 297, 396] := by decide +kernel

/-- V-RES-1: 3528 Hz (12.5 rounds to 13) and 3834.7825 Hz (11.5 rounds to 12). -/
theorem test_lengths :
    combLens Params.default (baseDelayOf Params.default 0x455C8000) = #v[13, 17, 19, 26] ∧
      apLens Params.default (baseDelayOf Params.default 0x455C8000) = #v[6, 9] ∧
      combLens Params.default (baseDelayOf Params.default 0x456FAC85) = #v[12, 15, 18, 24] ∧
      combLens Params.default (baseDelayOf Params.default 0x42DC0000) = #v[401, 534, 601, 802] := by decide +kernel

/-- V-ENC-10, V-ENG-6, P3: values above 2, and the excitation on a switch with the gate held. -/
theorem test_set_voice :
    (after (.setVoice 0xFFFFFFFF) s0).eng.voice = .resonator ∧ (after (.setVoice 2) s0).res.impulse = lit0 ∧
      (after (.setVoice 2) (after (.gate true) s0)).res.burst = lit0_5 ∧
      (after (.setVoice 7) (after (.process) (note 2))).res.impulse = lit0 := by decide +kernel

/-- V-ENG-5, V-ENV-4: the rising edge, and the falling edge in mid-attack. -/
theorem test_gate :
    (after (.gate true) s0).env.stage = .attack ∧ (after (.gate true) s0).res.impulse = lit1 ∧
      (after (.gate false) (after .process (note 0))).env.stage = .decay ∧
      (after (.gate true) (after .process (note 0))).env.level = 0x3CB9C277 := by decide +kernel

/-- P2 and V-ENG-10: NOTE_ON 110.0 retunes and clears; the gate is 1. -/
theorem test_note_on :
    (after (.noteOn 0x42DC0000) (after .process (note 2))).res.apLen = #v[200, 300] ∧
      (after (.noteOn 0x435C0000) (after .process (note 2))).res.lines = Vector.replicate 6 [] ∧
      (after (.noteOn 0x435C0000) s0).eng.gate = true := by decide +kernel

/-- V-ENG-11 and V-ENV-5. -/
theorem test_note_off :
    (after .noteOff s0).env.stage = .idle ∧ (after .noteOff (note 0)).env.stage = .decay ∧
      (after .noteOff (note 0)).eng.gate = false := by decide +kernel

/-- 2.8, V-ENG-4: PROCESS from reset, and after NOTE_ON on the cascade voice. -/
theorem test_process_cascade :
    rsp .process s0 = 0 ∧ rsp .process (note 0) = 0x3A150897 ∧ (after .process (note 0)).eng.meter = 0x35189C41 ∧
      (after .process (note 0)).status.level = 0x35989C41 := by decide +kernel

/-- V-CAS-4 with SPREAD 1 and CHAOS 1 at env 1.0, first sample. -/
theorem test_process_cascade_chaos :
    (casProcess Params.default { State.resetRegs with spread := lit1, chaos := lit1 } s0.cas lit1).2 = 0x3E0EC3C1 := by
  decide +kernel

/-- V-CAS-5: the anti-aliasing guard at 4000 Hz. -/
theorem test_process_cascade_guard :
    (casProcess Params.default { State.resetRegs with spread := lit1 } { s0.cas with freq := 0x457A0000 } lit1).2 =
        0x3F29E859 ∧
      (casProcess Params.default { State.resetRegs with spread := lit1 } { s0.cas with freq := 0x457A0000 } lit1).1.phase =
        #v[0x3DB9C278, 0x3E39C278, 0x3E8B51DA, 0x3EB9C278, lit0, lit0, lit0, lit0] := by decide +kernel

/-- V-FM-2: every control at 1.0, the first two samples. -/
theorem test_process_fm :
    (fmProcess Params.default { State.resetRegs with fmIndex := lit1, fmRatio := lit1, fmFeedback := lit1, fmFold := lit1 }
      s0.fm lit1).2 = 0xBCAF0D4A ∧
    (fmProcess Params.default { State.resetRegs with fmIndex := lit1, fmRatio := lit1, fmFeedback := lit1, fmFold := lit1 }
      (fmProcess Params.default
        { State.resetRegs with fmIndex := lit1, fmRatio := lit1, fmFeedback := lit1, fmFold := lit1 } s0.fm lit1).1
      lit1).2 = 0xBAD533F4 := by decide +kernel

/-- V-RES-3, RES_MIX 1 at env 1.0; V-RES-5. -/
theorem test_process_resonator :
    (resProcess Params.default { State.resetRegs with resMix := lit1 } (resTrigger Params.default lit1 s0.res) lit1).2 =
        0x3F7A8420 ∧
      (resProcess Params.default State.resetRegs (resTrigger Params.default lit1 s0.res) lit1).1.burst = 0x3EFF7CEE ∧
      rsp .process (note 2) = 0x3E25D16B := by decide +kernel

/-- V-ENG-21, V-ENG-22, V-ENG-23: the guard, the clamp, and -0.0. -/
theorem test_guard :
    guardSample Params.default 0x7F800000 = lit0 ∧ guardSample Params.default 0x40400000 = lit1_5 ∧
      guardSample Params.default 0x80000000 = 0x80000000 ∧ nextMeter lit0 0x80000000 = lit0 := by decide +kernel

/-- V-ENG-19, V-ENG-20. -/
theorem test_get_output_level :
    rsp .getOutputLevel (s0.putEng { s0.eng with meter := lit0_5 }) = lit1 ∧
      rsp .getOutputLevel (s0.putEng { s0.eng with meter := 0x3F19999A }) = lit1 := by decide +kernel

/-- The reads of 2.8, and after a note. -/
theorem test_reads :
    rsp .isPlaying s0 = 0 ∧ rsp .isPlaying (note 0) = 1 ∧ rsp .getCurrentFreq s0 = 0x435C0000 ∧
      rsp .getEnvStage (note 0) = 1 ∧ rsp .getEnvLevel (after .process (note 0)) = 0x3CB9C277 ∧
      rsp .getResBaseFreq s0 = 0x435C0000 ∧ rsp .nop (note 0) = 0 := by decide +kernel

/-- V-ENG-12. -/
theorem test_get_res_delay_len :
    (List.range 7).map (fun k => rsp (.getResDelayLen (BitVec.ofNat 32 k)) s0) = [200, 266, 300, 400, 100, 150, 0] ∧
      rsp (.getResDelayLen 0xFFFFFFFF) s0 = 0 := by decide +kernel

/-- V-ENG-13, V-ENG-14. -/
theorem test_read_reg :
    rsp (.readReg 0x01) s0 = 0 ∧ rsp (.readReg 0x0E) s0 = lit1 ∧ rsp (.readReg 0x10) s0 = 0x435C0000 ∧
      rsp (.readReg 0x11) (note 1) = 1 ∧ rsp (.readReg 0x12) (note 1) = 1 ∧ rsp (.readReg 0x00) s0 = 0 ∧
      rsp (.readReg 0x0F) s0 = 0 ∧ rsp (.readReg 0x13) s0 = 0 ∧ rsp (.readReg 0xFFFFFFFF) s0 = 0 := by decide +kernel

/-- V-ENV-5: the last attack step and the last decay step. -/
theorem test_envelope_ends :
    envProcess { stage := .attack, level := 0x3F7F6B67, attackRate := 0x3CB9C277, decayCoeff := 0x3F7C0574 } =
        { stage := .sustain, level := lit1, attackRate := 0x3CB9C277, decayCoeff := 0x3F7C0574 } ∧
      envProcess { stage := .decay, level := 0x3A83129C, attackRate := 0x3CB9C277, decayCoeff := 0x3F7C0574 } =
        { stage := .idle, level := lit0, attackRate := 0x3CB9C277, decayCoeff := 0x3F7C0574 } := by decide +kernel

/-! ## Steps of the machine -/

/-- V-ENC-17 in a step: refused by the opcode's name (30_encoding.md R134). -/
theorem test_step_unassigned : refusedFor (.unassignedOpcode 0xFF) (step (due 0xFFFFFFFFFF)) = true := by decide +kernel

/-- 00_scope.md R13 in a step. -/
theorem test_step_illegal_configuration :
    refusedFor .illegalConfiguration (step { s0 with cfg := { Params.default with foldMaxIter := 0 } }) = true := by
  decide +kernel

/-- The step of a placed table word is the command's. -/
theorem test_step_fetch_word :
    (nextOr s0 (step (s0.withFetchWord 40 0x13435C0000))).env.stage = .attack ∧
      (nextOr s0 (step (s0.withFetchWord 40 0x3600000003))).port.rspData = 400 := by decide +kernel

/-- Reset in the middle of a note, with a frame offered (2.8). -/
theorem test_step_reset :
    nextOr s0 (step ((note 2).putHost resetting.host)) = s0 := by decide +kernel

/-- The mailbox: an empty slot reads as nothing, a full one is queued and emptied. -/
theorem test_mailbox :
    mailStep .read s0.host = s0.host ∧ ((mailStep .read (mailStep (.write record) s0.host)).issue.headD 0) = 0x013F000000 ∧
      (mailStep .read (mailStep (.write record) s0.host)).issue.length = 17 := by decide +kernel

/-- The canonical form: writing what an unlisted cell reads as removes the cell. -/
theorem test_memory :
    lineWrite [] 3 lit1 = [(3, lit1)] ∧ lineWrite [(3, lit1)] 3 lit0 = [] ∧
      lineWrite [(3, lit1)] 1 0x80000000 = [(1, 0x80000000), (3, lit1)] ∧ Memory.wf [(3, lit1), (3, lit1)] = false ∧
      Memory.wf [(3, lit0)] = false ∧ Memory.wf [(1, lit1), (3, lit1)] = true := by decide +kernel

/-! ## Witnesses: the hypotheses of each obligation are met together, each clause at the edges of its range -/

/-- DecodeReadsTheOperand: a frame of each operand type. -/
theorem witness_decode_reads_the_operand :
    (decode 0x033F800000 = .ok (.setSpread 0x3F800000) ∧ operandTypeOf (opcodeOf 0x033F800000) = some .f32) ∧
      (decode 0x36FFFFFFFF = .ok (.getResDelayLen 0xFFFFFFFF) ∧ operandTypeOf (opcodeOf 0x36FFFFFFFF) = some .u32) ∧
      (decode 0x12FFFFFFFF = .ok (.gate true) ∧ operandTypeOf (opcodeOf 0x12FFFFFFFF) = some .bool ∧
        operandField 0x12FFFFFFFF &&& 1 = 1) ∧
      (decode 0x20DEADBEEF = .ok .process ∧ operandTypeOf (opcodeOf 0x20DEADBEEF) = some .none) := by decide

/-- UnassignedOpcodes: the ends of the four ranges, and their neighbours. -/
theorem witness_unassigned_opcodes :
    [0x0F, 0x15, 0x1F, 0x21, 0x2F, 0x38, 0xFF].all (fun op => (instrOf (BitVec.ofNat 8 op) 0).isNone) = true ∧
      [0x00, 0x0E, 0x10, 0x14, 0x20, 0x30, 0x37].all (fun op => (instrOf (BitVec.ofNat 8 op) 0).isSome) = true := by
  decide

/-- DontCareBits: both kinds of opcode. -/
theorem witness_dont_care_bits :
    operandTypeOf 0x20 = some .none ∧ (0xFFFFFFFE : Word).getLsbD 0 = (0x00000000 : Word).getLsbD 0 ∧
      decode (frameOf 0x12 0xFFFFFFFE) = .ok (.gate false) := by decide

/-- ByteTransport. -/
theorem witness_byte_transport : decode 0x13435C0000 = .ok (.noteOn 0x435C0000) := by decide

/-- AssembledLinesDecode: lines with and without an operand, and one that is not well formed. -/
theorem witness_assembled_lines_decode :
    (AsmLine.mk 0x03 (some (.decimal false 1 0))).wellFormed = true ∧ (AsmLine.mk 0x20 none).wellFormed = true ∧
      operandTypeOf 0x20 = some .none ∧ (AsmLine.mk 0x03 none).wellFormed = false := by decide

/-- AssembledLinesDecode, the spellings: the largest u32, the largest finite f32 as a decimal, and 16777217.0, which lies
half way between two f32 and becomes the even one (30_encoding.md R138). -/
theorem witness_operand_spellings :
    2 ^ 32 - 1 < 2 ^ 32 ∧
      340282346638528859811704183484516925440 * 10 ^ (0 : Int).toNat * 2 ^ 149 ≤ magUnits 0x7F7FFFFF * 10 ^ (-0 : Int).toNat ∧
      (AsmOperand.decimal false 340282346638528859811704183484516925440 0).field = 0x7F7FFFFF ∧
      (AsmOperand.decimal false 16777217 0).field = 0x4B800000 ∧ isFinite 0x4B800000 = true ∧
      isFinite 0x4B800001 = true ∧ units 0x4B800001 ≠ units 0x4B800000 ∧
      (units 0x4B800000 - 16777217 * 2 ^ 149).natAbs = (units 0x4B800001 - 16777217 * 2 ^ 149).natAbs := by decide +kernel

/-- HardwareReset and ResetWins. -/
theorem witness_reset : resetting.cfg.legal = true ∧ (edgeInput resetting.host).rst = true := by decide +kernel

/-- StepRunsTheDecodedCommand. -/
theorem witness_step_runs_the_decoded_command :
    (due 0x13435C0000).cfg.legal = true ∧ (edgeInput (due 0x13435C0000).host).rst = false ∧
      (due 0x13435C0000).port.inFlight = some { frame := 0x13435C0000, wait := 0 } ∧
      decode 0x13435C0000 = .ok (.noteOn 0x435C0000) := by decide +kernel

/-- The reset state with one frame offered at the coming edge. -/
def offered (f : Frame) : State :=
  s0.putHost { inputs := [{ rst := false, cmd := some f, latency := 2, mail := .none }], mailbox := none, issue := [],
               polled := true }

/-- The reset state with a frame in flight that still waits. -/
def waiting (n : Nat) : State :=
  s0.putPort { inFlight := some { frame := 0x2000000000, wait := n + 1 }, rspValid := true, rspData := 7 }

/-- Handshake: an offered frame, no frame, a frame that waits. -/
theorem witness_handshake :
    ((offered 0x2000000000).cfg.legal = true ∧ (edgeInput (offered 0x2000000000).host).rst = false ∧
      (offered 0x2000000000).port.inFlight = none ∧
      drivenFrame (edgeInput (offered 0x2000000000).host).cmd
        (pollStep (edgeInput (offered 0x2000000000).host).cmd (hostStep (offered 0x2000000000).host)).issue =
        some (0x2000000000, false)) ∧
    (s0.cfg.legal = true ∧ (edgeInput s0.host).rst = false ∧ s0.port.inFlight = none ∧
      drivenFrame (edgeInput s0.host).cmd (pollStep (edgeInput s0.host).cmd (hostStep s0.host)).issue = none) ∧
    ((waiting 0).cfg.legal = true ∧ (edgeInput (waiting 0).host).rst = false ∧
      (waiting 0).port.inFlight = some { frame := 0x2000000000, wait := 0 + 1 }) := by decide +kernel

/-- Handshake, the accepted frame: an offered SET_ATTACK beside a queue, and the queue with nothing offered; the clause
with neither is met by the reset state. -/
theorem witness_accepted_frame :
    (∀ s ∈ [s0.putHost { (offered 0x013F000000).host with issue := [0x023F000000] },
        s0.putHost { s0.host with issue := [0x023F000000] }, s0],
      s.cfg.legal = true ∧ (edgeInput s.host).rst = false ∧ s.port.inFlight = none) ∧
    (edgeInput { (offered 0x013F000000).host with issue := [0x023F000000] }).cmd = some 0x013F000000 ∧
    opcodeOf 0x013F000000 ≠ 0x20 ∧
    (edgeInput { s0.host with issue := [0x023F000000] }).cmd = none ∧
    (hostStep { s0.host with issue := [0x023F000000] }).issue = 0x023F000000 :: [] ∧
    (edgeInput s0.host).cmd = none ∧ (hostStep s0.host).issue = [] := by decide +kernel

/-- LatencyDoesNotMatter, with one edge to wait. -/
theorem witness_latency_does_not_matter :
    (waiting 0).cfg.legal = true ∧ (∀ k, k ≤ 1 → (edgeInput (hostStep^[k] (waiting 0).host)).rst = false) ∧
      (waiting 0).port.inFlight = some { frame := 0x2000000000, wait := 1 } ∧ decode 0x2000000000 = .ok .process := by
  decide +kernel

/-- StepStopsOnlyWhereAsked: each of its three clauses. -/
theorem witness_step_stops_only_where_asked :
    ({ s0 with cfg := { Params.default with foldMaxIter := 0 } } : State).cfg.legal = false ∧
    ((due 0x0F12345678).cfg.legal = true ∧ (edgeInput (due 0x0F12345678).host).rst = false ∧
      (due 0x0F12345678).port.inFlight = some { frame := 0x0F12345678, wait := 0 } ∧
      operandTypeOf (opcodeOf 0x0F12345678) = none) ∧
    (resetting.cfg.legal = true ∧ (edgeInput resetting.host).rst = true) ∧
    ((due 0x2000000000).cfg.legal = true ∧ operandTypeOf (opcodeOf 0x2000000000) ≠ none) := by decide +kernel

/-- CommandsReadTheBlockAlone: two states with one block and different ports. -/
theorem witness_commands_read_the_block_alone :
    SameBlock (note 2) ((note 2).putPort (due 0).port) ∧
      exec .process (note 2) = .next (after .process (note 2)) ∧
      exec .process ((note 2).putPort (due 0).port) = .next (after .process ((note 2).putPort (due 0).port)) :=
  ⟨⟨rfl, rfl, rfl, rfl, rfl, rfl, rfl, rfl⟩, rfl, rfl⟩

/-- A PROCESS offered beside a slot, a queue of frames, and the slot read or not since the last PROCESS. -/
def contended (slot : Option ParamRecord) (queue : List Frame) (polled : Bool) : State :=
  s0.putHost { inputs := [{ rst := false, cmd := some 0x2000000000, latency := 0, mail := .none }], mailbox := slot,
               issue := queue, polled := polled }

/-- 20_memory.md R116: a PROCESS offered past a full slot unread since the last PROCESS: the slot is read, and the first
of the record's commands goes before it; offered with the slot already read, the PROCESS goes and the slot stays full. -/
theorem test_process_after_full_slot :
    (nextOr s0 (step (contended (some record) [] false))).port.inFlight = some { frame := 0x013F000000, wait := 0 } ∧
      (nextOr s0 (step (contended (some record) [] false))).host.mailbox = none ∧
      (nextOr s0 (step (contended (some record) [] true))).port.inFlight = some { frame := 0x2000000000, wait := 0 } ∧
      (nextOr s0 (step (contended (some record) [] true))).host.mailbox = some record ∧
      (nextOr s0 (step (contended (some record) [] true))).host.polled = false := by decide +kernel

/-- MailboxKeepsTheNewest: the slot unread and full, read and full, unread and empty, and a queue that is not empty. -/
theorem witness_mailbox_keeps_the_newest :
    s0.host.mailbox = none ∧ decode 0x2000000000 = .ok .process ∧
      ∀ s ∈ [contended (some record) [] false, contended (some record) [] true, contended none [] false,
          contended none [0x013F000000] true],
        s.cfg.legal = true ∧ (edgeInput s.host).rst = false ∧ s.port.inFlight = none ∧
          (edgeInput s.host).cmd = some 0x2000000000 := by decide +kernel

/-- The queue a PROCESS meets is empty for the second and third of them, and not for the others. -/
theorem witness_mailbox_queue :
    ((hostStep (contended (some record) [] false).host).polled = false ∧
      (hostStep (contended (some record) [] false).host).mailbox = some record) ∧
    ((hostStep (contended (some record) [] true).host).polled = true ∧
      (hostStep (contended (some record) [] true).host).issue = []) ∧
    ((hostStep (contended none [] false).host).mailbox = none ∧ (hostStep (contended none [] false).host).issue = []) ∧
    (hostStep (contended none [0x013F000000] true).host).issue = [0x013F000000] := by decide +kernel

/-- RecordDelivery and every clause of ClampedTo: NaN, below, above, the bounds and a value between. -/
theorem witness_record_delivery :
    s0.cfg.legal = true ∧ isNaN record.cascade = true ∧ fLt record.spread lit0 = true ∧ fGt record.decay lit1 = true ∧
      within lit0 lit1 record.attack = true ∧ within lit0 lit1 lit0 = true ∧ within lit0 lit1 lit1 = true := by
  decide +kernel

/-- BasicOperations: finite operands with a finite sum and product, a tie, NaN, Inf - Inf, 0/0 and x/0. -/
theorem witness_basic_operations :
    (isFinite lit1 = true ∧ isFinite 0x33800000 = true ∧ isFinite (fAdd lit1 0x33800000) = true ∧
      isFinite (fMul lit1 0x33800000) = true ∧ isFinite 0x3F800001 = true ∧
      (units (fAdd lit1 0x33800000) - (units lit1 + units 0x33800000)).natAbs =
        (units 0x3F800001 - (units lit1 + units 0x33800000)).natAbs ∧ units 0x3F800001 ≠ units (fAdd lit1 0x33800000)) ∧
    isNaN 0x7FC00000 = true ∧ (isInf 0x7F800000 = true ∧ signBit 0x7F800000 = signBit 0x7F800000) ∧
    magBits 0x80000000 = 0 ∧ (isFinite litNeg1 = true ∧ magBits litNeg1 ≠ 0 ∧ magBits lit0 = 0) := by decide +kernel

/-- A product half way between two f32: 1.5 × 0x3F800001. -/
theorem witness_product_tie :
    (units (fMul lit1_5 0x3F800001) * 2 ^ 149 - units lit1_5 * units 0x3F800001).natAbs =
        (units 0x3FC00001 * 2 ^ 149 - units lit1_5 * units 0x3F800001).natAbs ∧
      units 0x3FC00001 ≠ units (fMul lit1_5 0x3F800001) ∧ isFinite (fMul lit1_5 0x3F800001) = true := by decide +kernel

/-- A quotient half way between two f32: the smallest subnormal by 2.0. -/
theorem witness_quotient_tie :
    isFinite 0x00000001 = true ∧ isFinite lit2 = true ∧ magBits lit2 ≠ 0 ∧ isFinite (fDiv 0x00000001 lit2) = true ∧
      (units (fDiv 0x00000001 lit2) * units lit2 - units 0x00000001 * 2 ^ 149).natAbs =
        (units 0x00000001 * units lit2 - units 0x00000001 * 2 ^ 149).natAbs ∧
      units 0x00000001 ≠ units (fDiv 0x00000001 lit2) := by decide +kernel

/-- BasicOperations: operands whose exact sum, product and quotient are the largest finite f32. -/
theorem witness_finite_results :
    isFinite 0x7F7FFFFF = true ∧ (units 0x7F7FFFFF + units lit0).natAbs ≤ magUnits 0x7F7FFFFF ∧
      (units 0x7F7FFFFF * units lit1).natAbs ≤ magUnits 0x7F7FFFFF * 2 ^ 149 ∧ magBits lit1 ≠ 0 ∧
      magUnits 0x7F7FFFFF * 2 ^ 149 ≤ magUnits 0x7F7FFFFF * magUnits lit1 := by decide +kernel

/-- IntegerConversions: 0, 2^24, and a tie at 12.5. -/
theorem witness_integer_conversions :
    (isFinite lit0 = true ∧ 0 ≤ units lit0) ∧
    (isFinite 0x4B800000 = true ∧ units 0x4B800000 ≤ 2 ^ 24 * 2 ^ 149) ∧
    (isFinite 0x41480000 = true ∧ 2 * (units 0x41480000 - 12 * 2 ^ 149) = 2 ^ 149) := by decide +kernel

/-- ClampsAndExtremes: both infinities, a NaN operand, and equal operands of either sign of zero. -/
theorem witness_clamps_and_extremes :
    (fLe lit0 lit1 = true ∧ isInf 0x7F800000 = true ∧ signBit 0x7F800000 = false ∧ isFinite lit1 = true) ∧
    (isInf 0xFF800000 = true ∧ signBit 0xFF800000 = true ∧ isFinite lit0 = true) ∧
    isNaN 0x7FC00000 = true ∧ (isNaN lit0 = false ∧ units lit0 < units lit1) ∧ units 0x80000000 = units lit0 := by
  decide +kernel

/-- FunctionContracts. -/
theorem witness_function_contracts :
    isFinite litTwoPi = true ∧ isFinite 0x7F800000 = false ∧ isNaN 0x7F800000 = false ∧ isNaN 0x7FC00000 = true ∧
      (isFinite lit2000 = true ∧ fGt lit2000 lit0 = true ∧ isFinite lit0_5 = true) ∧
      fLe litNeg1 lit0_5 = true ∧ fGt lit2000 lit1 = true ∧
      (isFinite lit0_001 = true ∧ fGt lit0_001 lit0 = true ∧ fLt lit0_001 lit1 = true) := by decide +kernel

/-- WaveFolding: the largest magnitude for 2 reflections, the bounds of [-1, 1], NaN, Inf, and the threshold. -/
theorem witness_wave_folding :
    (isFinite 0x40A00000 = true ∧ magUnits 0x40A00000 ≤ (1 + 2 * 2) * 2 ^ 149 ∧ 2 ≤ 16) ∧
    within litNeg1 lit1 lit1 = true ∧ within litNeg1 lit1 litNeg1 = true ∧ isNaN 0x7FC00000 = true ∧
    isInf 0xFF800000 = true ∧ (within lit0 lit1 lit0_01 = true ∧ fLe lit0_01 lit0_01 = true) ∧
    fGt 0x3F800001 lit1 = true ∧ fLt 0xBF800001 litNeg1 = true ∧ fGt 0x3C23D70B lit0_01 = true ∧
    fGt lit0_01 lit0_01 = false := by decide +kernel

/-- The default parameters are default parameters. -/
theorem witness_is_default : Params.default.isDefault := rfl

/-- ExponentialMap: the ends and the middle of the control's range. -/
theorem witness_exponential_map :
    (isFinite lit0_001 = true ∧ isFinite lit2000 = true ∧ fGt lit2000 lit0 = true) ∧ within lit0 lit1 lit0 = true ∧
      within lit0 lit1 lit0_5 = true ∧ within lit0 lit1 lit1 = true := by decide +kernel

/-- WrittenRegisterReadsBackClamped: the first and the last register. -/
theorem witness_written_register :
    instrOf 0x01 0x40000000 = some (.setAttack 0x40000000) ∧ instrOf 0x0E 0x7FC00000 = some (.setVerbExcite 0x7FC00000) ∧
      isNaN 0x7FC00000 = true ∧ fGt 0x40000000 lit1 = true := by decide +kernel

/-- ReadRegister and ReadsAndNop: the ids and selectors at the ends of their ranges. -/
theorem witness_read_ids :
    0x12 < (0x13 : Word).toNat ∧ (0xFFFFFFFF : Word).toNat = 2 ^ 32 - 1 ∧ (0 : Word).toNat = (0 : Fin 4).val ∧
      (3 : Word).toNat = (3 : Fin 4).val ∧ (4 : Word).toNat = 4 + (0 : Fin 2).val ∧
      (5 : Word).toNat = 4 + (1 : Fin 2).val ∧ 6 ≤ (6 : Word).toNat := by decide

/-- SetFrequency and NoteOn: at a difference of 2.0, and above it. -/
theorem witness_set_frequency :
    s0.cfg.legal = true ∧ fGt (absF (fSub 0x435E0000 s0.res.baseFreq)) lit2 = false ∧
      fGt (absF (fSub 0x435E8000 s0.res.baseFreq)) lit2 = true ∧ within s0.cfg.fMin s0.cfg.fMax 0x435E8000 = true ∧
      within s0.cfg.fMin s0.cfg.fMax s0.cfg.fMin = true ∧ within s0.cfg.fMin s0.cfg.fMax s0.cfg.fMax = true := by
  decide +kernel

/-- SetVoice: the active voice again, a switch into the resonator with the gate held, and one away from it. -/
theorem witness_set_voice :
    voiceOf 0 = s0.eng.voice ∧ (voiceOf 2 ≠ (note 0).eng.voice ∧ voiceOf 2 = .resonator ∧ (note 0).eng.gate = true) ∧
      voiceOf 1 ≠ .resonator ∧ s0.eng.gate = false ∧ 2 ≤ (2 : Word).toNat ∧ 2 ≤ (0xFFFFFFFF : Word).toNat := by
  decide +kernel

/-- GateEdges: the rising edge, the falling edge, and no edge. -/
theorem witness_gate_edges : s0.eng.gate = false ∧ (note 0).eng.gate = true := by decide +kernel

/-- NoteOnForcesTheGate: a command that is neither GATE 0 nor NOTE_OFF, with the gate 1. -/
theorem witness_note_on_forces_the_gate :
    (note 0).eng.gate = true ∧ exec (.setVoice 2) (note 0) = .next (after (.setVoice 2) (note 0)) ∧
      Instr.setVoice 2 ≠ .gate false ∧ Instr.setVoice 2 ≠ .noteOff :=
  ⟨by decide +kernel, rfl, by decide, by decide⟩

/-- Excitation: a PROCESS on the resonator voice; the smallest burst of the last clause and the largest. -/
theorem witness_excitation :
    (note 2).eng.voice = .resonator ∧ exec .process (note 2) = .next (after .process (note 2)) ∧
      fLe 0x000000FA 0x000000FA = true ∧ fLe 0x000000FA 0x7F800000 = true :=
  ⟨by decide +kernel, rfl, by decide +kernel, by decide +kernel⟩

/-- ProcessOneSample, InactiveVoicesAreUnread and the voice clauses of FM and RES. -/
theorem witness_voices :
    (note 0).cfg.legal = true ∧ (note 0).eng.voice = .cascade ∧ (note 1).eng.voice = .fm ∧
      (note 2).eng.voice = .resonator ∧ isFinite (fMul lit1 (note 0).cfg.masterGain) = true ∧
      isFinite (fMul 0x7F800000 (note 0).cfg.masterGain) = false := by decide +kernel

/-- A PROCESS answers a next state (StatusPorts, OutputBound, EnvelopeStep and the other statements about one). -/
theorem witness_process_answers : exec .process (note 1) = .next (after .process (note 1)) := rfl

/-- ReadRegister: a NaN written to the last register, and to FREQ. -/
theorem witness_read_register_nan :
    instrOf 0x0E 0x7FC00000 = some (.setVerbExcite 0x7FC00000) ∧ isNaN 0x7FC00000 = true ∧
      exec (.setVerbExcite 0x7FC00000) s0 = .next (after (.setVerbExcite 0x7FC00000) s0) ∧
      exec (.setFrequency 0x7FC00000) s0 = .next (after (.setFrequency 0x7FC00000) s0) := by
  refine ⟨by decide, by decide, rfl, rfl⟩

/-- StatusPorts: an edge with no command due, and one with a NOTE_ON due. -/
theorem witness_status_ports :
    (step s0 = .next (nextOr s0 (step s0)) ∧ (edgeInput s0.host).rst = false ∧ s0.port.inFlight = none) ∧
      (step (due 0x13435C0000) = .next (nextOr s0 (step (due 0x13435C0000))) ∧
        (edgeInput (due 0x13435C0000).host).rst = false ∧ decode 0x13435C0000 ≠ .ok .process) := by
  refine ⟨⟨rfl, by decide +kernel, by decide +kernel⟩, rfl, by decide +kernel, by decide +kernel⟩

/-- IdleIsSilent: the reset state. -/
theorem witness_idle_is_silent :
    s0.cfg.legal = true ∧ s0.env.stage = .idle ∧ exec .process s0 = .next (after .process s0) :=
  ⟨by decide +kernel, by decide +kernel, rfl⟩

/-- WhoWritesWhat: each piece of state is written by a command named for it. -/
theorem witness_who_writes_what :
    (after .process (note 0)).env.level ≠ (note 0).env.level ∧ (after .noteOff (note 0)).env.stage ≠ (note 0).env.stage ∧
      (after (.setAttack lit1) s0).env.attackRate ≠ s0.env.attackRate ∧
      (after (.setDecay lit1) s0).env.decayCoeff ≠ s0.env.decayCoeff ∧
      (after .process (note 0)).cas.phase ≠ (note 0).cas.phase ∧ (after .process (note 0)).cas.mod ≠ (note 0).cas.mod ∧
      (after .process (note 1)).fm.carPhase ≠ (note 1).fm.carPhase ∧
      (after (.setFrequency 0x43DC0000) s0).res.combLen ≠ s0.res.combLen ∧
      (after .process (note 2)).res.combW ≠ (note 2).res.combW ∧
      (after .process (note 2)).res.impulse ≠ (note 2).res.impulse ∧
      delayRead (after .process (note 2)).res 0 0 ≠ delayRead (note 2).res 0 0 ∧
      (after (.setVoice 2) s0).eng.voice ≠ s0.eng.voice ∧ (after (.gate true) s0).eng.gate ≠ s0.eng.gate ∧
      (after .process (note 0)).eng.lastSample ≠ (note 0).eng.lastSample ∧ (after (.setChaos lit1) s0).reg ≠ s0.reg ∧
      (after (.gate true) (s0.putCas { s0.cas with henv := Vector.replicate 8 lit0 })).cas.henv ≠ Vector.replicate 8 lit0 := by
  decide +kernel

/-- InactiveVoicesAreUnread: two states that differ in the oscillators that are not active. -/
theorem witness_inactive_voices :
    AgreeOnActiveVoice (note 1) ((note 1).putCas { (note 1).cas with freq := 0x7FC00000 }) :=
  ⟨rfl, rfl, rfl, rfl, fun h => absurd h (by decide +kernel), fun _ => rfl, fun h => absurd h (by decide +kernel)⟩

/-- EnvelopeStep: every stage, and both outcomes of the attack and of the decay. -/
theorem witness_envelope_step :
    s0.env.stage = .idle ∧ (note 0).env.stage = .attack ∧ (after .noteOff (note 0)).env.stage = .decay ∧
      fGe (fAdd 0x3F7F6B67 0x3CB9C277) lit1 = true ∧ fGe (fAdd lit0 0x3CB9C277) lit1 = false ∧
      fLt (fMul 0x3A83129C 0x3F7C0574) lit0_001 = true ∧ fLt (fMul lit1 0x3F7C0574) lit0_001 = false := by
  decide +kernel

/-- AttackRisesToSustain: the attack after NOTE_ON, and the largest level below 1.0. -/
theorem witness_attack :
    (within lit0 lit1 lit0 = true ∧ within lit0 lit1 lit1 = true) ∧ (note 0).env.stage = .attack ∧
      withinBelow lit0 lit1 (note 0).env.level = true ∧ withinBelow lit0 lit1 0x3F7FFFFF = true ∧
      (note 0).env.attackRate = attackRateOf Params.default lit0 := by decide +kernel

/-- DecayFallsToIdle: the ends of both ranges, and of the control. -/
theorem witness_decay :
    (Params.default.isDefault ∧ Params.default.fns = .reference ∧ within lit0 lit1 lit0 = true ∧
      within lit0 lit1 lit1 = true) ∧
    (after .noteOff (note 0)).env.stage = .decay ∧ within lit0_001 lit1 lit0_001 = true ∧
      within lit0_001 lit1 lit1 = true ∧ within lit0 0x3F7FFEB8 lit0 = true ∧ within lit0 0x3F7FFEB8 0x3F7FFEB8 = true := by
  exact ⟨⟨rfl, rfl, by decide +kernel, by decide +kernel⟩, by decide +kernel⟩

/-- HarmonicCount and HarmonicWeights: the ends of the controls and of the modulator output. -/
theorem witness_harmonics :
    within lit0 lit1 lit0 = true ∧ within lit0 lit1 lit1 = true ∧ fLe lit0 lit1 = true ∧
      within litNeg1 lit1 litNeg1 = true ∧ within litNeg1 lit1 lit1 = true := by decide +kernel

/-- HarmonicPhases: harmonic 5 at 4000 Hz is above the limit, harmonic 1 is not. -/
theorem witness_harmonic_phases :
    fGt (harmonicFreq Params.default State.resetRegs { s0.cas with freq := 0x457A0000 } lit0 4)
        (fMul lit0_45 Params.default.sampleRate) = true ∧
      fGt (harmonicFreq Params.default State.resetRegs { s0.cas with freq := 0x457A0000 } lit0 0)
        (fMul lit0_45 Params.default.sampleRate) = false ∧ s0.eng.voice = .cascade ∧ s0.cfg.modSource = .lorenz ∧
      within Params.default.fMin Params.default.fMax 0x457A0000 = true ∧ numHarmonics s0.reg.spread ≤ 7 := by
  decide +kernel

/-- HarmonicPhases, the phase wrap: the ends of [0, 2^23), both zeros, and the largest f32 below 2^23. -/
theorem witness_wrap :
    (isFinite lit0 = true ∧ 0 ≤ units lit0 ∧ units lit0 < 2 ^ 23 * 2 ^ 149) ∧
    (isFinite 0x80000000 = true ∧ 0 ≤ units 0x80000000) ∧
    (isFinite 0x4AFFFFFF = true ∧ 0 ≤ units 0x4AFFFFFF ∧ units 0x4AFFFFFF < 2 ^ 23 * 2 ^ 149 ∧
      wrap01 0x4AFFFFFF = lit0_5) := by decide +kernel

/-- The registers after reset are in range. -/
theorem witness_normalised : State.resetRegs.normalised := by
  intro id x h
  unfold regOfId at h
  split at h <;> first
    | (cases h; decide +kernel)
    | cases h

/-- FundamentalOnly: the reset registers and the reset oscillator. -/
theorem witness_fundamental_only :
    State.resetRegs.spread = lit0 ∧ State.resetRegs.cascade = lit0 ∧ State.resetRegs.chaos = lit0 ∧
      State.resetRegs.wavefold = lit0 ∧ within Params.default.fMin Params.default.fMax s0.cas.freq = true ∧
      s0.cas.henv = Vector.replicate 8 lit1 ∧ withinBelow lit0 lit1 s0.cas.phase[0] = true := by decide +kernel

/-- A note at 4000 Hz with all harmonics and the fold on. -/
def fullCascade : State :=
  ((note 0).putReg { (note 0).reg with spread := lit1, wavefold := lit0_5 }).putCas { (note 0).cas with freq := 0x457A0000 }

/-- CascadeSample: eight harmonics, the first below the anti-aliasing limit and the fifth above it; one harmonic with
the fold off. -/
theorem witness_cascade_sample :
    (fullCascade.eng.voice = .cascade ∧ within lit0 lit1 fullCascade.reg.spread = true ∧
      exec .process fullCascade = .next (after .process fullCascade) ∧ fullCascade.cfg.modSource = .lorenz ∧
      numHarmonics fullCascade.reg.spread = 8 ∧ fGt fullCascade.reg.wavefold lit0_01 = true ∧
      fGt (harmonicFreq fullCascade.cfg fullCascade.reg fullCascade.cas lit0 4) (fMul lit0_45 fullCascade.cfg.sampleRate) =
        true ∧
      fGt (harmonicFreq fullCascade.cfg fullCascade.reg fullCascade.cas lit0 0) (fMul lit0_45 fullCascade.cfg.sampleRate) =
        false) ∧
    ((note 0).eng.voice = .cascade ∧ within lit0 lit1 (note 0).reg.spread = true ∧
      exec .process (note 0) = .next (after .process (note 0)) ∧ numHarmonics (note 0).reg.spread = 1 ∧
      fGt (note 0).reg.wavefold lit0_01 = false) :=
  ⟨⟨by decide +kernel, by decide +kernel, rfl, by decide +kernel, by decide +kernel, by decide +kernel, by decide +kernel,
    by decide +kernel⟩, by decide +kernel, by decide +kernel, rfl, by decide +kernel, by decide +kernel⟩

/-- DelayMemory: canonical lines; a different index and a different line. -/
theorem witness_delay_memory :
    (∀ m : Fin 6, Memory.wf s0.res.lines[m] = true) ∧ ((0 : Fin 6), 4095) ≠ ((0 : Fin 6), 0) ∧
      ((5 : Fin 6), 0) ≠ ((0 : Fin 6), 0) := by decide +kernel

/-- LengthLaw: the lengths after reset. -/
theorem witness_length_law : s0.cfg.legal = true ∧ LengthsInRange s0.cfg s0.res := by
  refine ⟨by decide +kernel, ?_, ?_⟩ <;> decide +kernel

/-- Every delay memory is empty after reset. -/
theorem reset_lines : ∀ line : Fin 6, s0.res.lines[line] = [] := by decide +kernel

/-- 0.0 is within the bound of every line. -/
theorem zero_in_cell_bound : ∀ line : Fin 6, within (fNeg (cellBound line)) (cellBound line) lit0 = true := by
  decide +kernel

/-- The reset state meets the invariants, so the hypotheses of StepKeepsInv, StepKeepsNumeric, ResonatorSample and
OutputBound are met. -/
theorem witness_inv : s0.Inv where
  legal := by decide +kernel
  regs := witness_normalised
  curFreq := by decide +kernel
  casFreq := by decide +kernel
  fmFreq := by decide +kernel
  henv := by decide +kernel
  res :=
    { freq := by decide +kernel, baseFreq := by decide +kernel, baseDelay := by decide +kernel
      lengths := witness_length_law.2, indices := by constructor <;> decide +kernel, canonical := by decide +kernel
      cells := by
        intro line p h
        rw [reset_lines line] at h
        cases h }
  sample := by constructor <;> decide +kernel

/-- The same for the numeric invariants. -/
theorem witness_numeric : s0.Numeric where
  isDefault := rfl
  level := by decide +kernel
  attackRate := by decide +kernel
  decayCoeff := by decide +kernel
  phase := by decide +kernel
  modPhase := by decide +kernel
  carPhase := by decide +kernel
  lastMod := by decide +kernel
  res :=
    { impulse := by decide +kernel, burst := by decide +kernel, lp := by decide +kernel
      cells := by
        intro line idx
        have hz : delayRead s0.res line idx = lit0 := by rw [delayRead, reset_lines line]; rfl
        rw [hz]
        exact zero_in_cell_bound line }
  meter := by decide +kernel
  statusLevel := by decide +kernel

/-- StepKeepsInv and the others: a step from such a state, and the resonator after a note, whose PROCESS stores. -/
theorem witness_steps :
    step s0 = .next (nextOr s0 (step s0)) ∧ exec .process s0 = .next (after .process s0) ∧ s0.eng.voice ≠ .resonator := by
  exact ⟨rfl, rfl, by decide +kernel⟩

end Sys2Proof.Tests
end

section
/-!
PROOFS. The constraints of a configuration, and the step's refusal of one that breaks any (00_scope.md R13).
-/

namespace Sys2Proof.Proofs

open Sys2Proof.Machine Sys2Proof.Laws

/-- The parameters of 00_scope.md R11 meet the constraints of R13: every comparison is between literals. -/
theorem default_legal : Params.default.legal = true := by decide +kernel

/-- `legal_facts` with its converse: `Params.legal` checks nothing beyond the constraints of R13. -/
theorem legal_iff (c : Params) :
    c.legal = true ↔
      fGt c.sampleRate lit0 = true ∧ fLt lit0 c.fMin = true ∧ fLe c.fMin c.defaultFreq = true ∧
        fLe c.defaultFreq c.fMax = true ∧ 2 * 8 < c.combCap ∧ 2 * 4 < c.apCap ∧ fLe lit0 c.dampMax = true ∧
        fLt c.dampMax lit1 = true ∧ fLt lit0 c.excDecay = true ∧ fLt c.excDecay lit1 = true ∧
        fLe lit0 c.chaosFloor = true ∧ fLt c.chaosFloor lit1 = true ∧ 1 ≤ c.foldMaxIter ∧
        fLt lit0 c.masterGain = true ∧ fGt c.safetyBound lit1 = true := by
  refine ⟨legal_facts, fun h => ?_⟩
  simp only [Params.legal, Bool.and_eq_true, decide_eq_true_eq, and_assoc]
  exact h

/-- The legality of the configuration is tested before the edge is looked at, so no input escapes the refusal. -/
theorem step_of_illegal {s : State} (h : s.cfg.legal = false) : step s = .refused .illegalConfiguration :=
  if_neg (ne_true_of_eq_false h)

/-- Settles O10: the default parameters by evaluation, the constraints as the conjuncts of `Params.legal`, and the refusal
as the branch of `step` that an illegal configuration takes. -/
theorem configurationConstraints : Obligations.ConfigurationConstraints :=
  ⟨default_legal, fun s => ⟨legal_iff s.cfg, step_of_illegal⟩⟩

end Sys2Proof.Proofs
end

section
/-!
PROOFS. What a command can do to the state, said once: the write of a control register in one form for all fourteen
(10_state.md R42), and every command as one of eleven effects (30_encoding.md R132).
-/

namespace Sys2Proof.Proofs

open Sys2Proof.Machine Sys2Proof.Laws

/-- The control registers with register `id` of 10_state.md R42 holding v; no other id names one with storage. -/
def setControl (r : Regs) (id : Nat) (v : F32) : Regs :=
  match id with
  | 0x01 => { r with attack := v }
  | 0x02 => { r with decay := v }
  | 0x03 => { r with spread := v }
  | 0x04 => { r with cascade := v }
  | 0x05 => { r with wavefold := v }
  | 0x06 => { r with chaos := v }
  | 0x07 => { r with fmIndex := v }
  | 0x08 => { r with fmRatio := v }
  | 0x09 => { r with fmFeedback := v }
  | 0x0A => { r with fmFold := v }
  | 0x0B => { r with resFeedback := v }
  | 0x0C => { r with resDamp := v }
  | 0x0D => { r with resMix := v }
  | 0x0E => { r with verbExcite := v }
  | _ => r

/-- The envelope after register `id` has become v: ATTACK and DECAY set the rate derived from them (41_envelope.md R170,
R171). -/
def deriveRates (c : Params) (e : EnvState) (id : Nat) (v : F32) : EnvState :=
  match id with
  | 0x01 => { e with attackRate := attackRateOf c v }
  | 0x02 => { e with decayCoeff := decayCoeffOf c v }
  | _ => e

/-- The write of the operand x to control register `id`: clamped, with the rate derived from it. -/
def writeControl (id : Nat) (x : F32) (s : State) : State :=
  (s.putReg (setControl s.reg id (clamp01 x))).putEnv (deriveRates s.cfg s.env id (clamp01 x))

/-- A control register is its own storage: the write of one is read there and nowhere else. -/
theorem regOfId_setControl {id : Nat} (h₁ : 0x01 ≤ id) (h₂ : id ≤ 0x0E) (r : Regs) (v : F32) (id' : Nat) :
    regOfId (setControl r id v) id' = if id' = id then some v else regOfId r id' := by
  split
  · subst id'
    interval_cases id <;> rfl
  · rename_i hne
    interval_cases id <;> (unfold regOfId; split <;> simp_all [setControl])

/-- Every command is what its opcode and operand field decode to (30_encoding.md R137, R138). -/
theorem instrOf_opcode_field (i : Instr) : instrOf i.opcode i.field = some i := by
  cases i with
  | gate b => cases b <;> rfl
  | _ => rfl

/-- The fourteen SET_ commands of the control registers are one command, by the id of the register. -/
theorem exec_control {op : BitVec 8} {x : Word} {i : Instr} (h₁ : 0x01 ≤ op.toNat) (h₂ : op.toNat ≤ 0x0E)
    (hi : instrOf op x = some i) (s : State) : exec i s = answer 0 (writeControl op.toNat x s) := by
  unfold instrOf at hi
  generalize op.toNat = id at h₁ h₂ hi ⊢
  interval_cases id <;> (obtain rfl := Option.some.inj hi; rfl)

/-- What a command can do: answer a word, alone or because the voice or the gate is already as the operand says; write a
control register; or change the engine. -/
inductive Effect (s : State) : Instr → State → Prop
  | read (i : Instr) (w : Word) (h : i = .nop ∨ 0x30 ≤ i.opcode.toNat) : Effect s i (respond w s)
  | sameVoice (v : Word) (h : voiceOf v = s.eng.voice) : Effect s (.setVoice v) (respond 0 s)
  | sameGate (b : Bool) (h : s.eng.gate = b) : Effect s (.gate b) (respond 0 s)
  | control (i : Instr) (h₁ : 0x01 ≤ i.opcode.toNat) (h₂ : i.opcode.toNat ≤ 0x0E) :
      Effect s i (respond 0 (writeControl i.opcode.toNat i.field s))
  | setFrequency (f : F32) : Effect s (.setFrequency f) (respond 0 (applyFrequency f s))
  | setVoice (v : Word) (h : voiceOf v ≠ s.eng.voice) :
      Effect s (.setVoice v) (respond 0 (switchVoice (voiceOf v) s))
  | gateOn (h : s.eng.gate = false) : Effect s (.gate true) (respond 0 (setGate true (triggerAll s)))
  | gateOff (h : s.eng.gate = true) : Effect s (.gate false) (respond 0 (setGate false (s.putEnv (envRelease s.env))))
  | noteOn (f : F32) :
      Effect s (.noteOn f) (respond 0 (setGate true (triggerAll (resetOscillators (applyFrequency f s)))))
  | noteOff : Effect s .noteOff (respond 0 (setGate false (s.putEnv (envRelease s.env))))
  | process : Effect s .process (respond (guardSample s.cfg (synthesise s).2)
      (recordSample (guardSample s.cfg (synthesise s).2) (synthesise s).1))

theorem effect_of_control {i : Instr} {s t : State} (h₁ : 0x01 ≤ i.opcode.toNat) (h₂ : i.opcode.toNat ≤ 0x0E)
    (h : exec i s = .next t) : Effect s i t := by
  rw [exec_control h₁ h₂ (instrOf_opcode_field i) s, answer_next_iff] at h
  subst h
  exact .control i h₁ h₂

theorem effect_of_execSetVoice {v : Word} {s t : State} (h : exec (.setVoice v) s = .next t) :
    Effect s (.setVoice v) t := by
  obtain rfl := answer_next_iff.1 h
  split
  next hv => exact .sameVoice v hv
  next hv => exact .setVoice v hv

theorem effect_of_execGate {b : Bool} {s t : State} (h : exec (.gate b) s = .next t) : Effect s (.gate b) t := by
  obtain rfl := answer_next_iff.1 h
  split
  next hc => obtain ⟨rfl, hg⟩ := hc; exact .gateOn hg
  next =>
    split
    next hc => obtain ⟨rfl, hg⟩ := hc; exact .gateOff hg
    next hoff => exact .sameGate b (by cases b <;> simp_all)

/-- A command that answers a next state has one of the eleven effects. -/
theorem effect_of_exec {i : Instr} {s t : State} (h : exec i s = .next t) : Effect s i t := by
  by_cases hc : 0x01 ≤ i.opcode.toNat ∧ i.opcode.toNat ≤ 0x0E
  · exact effect_of_control hc.1 hc.2 h
  cases i with
  | setVoice v => exact effect_of_execSetVoice h
  | gate b => exact effect_of_execGate h
  | setFrequency f => exact answer_next_iff.1 h ▸ .setFrequency f
  | noteOn f => exact answer_next_iff.1 h ▸ .noteOn f
  | noteOff => exact answer_next_iff.1 h ▸ .noteOff
  | process => exact answer_next_iff.1 h ▸ .process
  | nop | getOutputLevel | isPlaying | getCurrentFreq | getEnvStage | getEnvLevel | getResBaseFreq =>
    exact answer_next_iff.1 h ▸ .read _ _ (by decide)
  | getResDelayLen sel => exact answer_next_iff.1 h ▸ .read _ _ (.inr (by simp [Instr.opcode]))
  | readReg id => exact answer_next_iff.1 h ▸ .read _ _ (.inr (by simp [Instr.opcode]))
  | _ => simp [Instr.opcode] at hc

end Sys2Proof.Proofs
end

section
/-!
PROOFS. The invariants of 10_state.md R74: the reset state meets them, each operation of a command keeps them, and so does
every step.
-/

namespace Sys2Proof.Proofs

open Sys2Proof.Machine Sys2Proof.Laws

theorem lit0_within_unit : within lit0 lit1 lit0 = true := by decide

theorem lit0_within_sym : within litNeg1 lit1 lit0 = true := by decide

theorem lit0_withinBelow_unit : withinBelow lit0 lit1 lit0 = true := by decide

theorem phase_replicate_lit0 (i : Fin 8) : withinBelow lit0 lit1 (Vector.replicate 8 lit0)[i] = true := by
  simpa using lit0_withinBelow_unit

/-! ### The rates of the envelope under the default parameters -/

section
variable {c : Params} (hd : c.isDefault) {x : F32} (hx : within lit0 lit1 x = true)
include hd hx

theorem attackRateOf_within_unit : within lit0 lit1 (attackRateOf c x) = true :=
  within_mono (attackRateOf_within hd hx) (by decide) (by decide)

theorem decayCoeffOf_within_unit : within lit0 lit1 (decayCoeffOf c x) = true :=
  within_mono (decayCoeffOf_within hd hx) (by decide) (by decide)

end

/-! ### The reset state -/

/-- Silence is in range: the safety bound is positive. -/
theorem lit0_inSafetyRange {c : Params} (h : c.legal = true) : InSafetyRange c lit0 := by
  have hs := fLe_iff.1 (safety_range h)
  rw [isNaN_fNeg, units_fNeg] at hs
  have e0 : units lit0 = 0 := by decide
  refine ⟨by decide, within_iff.2 ⟨?_, hs.2.1, by decide, ?_, ?_⟩⟩
  · rw [isNaN_fNeg]; exact hs.1
  · rw [units_fNeg]; omega
  · omega

theorem inv_resetWith {c : Params} (hl : c.legal = true) (h : HostSide) : (State.resetWith c h).Inv where
  legal := hl
  regs := resetRegs_normalised
  curFreq := (inv_resetWith_res hl h).freq
  casFreq := (inv_resetWith_res hl h).freq
  fmFreq := (inv_resetWith_res hl h).freq
  henv := rfl
  res := inv_resetWith_res hl h
  sample := lit0_inSafetyRange hl

/-- The resonator after reset is one that RES.reset leaves. -/
theorem numeric_resetWith_res (c : Params) (h : HostSide) : (State.resetWith c h).res.Numeric :=
  numeric_resReset (State.resetWith c h).res

theorem numeric_resetWith {c : Params} (hd : c.isDefault) (h : HostSide) : (State.resetWith c h).Numeric where
  isDefault := hd
  level := lit0_within_unit
  attackRate := attackRateOf_within_unit hd lit0_within_unit
  decayCoeff := decayCoeffOf_within_unit hd lit0_within_unit
  phase := phase_replicate_lit0
  modPhase := lit0_withinBelow_unit
  carPhase := lit0_withinBelow_unit
  lastMod := lit0_within_sym
  res := numeric_resetWith_res c h
  meter := (by decide : within lit0 lit2 lit0 = true)
  statusLevel := lit0_within_unit

/-- Settles O57: the two reset lemmas, at any legal configuration and at the default one, which is legal. -/
theorem resetMeetsTheInvariants : Obligations.ResetMeetsTheInvariants :=
  ⟨inv_resetWith default_legal _, numeric_resetWith (c := Params.default) rfl _,
    fun _ h hl => ⟨inv_resetWith hl h, fun hd => numeric_resetWith hd h⟩⟩

/-! ### Each operation keeps Inv -/

section
variable {s : State} (hi : s.Inv)
include hi

theorem inv_respond (w : Word) : (respond w s).Inv := { hi with }

theorem inv_writeControl {id : Nat} (h₁ : 0x01 ≤ id) (h₂ : id ≤ 0x0E) (x : F32) : (writeControl id x s).Inv :=
  { hi with
    regs := normalised_of_set hi.regs x fun id' y hy => by
      rw [writeControl, putEnv_reg, putReg_reg, regOfId_setControl h₁ h₂] at hy
      split at hy
      next => exact .inr (Option.some.inj hy).symm
      next => exact .inl hy }

theorem inv_putEnv (e : EnvState) : (s.putEnv e).Inv := { hi with }

theorem inv_putCas {x : CasState} (hf : within s.cfg.fMin s.cfg.fMax x.freq = true)
    (hh : x.henv = Vector.replicate 8 lit1) : (s.putCas x).Inv := { hi with casFreq := hf, henv := hh }

theorem inv_putFm {x : FmState} (hf : within s.cfg.fMin s.cfg.fMax x.freq = true) : (s.putFm x).Inv :=
  { hi with fmFreq := hf }

theorem inv_putRes {x : ResState} (hx : x.Inv s.cfg) : (s.putRes x).Inv := { hi with res := hx }

theorem inv_setGate (b : Bool) : (setGate b s).Inv := { hi with }

theorem inv_applyFrequency (f : F32) : (applyFrequency f s).Inv :=
  { hi with
    curFreq := clampFreq_within hi.legal f
    casFreq := clampFreq_within hi.legal (clampFreq s.cfg f)
    fmFreq := clampFreq_within hi.legal (clampFreq s.cfg f)
    res := inv_resSetFrequency hi.legal (clampFreq s.cfg f) hi.res }

theorem inv_resetOscillators : (resetOscillators s).Inv :=
  { hi with henv := rfl, res := inv_resReset hi.res }

theorem inv_triggerAll : (triggerAll s).Inv :=
  { hi with henv := rfl, res := inv_resTrigger _ hi.res }

theorem inv_switchVoice (v : Voice) : (switchVoice v s).Inv := by
  unfold switchVoice
  split
  · exact { hi with res := inv_resTrigger _ hi.res }
  · exact { hi with }

theorem inv_dispatchVoice (env : F32) : (dispatchVoice env s).1.Inv := by
  unfold dispatchVoice
  split
  · obtain ⟨hf, hh, -⟩ := casProcess_frame s.cfg s.reg s.cas env
    exact inv_putCas hi (hf ▸ hi.casFreq) (hh ▸ hi.henv)
  · exact inv_putFm hi (fmProcess_freq s.cfg s.reg s.fm env ▸ hi.fmFreq)
  · exact inv_putRes hi (inv_resProcess s.reg env hi.res)

theorem inv_synthesise : (synthesise s).1.Inv := inv_dispatchVoice (inv_putEnv hi _) _

theorem inv_recordSample {x : F32} (hx : InSafetyRange s.cfg x) : (recordSample x s).Inv :=
  { hi with sample := hx }

end

/-- The configuration after the envelope and the active oscillator have run. -/
theorem synthesise_cfg (s : State) : (synthesise s).1.cfg = s.cfg := (synthesise_cases s _ _ rfl).1

/-- Every command keeps the invariants, whatever its operand. -/
theorem inv_exec {i : Instr} {s t : State} (hi : s.Inv) (h : exec i s = .next t) : t.Inv := by
  cases effect_of_exec h with
  | read | sameVoice | sameGate => exact inv_respond hi _
  | control i h₁ h₂ => exact inv_respond (inv_writeControl hi h₁ h₂ _) _
  | setFrequency f => exact inv_respond (inv_applyFrequency hi f) _
  | setVoice v => exact inv_respond (inv_switchVoice hi _) _
  | gateOn => exact inv_respond (inv_setGate (inv_triggerAll hi) true) _
  | gateOff => exact inv_respond (inv_setGate (inv_putEnv hi _) false) _
  | noteOn f =>
    have hr := inv_resetOscillators (inv_applyFrequency hi f)
    exact inv_respond (inv_setGate (inv_triggerAll hr) true) _
  | noteOff => exact inv_respond (inv_setGate (inv_putEnv hi _) false) _
  | process =>
    have hs : InSafetyRange (synthesise s).1.cfg (guardSample s.cfg (synthesise s).2) := by
      rw [synthesise_cfg]
      exact guardSample_inSafetyRange hi.legal _
    exact inv_respond (inv_recordSample (inv_synthesise hi) hs) _

theorem putHost_sameBlock (s : State) (h : HostSide) : SameBlock s (s.putHost h) :=
  ⟨rfl, rfl, rfl, rfl, rfl, rfl, rfl, rfl⟩

/-- What a step can come to for the block's own state, without the port and the surroundings: the reset state, the state it
was, or the state a command answers from the state it was. -/
theorem step_block {s t : State} (h : step s = .next t) :
    s.cfg.legal = true ∧
      ((∃ hs, t = State.resetWith s.cfg hs) ∨ SameBlock s t ∨ ∃ i u, SameBlock s u ∧ exec i u = .next t) := by
  obtain ⟨hl, ⟨-, rfl⟩ | ⟨-, ⟨-, rfl⟩ | ⟨f, n, -, rfl⟩ | ⟨f, i, -, -, hx⟩⟩⟩ := step_cases h
  · exact ⟨hl, .inl ⟨_, rfl⟩⟩
  · exact ⟨hl, .inr (.inl (acceptStep_sameBlock _ (s.putHost _)))⟩
  · exact ⟨hl, .inr (.inl (waitStep_sameBlock f n (s.putHost _)))⟩
  · exact ⟨hl, .inr (.inr ⟨i, _, releaseStep_sameBlock (s.putHost (hostStep s.host)), hx⟩)⟩

/-- Settles O58: an edge resets the block, leaves it as it was, or executes a command on it. -/
theorem stepKeepsInv : Obligations.StepKeepsInv := by
  intro s t hi h
  obtain ⟨hl, ⟨hs, rfl⟩ | hb | ⟨i, u, hb, hx⟩⟩ := step_block h
  · exact inv_resetWith hl hs
  · exact inv_of_sameBlock hb hi
  · exact inv_exec (inv_of_sameBlock hb hi) hx

/-! ### Each operation keeps Numeric -/

section
variable {s : State} (hn : s.Numeric)
include hn

theorem numeric_respond (w : Word) : (respond w s).Numeric := { hn with }

theorem numeric_putCas {x : CasState} (hp : ∀ i : Fin 8, withinBelow lit0 lit1 x.phase[i] = true) :
    (s.putCas x).Numeric := { hn with phase := hp }

theorem numeric_putFm {x : FmState} (hm : withinBelow lit0 lit1 x.modPhase = true)
    (hc : withinBelow lit0 lit1 x.carPhase = true) (hl : within litNeg1 lit1 x.lastMod = true) : (s.putFm x).Numeric :=
  { hn with modPhase := hm, carPhase := hc, lastMod := hl }

theorem numeric_putRes {x : ResState} (hx : x.Numeric) : (s.putRes x).Numeric := { hn with res := hx }

theorem numeric_setGate (b : Bool) : (setGate b s).Numeric := { hn with }

theorem numeric_writeControl (id : Nat) (x : F32) : (writeControl id x s).Numeric := by
  have ha := attackRateOf_within_unit hn.isDefault (clamp01_within x)
  have hc := decayCoeffOf_within_unit hn.isDefault (clamp01_within x)
  unfold writeControl deriveRates
  split
  · exact { hn with attackRate := ha }
  · exact { hn with decayCoeff := hc }
  · exact { hn with }

theorem numeric_envRelease : (s.putEnv (envRelease s.env)).Numeric := { hn with }

theorem numeric_applyFrequency (f : F32) : (applyFrequency f s).Numeric :=
  { hn with res := numeric_resSetFrequency _ _ hn.res }

theorem numeric_resetOscillators : (resetOscillators s).Numeric :=
  { hn with
    phase := phase_replicate_lit0
    modPhase := lit0_withinBelow_unit
    carPhase := lit0_withinBelow_unit
    lastMod := lit0_within_sym
    res := numeric_resReset _ }

theorem envTrigger_level_within : within lit0 lit1 (envTrigger s.cfg s.env).level = true := by
  unfold envTrigger
  split
  · exact lit0_within_unit
  · exact hn.level

theorem numeric_triggerAll (hr : s.reg.normalised) : (triggerAll s).Numeric :=
  { hn with
    level := envTrigger_level_within hn
    phase := phase_replicate_lit0
    modPhase := lit0_withinBelow_unit
    carPhase := lit0_withinBelow_unit
    lastMod := lit0_within_sym
    res := numeric_resTrigger hn.isDefault (hr 0x0E _ rfl) hn.res }

theorem numeric_switchVoice (hr : s.reg.normalised) (v : Voice) : (switchVoice v s).Numeric := by
  unfold switchVoice
  split
  · exact { hn with res := numeric_resTrigger hn.isDefault (hr 0x0E _ rfl) hn.res }
  · exact { hn with }

theorem numeric_envProcess : (s.putEnv (envProcess s.env)).Numeric := by
  obtain ⟨ha, hc, -⟩ := envProcess_cases s.env _ rfl
  exact { hn with
    level := envProcess_level hn.level hn.attackRate hn.decayCoeff
    attackRate := ha ▸ hn.attackRate
    decayCoeff := hc ▸ hn.decayCoeff }

/-- The active oscillator keeps its part, and its raw sample is in [-1, 1], on every voice. -/
theorem numeric_dispatchVoice (hi : s.Inv) {env : F32} (he : within lit0 lit1 env = true) :
    (dispatchVoice env s).1.Numeric ∧ within litNeg1 lit1 (dispatchVoice env s).2 = true := by
  unfold dispatchVoice
  split
  · obtain ⟨hp, hs⟩ := casProcess_bounds hn.isDefault hi.regs hi.henv hi.casFreq hn.phase he
    exact ⟨numeric_putCas hn hp, hs⟩
  · obtain ⟨hm, hc, hl, hs⟩ :=
      fmProcess_bounds hn.isDefault hi.regs hi.fmFreq hn.modPhase hn.carPhase hn.lastMod he
    exact ⟨numeric_putFm hn hm hc hl, hs⟩
  · obtain ⟨hr, hs⟩ := numeric_resProcess hn.isDefault hi.regs hi.res.canonical hn.res he
    exact ⟨numeric_putRes hn hr, hs⟩

theorem numeric_synthesise (hi : s.Inv) :
    (synthesise s).1.Numeric ∧ within litNeg1 lit1 (synthesise s).2 = true :=
  numeric_dispatchVoice (numeric_envProcess hn) (inv_putEnv hi _) (numeric_envProcess hn).level

theorem numeric_recordSample {x : F32} (hx : within 0xBF4CCCCD 0x3F4CCCCD x = true) : (recordSample x s).Numeric :=
  { hn with
    meter := nextMeter_within hn.meter hx
    statusLevel := outputLevel_within (nextMeter_within hn.meter hx) }

end

/-- Every command keeps the numeric invariants from a state with the invariants. -/
theorem numeric_exec {i : Instr} {s t : State} (hi : s.Inv) (hn : s.Numeric) (h : exec i s = .next t) : t.Numeric := by
  cases effect_of_exec h with
  | read | sameVoice | sameGate => exact numeric_respond hn _
  | control i => exact numeric_respond (numeric_writeControl hn _ _) _
  | setFrequency f => exact numeric_respond (numeric_applyFrequency hn f) _
  | setVoice v => exact numeric_respond (numeric_switchVoice hn hi.regs _) _
  | gateOn => exact numeric_respond (numeric_setGate (numeric_triggerAll hn hi.regs) true) _
  | gateOff => exact numeric_respond (numeric_setGate (numeric_envRelease hn) false) _
  | noteOn f =>
    have hr := numeric_resetOscillators (numeric_applyFrequency hn f)
    have hregs := (inv_resetOscillators (inv_applyFrequency hi f)).regs
    exact numeric_respond (numeric_setGate (numeric_triggerAll hr hregs) true) _
  | noteOff => exact numeric_respond (numeric_setGate (numeric_envRelease hn) false) _
  | process =>
    obtain ⟨hs, hraw⟩ := numeric_synthesise hn hi
    have hx := guardSample_within hn.isDefault hraw
    exact numeric_respond (numeric_recordSample hs hx) _

/-- Settles O59: the cases of O58, with the numeric invariants beside the invariants. -/
theorem stepKeepsNumeric : Obligations.StepKeepsNumeric := by
  intro s t hi hn h
  obtain ⟨-, ⟨hs, rfl⟩ | hb | ⟨i, u, hb, hx⟩⟩ := step_block h
  · exact numeric_resetWith hn.isDefault hs
  · exact numeric_of_sameBlock hb hn
  · exact numeric_exec (inv_of_sameBlock hb hi) (numeric_of_sameBlock hb hn) hx

end Sys2Proof.Proofs
end

section
/-!
PROOFS. Reading a control register back (10_state.md R42), and the writers of each piece of state (10_state.md R51 to R70).
-/

namespace Sys2Proof.Proofs

open Sys2Proof.Machine Sys2Proof.Laws

/-! ### A written register read back -/

theorem regWord_of_regOfId {s : State} {id : Nat} {v : F32} (h : regOfId s.reg id = some v) : regWord s id = v := by
  rw [regWord, h]

/-- The written register holds the clamped operand. -/
theorem regOfId_writeControl {id : Nat} (h₁ : 0x01 ≤ id) (h₂ : id ≤ 0x0E) (x : F32) (s : State) :
    regOfId (writeControl id x s).reg id = some (clamp01 x) := by
  rw [writeControl, putEnv_reg, putReg_reg, regOfId_setControl h₁ h₂, if_pos rfl]

/-- Settles O30: the SET_ command writes the clamp of its operand to the register, and READ_REG answers that register. -/
theorem writtenRegisterReadsBackClamped : Obligations.WrittenRegisterReadsBackClamped := by
  intro op x i s h₁ h₂ hi
  have hid : (op.setWidth 32).toNat = op.toNat := BitVec.toNat_setWidth_of_le (by decide)
  have hread : regWord (respond 0 (writeControl op.toNat x s)) (op.setWidth 32).toNat = clamp01 x := by
    rw [hid]
    exact regWord_of_regOfId (regOfId_writeControl h₁ h₂ x s)
  refine ⟨respond 0 (writeControl op.toNat x s), _, exec_control h₁ h₂ hi s, rfl, ?_⟩
  rw [respond_rspData, hread]
  exact clampF_clampedTo (by decide) x

/-! ### What each operation leaves alone -/

section
variable (c : Params) (e : EnvState)

@[simp] theorem envTrigger_attackRate : (envTrigger c e).attackRate = e.attackRate := rfl
@[simp] theorem envTrigger_decayCoeff : (envTrigger c e).decayCoeff = e.decayCoeff := rfl
@[simp] theorem envRelease_level : (envRelease e).level = e.level := rfl
@[simp] theorem envRelease_attackRate : (envRelease e).attackRate = e.attackRate := rfl
@[simp] theorem envRelease_decayCoeff : (envRelease e).decayCoeff = e.decayCoeff := rfl

end

section
variable (c : Params) (x : F32) (r : ResState)

@[simp] theorem resTrigger_freq : (resTrigger c x r).freq = r.freq := rfl
@[simp] theorem resTrigger_baseFreq : (resTrigger c x r).baseFreq = r.baseFreq := rfl
@[simp] theorem resTrigger_baseDelay : (resTrigger c x r).baseDelay = r.baseDelay := rfl
@[simp] theorem resTrigger_combLen : (resTrigger c x r).combLen = r.combLen := rfl
@[simp] theorem resTrigger_apLen : (resTrigger c x r).apLen = r.apLen := rfl
@[simp] theorem resTrigger_combW : (resTrigger c x r).combW = r.combW := rfl
@[simp] theorem resTrigger_apW : (resTrigger c x r).apW = r.apW := rfl
@[simp] theorem resTrigger_lp : (resTrigger c x r).lp = r.lp := rfl
@[simp] theorem delayRead_resTrigger (line : Fin 6) (idx : Nat) :
    delayRead (resTrigger c x r) line idx = delayRead r line idx := rfl

end

section
variable (c : Params) (f : F32)

@[simp] theorem fmSetFrequency_modPhase (x : FmState) : (fmSetFrequency c f x).modPhase = x.modPhase := rfl
@[simp] theorem fmSetFrequency_carPhase (x : FmState) : (fmSetFrequency c f x).carPhase = x.carPhase := rfl
@[simp] theorem fmSetFrequency_lastMod (x : FmState) : (fmSetFrequency c f x).lastMod = x.lastMod := rfl
@[simp] theorem resSetFrequency_impulse (r : ResState) : (resSetFrequency c f r).impulse = r.impulse := by
  unfold resSetFrequency; split <;> rfl
@[simp] theorem resSetFrequency_burst (r : ResState) : (resSetFrequency c f r).burst = r.burst := by
  unfold resSetFrequency; split <;> rfl

end

section
variable (id : Nat) (x : F32) (s : State)

@[simp] theorem writeControl_cas : (writeControl id x s).cas = s.cas := rfl
@[simp] theorem writeControl_fm : (writeControl id x s).fm = s.fm := rfl
@[simp] theorem writeControl_res : (writeControl id x s).res = s.res := rfl
@[simp] theorem writeControl_eng : (writeControl id x s).eng = s.eng := rfl
@[simp] theorem writeControl_status : (writeControl id x s).status = s.status := rfl

/-- The write of a control register leaves the envelope's level and stage, and only ATTACK and DECAY have a rate. -/
theorem writeControl_env :
    (writeControl id x s).env.level = s.env.level ∧ (writeControl id x s).env.stage = s.env.stage ∧
      (id ≠ 0x01 → (writeControl id x s).env.attackRate = s.env.attackRate) ∧
      (id ≠ 0x02 → (writeControl id x s).env.decayCoeff = s.env.decayCoeff) := by
  rw [writeControl, putEnv_env]
  unfold deriveRates
  split <;> simp_all

end

/-- The opcode and the operand field of a command determine it. -/
theorem eq_of_opcode {n : Nat} {i j : Instr} (h : i.opcode.toNat = n)
    (hj : instrOf (BitVec.ofNat 8 n) i.field = some j) : i = j := by
  have hop : BitVec.ofNat 8 n = i.opcode := by rw [← h, BitVec.ofNat_toNat, BitVec.setWidth_eq]
  rw [hop, instrOf_opcode_field] at hj
  exact Option.some.inj hj

/-- What the envelope and the active oscillator leave alone, whatever the voice. -/
theorem synthesise_frame (s : State) :
    (synthesise s).1.reg = s.reg ∧ (synthesise s).1.eng = s.eng ∧
      (synthesise s).1.env.attackRate = s.env.attackRate ∧ (synthesise s).1.env.decayCoeff = s.env.decayCoeff ∧
      ((synthesise s).1.cas.freq = s.cas.freq ∧ (synthesise s).1.cas.henv = s.cas.henv) ∧
      (synthesise s).1.fm.freq = s.fm.freq ∧
      (synthesise s).1.res.freq = s.res.freq ∧ (synthesise s).1.res.baseFreq = s.res.baseFreq ∧
      (synthesise s).1.res.baseDelay = s.res.baseDelay ∧ (synthesise s).1.res.combLen = s.res.combLen ∧
      (synthesise s).1.res.apLen = s.res.apLen := by
  obtain ⟨-, hreg, henv, heng, -, -, -, hv⟩ := synthesise_cases s (synthesise s).1 (synthesise s).2 rfl
  obtain ⟨hcf, hch, -⟩ := casProcess_frame s.cfg s.reg s.cas (envProcess s.env).level
  obtain ⟨hrf, hrb, hrd, hrc, hra, -⟩ := resProcess_frame s.cfg s.reg s.res (envProcess s.env).level _ rfl
  obtain ⟨ha, hd, -⟩ := envProcess_cases s.env _ rfl
  refine ⟨hreg, heng, henv ▸ ha, henv ▸ hd, ?_⟩
  obtain ⟨-, ec, -, ef, er⟩ | ⟨-, ef, -, ec, er⟩ | ⟨-, er, -, ec, ef⟩ := hv
  · rw [ec, ef, er]
    exact ⟨⟨hcf, hch⟩, rfl, rfl, rfl, rfl, rfl, rfl⟩
  · rw [ec, ef, er]
    exact ⟨⟨rfl, rfl⟩, fmProcess_freq _ _ _ _, rfl, rfl, rfl, rfl, rfl⟩
  · rw [ec, ef, er]
    exact ⟨⟨rfl, rfl⟩, rfl, hrf, hrb, hrd, hrc, hra⟩

/-- Settles O43: for each effect of a command, the pieces of state it may change have the command among their writers, and
every other piece is equal. -/
theorem whoWritesWhat : Obligations.WhoWritesWhat := by
  intro i s t h
  cases effect_of_exec h with
  | read | sameVoice | sameGate | setFrequency | gateOn | gateOff | noteOn | noteOff => simp
  | control _ h₁ h₂ =>
    obtain ⟨hl, hs, ha, hd⟩ := writeControl_env i.opcode.toNat i.field s
    refine ⟨by simp [hl], by simp [hs], fun h => ⟨i.field, eq_of_opcode (not_imp_comm.1 ha h) rfl⟩,
      fun h => ⟨i.field, eq_of_opcode (not_imp_comm.1 hd h) rfl⟩, ?_⟩
    simp [h₁, h₂]
  | setVoice v =>
    obtain ⟨-, hreg, henv, hcas, hfm, hst, -, -, heng, hres⟩ := switchVoice_frame (voiceOf v) s _ rfl
    simp only [respond_reg, respond_env, respond_cas, respond_fm, respond_res, respond_eng, respond_status, hreg, henv, hcas,
      hfm, hst, heng, hres]
    split <;> simp
  | process =>
    obtain ⟨hreg, heng, ha, hd, ⟨hcf, hch⟩, hff, hrf, hrb, hrd, hrc, hra⟩ := synthesise_frame s
    simp [hreg, heng, ha, hd, hcf, hch, hff, hrf, hrb, hrd, hrc, hra]

end Sys2Proof.Proofs
end

section
/-!
PROOFS. The command port (20_memory.md R101, R102, R105): the bytes of a frame, what a step is at each kind of edge without
reset, the handshake, and the latency of a command.
-/

namespace Sys2Proof.Proofs

open Sys2Proof.Machine Sys2Proof.Laws

/-! ### Frames and their bytes -/

theorem decode_encode (i : Instr) : decode (encode i) = .ok i := by
  rw [encode, decode_frameOf, instrOf_opcode_field]

theorem frameOfBytes_bytesOfFrame (f : Frame) (rest : List Byte) :
    frameOfBytes (bytesOfFrame f ++ rest) = some (f, rest) :=
  congrArg (fun g => some (g, rest)) (frame_of_five_bytes f)

theorem decodeBytes_bytesOfFrame {f : Frame} {i : Instr} (h : decode f = .ok i) (rest : List Byte) :
    decodeBytes (bytesOfFrame f ++ rest) = .ok (i, rest) := by
  simp only [decodeBytes, frameOfBytes_bytesOfFrame, h]

/-- Settles O5: five bytes join to their frame and four to their word, and decodeBytes decodes the frame they make. -/
theorem byteTransport : Obligations.ByteTransport := fun f rest w =>
  ⟨frameOfBytes_bytesOfFrame f rest, ⟨_, _, _, _, _, rfl, frame_of_five_bytes f, rfl⟩,
    fun _ h => decodeBytes_bytesOfFrame h rest, ⟨_, _, _, _, rfl, response_of_four_bytes w⟩⟩

/-! ### Every command answers -/

theorem exec_answers (i : Instr) (s : State) : ∃ t, exec i s = .next t := by
  cases i <;> exact ⟨_, rfl⟩

/-- A command presents its response and leaves the command in flight alone. -/
theorem exec_port {i : Instr} {s t : State} (h : exec i s = .next t) :
    t.port.rspValid = true ∧ t.port.inFlight = s.port.inFlight := by
  cases effect_of_exec h with
  | process =>
    obtain ⟨-, -, -, -, -, hport, -, -⟩ := synthesise_cases s (synthesise s).1 (synthesise s).2 rfl
    simp [hport]
  | setVoice v =>
    obtain ⟨-, -, -, -, -, -, hport, -, -, -⟩ := switchVoice_frame (voiceOf v) s (switchVoice (voiceOf v) s) rfl
    simp [hport]
  | _ => exact ⟨rfl, rfl⟩

/-! ### A step at each kind of edge without reset -/

theorem runFrame_of_decode {f : Frame} {i : Instr} (h : decode f = .ok i) (s : State) : runFrame f s = exec i s := by
  rw [runFrame, h]

section
variable {s : State} (hl : s.cfg.legal = true) (hr : (edgeInput s.host).rst = false)
include hl hr

theorem step_of_due {f : Frame} {i : Instr} (hp : s.port.inFlight = some { frame := f, wait := 0 })
    (hd : decode f = .ok i) : step s = exec i (releaseStep (s.putHost (hostStep s.host))) := by
  simp only [step, hl, clockEdge, hr, hp, runFrame_of_decode hd, if_true, Bool.false_eq_true, if_false]

theorem step_of_waiting {f : Frame} {n : Nat} (hp : s.port.inFlight = some { frame := f, wait := n + 1 }) :
    step s = .next (waitStep f n (s.putHost (hostStep s.host))) := by
  simp only [step, hl, clockEdge, hr, hp, if_true, Bool.false_eq_true, if_false]

theorem step_of_ready (hp : s.port.inFlight = none) :
    step s = .next (acceptStep (edgeInput s.host) (s.putHost (pollStep (edgeInput s.host).cmd (hostStep s.host)))) := by
  simp only [step, hl, clockEdge, hr, hp, if_true, Bool.false_eq_true, if_false]

end

/-! ### The frame that withFetchWord puts in flight -/

theorem withFetchWord_encode (s : State) (i : Instr) :
    s.withFetchWord 40 (encode i).toNat = loadFrame (encode i) s := by
  rw [State.withFetchWord, Nat.mod_eq_of_lt (encode i).isLt, BitVec.ofNat_toNat, BitVec.setWidth_eq]

/-- The edge put before the listed inputs uses up nothing of the outside: the surroundings are again those of s. -/
theorem releaseStep_loadFrame (f : Frame) (s : State) :
    releaseStep ((loadFrame f s).putHost (hostStep (loadFrame f s).host)) =
      s.putPort { inFlight := none, rspValid := false, rspData := s.port.rspData } := rfl

/-- Settles O11: a due frame decodes and is executed on the released state, and the frame of `withFetchWord` is due at an
edge without reset. -/
theorem stepRunsTheDecodedCommand : Obligations.StepRunsTheDecodedCommand := by
  refine ⟨fun s f i hl hr hp hd => ⟨_, step_of_due hl hr hp hd, releaseStep_sameBlock (s.putHost _), rfl, rfl⟩,
    fun s i hl => ?_⟩
  rw [withFetchWord_encode, step_of_due (s := loadFrame (encode i) s) hl rfl rfl (decode_encode i), releaseStep_loadFrame]

/-! ### The edge at which a frame is accepted -/

@[simp] theorem acceptStep_rspValid (e : EdgeInput) (s : State) : (acceptStep e s).port.rspValid = false := by
  unfold acceptStep
  split <;> rfl

@[simp] theorem acceptStep_mailbox (e : EdgeInput) (s : State) : (acceptStep e s).host.mailbox = s.host.mailbox := by
  unfold acceptStep
  split <;> rfl

section
variable {e : EdgeInput} {s : State}

theorem accept_of_driven {h : HostSide} {f : Frame} {b : Bool} (hd : drivenFrame e.cmd h.issue = some (f, b)) :
    (acceptStep e (s.putHost h)).port.inFlight = some { frame := f, wait := e.latency } ∧
      (acceptStep e (s.putHost h)).host = takeFrame f b h ∧
      (portOutputs false (acceptStep e (s.putHost h))).cmdReady = false := by
  rw [acceptStep_of_driven (s := s.putHost h) hd]
  exact ⟨rfl, rfl, rfl⟩

theorem accept_of_none {h : HostSide} (hp : s.port.inFlight = none) (hd : drivenFrame e.cmd h.issue = none) :
    (acceptStep e (s.putHost h)).port.inFlight = none ∧ (acceptStep e (s.putHost h)).host = h ∧
      (portOutputs false (acceptStep e (s.putHost h))).cmdReady = true := by
  rw [acceptStep_of_none (s := s.putHost h) hd]
  exact ⟨hp, rfl, by simp [portOutputs, cmdReady, hp]⟩

end

theorem drivenFrame_of_not_process {f : Frame} (hf : isProcess f = false) (issue : List Frame) :
    drivenFrame (some f) issue = some (f, false) := by
  cases issue with
  | nil => rfl
  | cons g rest => exact if_neg (ne_true_of_eq_false hf)

theorem drivenFrame_of_process {f : Frame} (hf : isProcess f = true) (g : Frame) (rest : List Frame) :
    drivenFrame (some f) (g :: rest) = some (g, true) := if_pos hf

/-- Settles O12: the edge of a ready block accepts the driven frame, which is the offered one when it is no PROCESS and the
head of the queue when none is offered; the edge of a waiting frame only counts it down. -/
theorem handshake : Obligations.Handshake := by
  intro s hl hr
  refine ⟨fun hp => ⟨_, step_of_ready hl hr hp, acceptStep_sameBlock _ (s.putHost _), acceptStep_rspValid _ _,
      ?driven, ?undriven, ?offered, ?queued, ?quiet⟩,
    fun f n hp => ⟨_, step_of_waiting hl hr hp, waitStep_sameBlock f n (s.putHost _), rfl, rfl, rfl⟩⟩
  case driven =>
    intro f b hd
    obtain ⟨hport, -, hready⟩ := accept_of_driven (s := s) hd
    exact ⟨hport, hready⟩
  case undriven =>
    intro hd
    obtain ⟨hport, -, hready⟩ := accept_of_none hp hd
    exact ⟨hport, hready⟩
  case offered =>
    intro f hc hop
    have hf : isProcess f = false := beq_eq_false_iff_ne.2 hop
    have hd := drivenFrame_of_not_process hf (hostStep s.host).issue
    rw [pollStep_eq_self (by simpa [hc] using hf)]
    obtain ⟨hport, hhost, hready⟩ := accept_of_driven (s := s) (hc ▸ hd)
    exact ⟨hport, by rw [hhost]; rfl, hready⟩
  case queued =>
    intro g rest hc hq
    have hd : drivenFrame none (hostStep s.host).issue = some (g, true) := by rw [hq]; rfl
    rw [pollStep_eq_self (by simp [hc])]
    obtain ⟨hport, hhost, hready⟩ := accept_of_driven (s := s) (hc ▸ hd)
    exact ⟨hport, by rw [hhost, takeFrame_issue, hq]; rfl, hready⟩
  case quiet =>
    intro hc hq
    have hd : drivenFrame none (hostStep s.host).issue = none := by rw [hq]; rfl
    rw [pollStep_eq_self (by simp [hc])]
    obtain ⟨hport, hhost, hready⟩ := accept_of_none hp (hc ▸ hd)
    exact ⟨hport, by rw [hhost, hq], hready⟩

/-! ### The latency of a command -/

/-- Settles O13, by induction on the edges to wait: each of them leaves the block as it was and moves the surroundings by
one edge. -/
theorem latencyDoesNotMatter : Obligations.LatencyDoesNotMatter := by
  intro n
  induction n with
  | zero =>
    intro s f i hl hr hp hd
    obtain ⟨t, ht⟩ := exec_answers i (releaseStep (s.putHost (hostStep s.host)))
    obtain ⟨hvalid, hport⟩ := exec_port ht
    have hs : step s = .next t := (step_of_due hl (hr 0 le_rfl) hp hd).trans ht
    exact ⟨t, run_succ Sys2Proof.core 0 hs, ht, hvalid, hport⟩
  | succ n ih =>
    intro s f i hl hr hp hd
    have hs := step_of_waiting hl (hr 0 n.succ.zero_le) hp
    have hw := ih (waitStep f n (s.putHost (hostStep s.host))) f i hl (fun k hk => hr (k + 1) (Nat.succ_le_succ hk)) rfl hd
    obtain ⟨t, hrun, hexec, hvalid, hport⟩ := hw
    exact ⟨t, (run_succ Sys2Proof.core (n + 1) hs).trans hrun, hexec, hvalid, hport⟩

end Sys2Proof.Proofs
end

section
/-!
PROOFS. The parameter mailbox (20_memory.md R116, R118): the read before a PROCESS, and the delivery of a record.
-/

namespace Sys2Proof.Proofs

open Sys2Proof.Machine Sys2Proof.Laws

/-! ### The mailbox -/

theorem mailStep_read_of_empty {h : HostSide} (hm : h.mailbox = none) : mailStep .read h = { h with polled := true } := by
  simp only [mailStep, hm]

/-- A PROCESS offered with the slot unread since the last one finds it read. -/
theorem pollStep_of_unread {f : Frame} {h : HostSide} (hf : isProcess f = true) (hu : h.polled = false) :
    pollStep (some f) h = mailStep .read h := by
  simp [pollStep, hf, hu]

theorem pollStep_of_read {h : HostSide} (hu : h.polled = true) (f : Frame) : pollStep (some f) h = h := by
  simp [pollStep, hu]

/-- Settles O17: the clauses on the slot are those of `mailStep`, and an offered PROCESS meets the queue that `pollStep`
leaves, whose head goes before it. -/
theorem mailboxKeepsTheNewest : Obligations.MailboxKeepsTheNewest := by
  refine ⟨fun h r r' => ⟨rfl, rfl, rfl, rfl, mailStep_read_of_empty⟩, fun s f q hl hr hp hc hd hq => ?_⟩
  have hf := decode_process_iff.1 hd
  have hissue : (pollStep (some f) (hostStep s.host)).issue = q := by
    rw [hq]
    cases hu : (hostStep s.host).polled with
    | true => simp [pollStep_of_read hu]
    | false =>
      rw [pollStep_of_unread hf hu, mailStep_read_issue]
      cases (hostStep s.host).mailbox <;> rfl
  have hstep := step_of_ready hl hr hp
  rw [hc] at hstep
  refine ⟨_, hstep, acceptStep_sameBlock _ (s.putHost _), fun hu => ?_, fun hu => ?_, fun hempty => ?_,
    fun g rest hcons => ?_⟩
  · rw [acceptStep_mailbox, putHost_host, pollStep_of_unread hf hu, mailStep_read_mailbox]
  · rw [acceptStep_mailbox, putHost_host, pollStep_of_read hu]
  · have hdriven : drivenFrame (edgeInput s.host).cmd (pollStep (some f) (hostStep s.host)).issue = some (f, false) := by
      rw [hc, hissue, hempty]; rfl
    obtain ⟨hport, hhost, -⟩ := accept_of_driven (s := s) hdriven
    exact ⟨hport, by rw [hhost, takeFrame_issue, hissue, hempty]; rfl, by rw [hhost, takeFrame_polled, if_pos hf]⟩
  · have hdriven : drivenFrame (edgeInput s.host).cmd (pollStep (some f) (hostStep s.host)).issue = some (g, true) := by
      rw [hc, hissue, hcons, drivenFrame_of_process hf]
    obtain ⟨hport, hhost, -⟩ := accept_of_driven (s := s) hdriven
    exact ⟨hport, by rw [hhost, takeFrame_issue, hissue, hcons]; rfl⟩

/-! ### The delivery of a record -/

theorem execAll_append {is js : List Instr} {s t : State} (h : execAll is s = .next t) :
    execAll (is ++ js) s = execAll js t := by
  induction is generalizing s with
  | nil =>
    cases h
    rfl
  | cons i is ih =>
    obtain ⟨u, hu⟩ := exec_answers i s
    simp only [List.cons_append, execAll, hu] at h ⊢
    exact ih h

theorem execAll_cons {i : Instr} {is : List Instr} {s t : State} (h : exec i s = .next t) :
    execAll (i :: is) s = execAll is t := by
  simp only [execAll, h]

/-- The registers after the SET_ commands of a list, each of which writes the register of its opcode. -/
def setControls (r : Regs) (is : List Instr) : Regs :=
  is.foldl (fun r i => setControl r i.opcode.toNat (clamp01 i.field)) r

theorem execAll_controls {is : List Instr} (h : ∀ i ∈ is, 0x01 ≤ i.opcode.toNat ∧ i.opcode.toNat ≤ 0x0E) (s : State) :
    ∃ t, execAll is s = .next t ∧ t.cfg = s.cfg ∧ t.reg = setControls s.reg is := by
  induction is generalizing s with
  | nil => exact ⟨s, rfl, rfl, rfl⟩
  | cons i is ih =>
    obtain ⟨⟨h₁, h₂⟩, his⟩ := List.forall_mem_cons.1 h
    obtain ⟨t, ht, hcfg, hreg⟩ := ih his (respond 0 (writeControl i.opcode.toNat i.field s))
    have hi := exec_control h₁ h₂ (instrOf_opcode_field i) s
    exact ⟨t, (execAll_cons hi).trans ht, hcfg, hreg⟩

/-- The registers that the fourteen SET_ commands of a record leave (10_state.md R42). -/
def deliveredRegs (r : ParamRecord) : Regs where
  attack := clamp01 r.attack
  decay := clamp01 r.decay
  spread := clamp01 r.spread
  cascade := clamp01 r.cascade
  wavefold := clamp01 r.wavefold
  chaos := clamp01 r.chaos
  fmIndex := clamp01 r.fmIndex
  fmRatio := clamp01 r.fmRatio
  fmFeedback := clamp01 r.fmFeedback
  fmFold := clamp01 r.fmFold
  resFeedback := clamp01 r.resFeedback
  resDamp := clamp01 r.resDamp
  resMix := clamp01 r.resMix
  verbExcite := clamp01 r.verbExcite

theorem recordCommands_eq (r : ParamRecord) :
    recordCommands r = (recordCommands r).take 14 ++ [.setFrequency r.freq, .setVoice r.voice, .gate r.gate] := rfl

/-- The SET_ commands write one register each, so that the last of them leaves all fourteen delivered. -/
theorem execAll_record_controls (r : ParamRecord) (s : State) :
    ∃ t, execAll ((recordCommands r).take 14) s = .next t ∧ t.cfg = s.cfg ∧ t.reg = deliveredRegs r := by
  have hids : ∀ i ∈ (recordCommands r).take 14, 0x01 ≤ i.opcode.toNat ∧ i.opcode.toNat ≤ 0x0E := by
    simp [recordCommands, Instr.opcode]
  exact execAll_controls hids s

theorem exec_setFrequency_engine (f : F32) (s : State) :
    ∃ t, exec (.setFrequency f) s = .next t ∧ t.reg = s.reg ∧ t.eng.curFreq = clampFreq s.cfg f :=
  ⟨_, rfl, rfl, rfl⟩

theorem exec_setVoice_engine (v : Word) (s : State) :
    ∃ t, exec (.setVoice v) s = .next t ∧ t.reg = s.reg ∧ t.eng = { s.eng with voice := voiceOf v } := by
  obtain ⟨t, ht⟩ := exec_answers (.setVoice v) s
  refine ⟨t, ht, ?_⟩
  cases effect_of_execSetVoice ht with
  | sameVoice _ hv => exact ⟨rfl, by rw [respond_eng, hv]⟩
  | setVoice =>
    obtain ⟨-, hreg, -, -, -, -, -, -, heng, -⟩ := switchVoice_frame (voiceOf v) s (switchVoice (voiceOf v) s) rfl
    exact ⟨hreg, heng⟩
  | read _ _ h => simp [Instr.opcode] at h
  | control _ _ h => simp [Instr.opcode] at h

theorem exec_gate_engine (b : Bool) (s : State) :
    ∃ t, exec (.gate b) s = .next t ∧ t.reg = s.reg ∧ t.eng = { s.eng with gate := b } := by
  obtain ⟨t, ht⟩ := exec_answers (.gate b) s
  refine ⟨t, ht, ?_⟩
  cases effect_of_execGate ht with
  | sameGate _ hg => exact ⟨rfl, by rw [respond_eng, ← hg]⟩
  | gateOn | gateOff => exact ⟨rfl, rfl⟩
  | read _ _ h => simp [Instr.opcode] at h
  | control _ _ h => simp [Instr.opcode] at h

/-- Settles O18: the fourteen controls first, then frequency, voice and gate, each of which leaves what was delivered. -/
theorem recordDelivery : Obligations.RecordDelivery := by
  intro r s
  obtain ⟨t₁, h₁, hcfg, hreg₁⟩ := execAll_record_controls r s
  obtain ⟨t₂, h₂, hreg₂, hfreq⟩ := exec_setFrequency_engine r.freq t₁
  obtain ⟨t₃, h₃, hreg₃, heng₃⟩ := exec_setVoice_engine r.voice t₂
  obtain ⟨t₄, h₄, hreg₄, heng₄⟩ := exec_gate_engine r.gate t₃
  have hrun : execAll (recordCommands r) s = .next t₄ := by
    rw [recordCommands_eq, execAll_append h₁, execAll_cons h₂, execAll_cons h₃, execAll_cons h₄, execAll]
  have hreg : t₄.reg = deliveredRegs r := by rw [hreg₄, hreg₃, hreg₂, hreg₁]
  have hclamp : ∀ x, ClampedTo lit0 lit1 x (clamp01 x) := clampF_clampedTo (by decide)
  refine ⟨rfl, t₄, hrun, ?_⟩
  rw [hreg, heng₄, heng₃]
  refine ⟨hclamp _, hclamp _, hclamp _, hclamp _, hclamp _, hclamp _, hclamp _, hclamp _, hclamp _, hclamp _, hclamp _,
    hclamp _, hclamp _, hclamp _, fun hl => ?_, ?_, rfl⟩
  · rw [hfreq, hcfg]
    exact clampF_clampedTo (fMin_le_fMax hl) _
  · rfl

end Sys2Proof.Proofs
end

section
/-!
PROOFS. What commands read and write beside the block: nothing of the port and the surroundings, the status ports
(20_memory.md R102, R113, R117), and the delay memories (R110).
-/

namespace Sys2Proof.Proofs

open Sys2Proof.Machine Sys2Proof.Laws

/-! ### The block alone -/

/-- The state with another port and other surroundings. -/
def withSurroundings (p : PortState) (h : HostSide) (s : State) : State := (s.putPort p).putHost h

theorem eq_withSurroundings {s t : State} (h : SameBlock s t) : t = withSurroundings t.port t.host s := by
  obtain ⟨hcfg, hreg, henv, hcas, hfm, hres, heng, hstatus⟩ := h
  cases t
  cases hcfg; cases hreg; cases henv; cases hcas; cases hfm; cases hres; cases heng; cases hstatus
  rfl

theorem withSurroundings_sameBlock (p : PortState) (h : HostSide) (s : State) : SameBlock s (withSurroundings p h s) :=
  ⟨rfl, rfl, rfl, rfl, rfl, rfl, rfl, rfl⟩

section
variable (p : PortState) (h : HostSide) (s : State)

theorem switchVoice_withSurroundings (v : Voice) :
    switchVoice v (withSurroundings p h s) = withSurroundings p h (switchVoice v s) := by
  rw [switchVoice, switchVoice, apply_ite (withSurroundings p h)]
  rfl

theorem synthesise_withSurroundings :
    synthesise (withSurroundings p h s) = (withSurroundings p h (synthesise s).1, (synthesise s).2) := by
  cases hv : s.eng.voice <;> simp [synthesise, dispatchVoice, withSurroundings, hv] <;> rfl

/-- A command answers the same word from the same block, and leaves the same block. -/
theorem exec_withSurroundings (i : Instr) :
    ∃ w u, exec i s = answer w u ∧ exec i (withSurroundings p h s) = answer w (withSurroundings p h u) := by
  cases i with
  | setVoice v =>
    refine ⟨0, _, rfl, congrArg (answer 0) ?_⟩
    rw [apply_ite (withSurroundings p h), switchVoice_withSurroundings]
    rfl
  | gate b =>
    refine ⟨0, _, rfl, congrArg (answer 0) ?_⟩
    rw [apply_ite (withSurroundings p h), apply_ite (withSurroundings p h)]
    rfl
  | process =>
    refine ⟨_, _, rfl, ?_⟩
    rw [exec, execProcess, synthesise_withSurroundings]
    rfl
  | _ => exact ⟨_, _, rfl, rfl⟩

end

/-- Settles O16: the second state is the first with its own port and surroundings, which no command reads. -/
theorem commandsReadTheBlockAlone : Obligations.CommandsReadTheBlockAlone := by
  intro i s s' t t' hb ht ht'
  obtain ⟨w, u, hu, hu'⟩ := exec_withSurroundings s'.port s'.host s i
  rw [eq_withSurroundings hb, hu'] at ht'
  rw [hu] at ht
  obtain rfl := answer_next_iff.1 ht
  obtain rfl := answer_next_iff.1 ht'
  exact ⟨withSurroundings_sameBlock _ _ u, rfl⟩

/-! ### The status ports -/

theorem exec_status {i : Instr} {s t : State} (h : exec i s = .next t) (hi : i ≠ .process) : t.status = s.status := by
  cases effect_of_exec h with
  | process => exact absurd rfl hi
  | setVoice v =>
    obtain ⟨-, -, -, -, -, hstatus, -, -, -, -⟩ := switchVoice_frame (voiceOf v) s (switchVoice (voiceOf v) s) rfl
    simp [hstatus]
  | _ => simp

/-- The three values are those GET_OUTPUT_LEVEL, IS_PLAYING and GET_CURRENT_FREQ answer (45_engine.md R316 to R318). -/
theorem process_status {s t : State} (h : exec .process s = .next t) :
    t.status = { level := outputLevel t.eng.meter, playing := envIsActive t.env, freq := t.eng.curFreq } := by
  obtain rfl := answer_next_iff.1 h
  rfl

theorem step_status {s t : State} (h : step s = .next t) (hr : (edgeInput s.host).rst = false)
    (hd : ∀ f, s.port.inFlight = some { frame := f, wait := 0 } → decode f ≠ .ok .process) : t.status = s.status := by
  obtain ⟨-, ⟨hr', -⟩ | ⟨-, ⟨-, rfl⟩ | ⟨f, n, -, rfl⟩ | ⟨f, i, hp, hi, hx⟩⟩⟩ := step_cases h
  · rw [hr] at hr'; cases hr'
  · obtain ⟨-, -, -, -, -, -, -, hstatus⟩ := acceptStep_sameBlock (edgeInput s.host) (s.putHost _)
    exact hstatus
  · rfl
  · have hstatus := exec_status hx fun hproc => hd f hp (hproc ▸ hi)
    exact hstatus

/-- Settles O39: PROCESS records the three values at once, no other command and no other edge writes the ports. -/
theorem statusPorts : Obligations.StatusPorts := by
  refine ⟨fun s t i h => ⟨exec_status h, ?_⟩, fun s t => step_status, fun s c h => ⟨rfl, rfl, rfl, rfl⟩⟩
  rintro rfl
  rw [process_status h]
  exact ⟨_, _, _, rfl, rfl, rfl, rfl, rfl, rfl⟩

/-! ### The delay memories -/

/-- The resonator after hardware reset is one whose lines are cleared. -/
theorem delayRead_resetWith (c : Params) (h : HostSide) (line : Fin 6) (idx : Nat) :
    delayRead (State.resetWith c h).res line idx = lit0 := delayRead_clearLines (State.resetWith c h).res line idx

/-- Settles O53: the read-after-write law at the written cell and at every other one. -/
theorem delayMemory : Obligations.DelayMemory := by
  refine ⟨fun c h line idx => ⟨fun hc => if_pos hc, fun ha => if_neg (by omega), delayRead_resetWith c h line idx⟩,
    fun r line idx v hw => ⟨?_, fun line' idx' hne => ?_, wf_delayWrite line idx v hw, delayRead_resReset r⟩⟩
  · rw [delayRead_delayWrite (hw line), if_pos ⟨rfl, rfl⟩]
  · rw [delayRead_delayWrite (hw line), if_neg fun ⟨hline, hidx⟩ => hne (by rw [hline, hidx])]

end Sys2Proof.Proofs
end

section
/-!
PROOFS. Decoding and encoding of frames (30_encoding.md R130 to R137): what an opcode and an operand field decode to, and the
operand bits that reach no command.
-/

namespace Sys2Proof.Proofs

open Sys2Proof.Machine Sys2Proof.Laws

/-- Settles O1: the frame's two fields are the command's opcode and field, which determine it. -/
theorem decodeOfEncode : Obligations.DecodeOfEncode := decode_encode

/-- Settles O6: the decoder evaluates each frame. -/
theorem sampleFramesDecode : Obligations.SampleFramesDecode := by
  unfold Obligations.SampleFramesDecode
  decide

/-! ### What an opcode and an operand field decode to -/

/-- What an operand type keeps of the operand field, as the field of the decoded command (R131, R135). -/
def keptField : OperandType → Word → Word
  | .f32, x => x
  | .u32, x => x
  | .bool, x => boolField (operandBool x)
  | .none, _ => 0

theorem boolField_operandBool (x : Word) : boolField (operandBool x) = x &&& 1 := by
  have h : x &&& 1 = (BitVec.ofBool (x.getLsbD 0)).setWidth 32 := BitVec.and_one_eq_setWidth_ofBool_getLsbD
  rw [h, operandBool]
  cases x.getLsbD 0 <;> rfl

/-- The opcodes without a row in R132 are the four ranges of R134. -/
theorem operandTypeOf_eq_none_iff (op : BitVec 8) :
    operandTypeOf op = none ↔
      op.toNat = 0x0F ∨ (0x15 ≤ op.toNat ∧ op.toNat ≤ 0x1F) ∨ (0x21 ≤ op.toNat ∧ op.toNat ≤ 0x2F) ∨ 0x38 ≤ op.toNat := by
  unfold operandTypeOf
  generalize op.toNat = n
  split
  case h_30 =>
    simp only [imp_false, true_iff] at *
    omega
  all_goals decide

theorem eq_ofNat_of_toNat {op : BitVec 8} {n : Nat} (h : op.toNat = n) : op = BitVec.ofNat 8 n := by
  rw [← h, BitVec.ofNat_toNat, BitVec.setWidth_eq]

/-- An opcode with a row in R132 decodes every operand field, to a command with that opcode and the operand bits its type
keeps; an opcode without one decodes none (R134). -/
theorem instrOf_cases (op : BitVec 8) (x : Word) :
    (∃ t i, operandTypeOf op = some t ∧ instrOf op x = some i ∧ i.opcode = op ∧ i.field = keptField t x) ∨
      operandTypeOf op = none ∧ instrOf op x = none := by
  unfold instrOf
  split
  case h_30 =>
    refine .inr ⟨(operandTypeOf_eq_none_iff op).2 ?_, rfl⟩
    simp only [imp_false] at *
    omega
  all_goals
    obtain rfl := eq_ofNat_of_toNat ‹op.toNat = _›
    exact .inl ⟨_, _, rfl, rfl, rfl, rfl⟩

theorem instrOf_of_assigned {op : BitVec 8} {t : OperandType} (ht : operandTypeOf op = some t) (x : Word) :
    ∃ i, instrOf op x = some i ∧ i.opcode = op ∧ i.field = keptField t x := by
  obtain ⟨t', i, ht', hi⟩ | ⟨hn, -⟩ := instrOf_cases op x
  · obtain rfl : t = t' := Option.some.inj (ht.symm.trans ht')
    exact ⟨i, hi⟩
  · rw [ht] at hn
    cases hn

/-- Only the kept operand bits reach the command. -/
theorem instrOf_congr {op : BitVec 8} {t : OperandType} {x y : Word} (ht : operandTypeOf op = some t)
    (h : keptField t x = keptField t y) : instrOf op x = instrOf op y := by
  obtain ⟨i, hi, hiop, hifield⟩ := instrOf_of_assigned ht x
  obtain ⟨j, hj, hjop, hjfield⟩ := instrOf_of_assigned ht y
  have hij : some i = some j := by
    rw [← instrOf_opcode_field i, ← instrOf_opcode_field j, hiop, hjop, hifield, hjfield, h]
  rw [hi, hj, hij]

/-- A frame decodes when its opcode is assigned, whatever its operand field, and is rejected by its opcode otherwise. -/
theorem decode_cases (f : Frame) :
    (∃ t i, operandTypeOf (opcodeOf f) = some t ∧ decode f = .ok i ∧ i.opcode = opcodeOf f ∧
        i.field = keptField t (operandField f)) ∨
      operandTypeOf (opcodeOf f) = none ∧ decode f = .error (.unassignedOpcode (opcodeOf f)) := by
  obtain ⟨t, i, ht, hi, hop, hfield⟩ | ⟨ht, hn⟩ := instrOf_cases (opcodeOf f) (operandField f)
  · exact .inl ⟨t, i, ht, decode_ok_iff.2 hi, hop, hfield⟩
  · exact .inr ⟨ht, decode_error_iff.2 ⟨hn, rfl⟩⟩

/-- Settles O2: the decoded command's field is what the opcode's operand type keeps, type by type. -/
theorem decodeReadsTheOperand : Obligations.DecodeReadsTheOperand := by
  intro f i hi
  obtain ⟨t, j, ht, hj, hop, hfield⟩ | ⟨-, hn⟩ := decode_cases f
  · obtain rfl : i = j := Except.ok.inj (hi.symm.trans hj)
    rw [ht, hfield]
    refine ⟨hop, ?_⟩
    cases t with
    | bool => simp [keptField, boolField_operandBool]
    | _ => simp [keptField]
  · rw [hi] at hn
    cases hn

/-! ### Unassigned opcodes and ignored bits -/

/-- Settles O3: an assigned opcode decodes and any other is rejected, and the map leaves out exactly the four ranges. -/
theorem unassignedOpcodes : Obligations.UnassignedOpcodes := by
  intro f
  rw [← operandTypeOf_eq_none_iff]
  obtain ⟨t, i, ht, hi, -⟩ | ⟨ht, hn⟩ := decode_cases f
  · simp [ht, hi]
  · simp [ht, hn]

/-- The opcode of each kind that R135 names keeps only operand bits in which the two fields agree. -/
theorem keptField_eq_of_dontCare {op : BitVec 8} {x y : Word}
    (h : operandTypeOf op = some .none ∨ (op = 0x12 ∧ x.getLsbD 0 = y.getLsbD 0)) :
    ∃ t, operandTypeOf op = some t ∧ keptField t x = keptField t y := by
  obtain hnone | ⟨rfl, hbit⟩ := h
  · exact ⟨.none, hnone, rfl⟩
  · exact ⟨.bool, rfl, congrArg boolField hbit⟩

/-- Settles O4: the two fields agree in the kept bits, so both frames decode to one command, and each runs as that command. -/
theorem dontCareBits : Obligations.DontCareBits := by
  intro op x y s h
  obtain ⟨t, ht, hkept⟩ := keptField_eq_of_dontCare h
  have hdec : decode (frameOf op x) = decode (frameOf op y) := by
    rw [decode_frameOf, decode_frameOf, instrOf_congr ht hkept]
  obtain ⟨i, hi, -⟩ := instrOf_of_assigned ht x
  have hok : decode (frameOf op x) = .ok i := by rw [decode_frameOf, hi]
  exact ⟨hdec, by rw [runFrame_of_decode hok, runFrame_of_decode (hdec ▸ hok)], i, hok⟩

end Sys2Proof.Proofs
end

section
/-!
PROOFS. The assembler (30_encoding.md R138): the frame of a line, and the operand field of each spelling.
-/

namespace Sys2Proof.Proofs

open Sys2Proof.Machine Sys2Proof.Laws

/-- A well-formed line has an assigned opcode, and no operand exactly when the opcode's type is none. -/
theorem assigned_of_wellFormed {l : AsmLine} (h : l.wellFormed = true) :
    ∃ t, operandTypeOf l.opcode = some t ∧ (t = .none ↔ l.operand = none) := by
  unfold AsmLine.wellFormed at h
  split at h
  next ht ho => exact ⟨.none, ht, iff_of_true rfl ho⟩
  next => cases h
  next t a hne ht ho => exact ⟨t, ht, iff_of_false hne (by rw [ho]; exact Option.some_ne_none a)⟩
  next => cases h

/-- The operand field of a line: that of its operand, 0 without one. -/
def lineField (l : AsmLine) : Word :=
  match l.operand with
  | some a => a.field
  | none => 0

theorem assemble_of_wellFormed {l : AsmLine} (h : l.wellFormed = true) :
    l.assemble = some (frameOf l.opcode (lineField l)) := if_pos h

theorem assemble_of_not_wellFormed {l : AsmLine} (h : l.wellFormed = false) : l.assemble = none :=
  if_neg (ne_true_of_eq_false h)

/-- The frame of a well-formed line decodes to a command of its opcode and has the operand field of its operand. -/
theorem assemble_decodes {l : AsmLine} (h : l.wellFormed = true) :
    ∃ f i, l.assemble = some f ∧ decode f = .ok i ∧ i.opcode = l.opcode ∧
      (operandTypeOf l.opcode = some .none → operandField f = 0) ∧
      ∀ a, l.operand = some a → operandField f = a.field := by
  obtain ⟨t, ht, hnone⟩ := assigned_of_wellFormed h
  obtain ⟨i, hi, hop, -⟩ := instrOf_of_assigned ht (lineField l)
  refine ⟨_, i, assemble_of_wellFormed h, by rw [decode_frameOf, hi], hop, fun h0 => ?_, fun a ha => ?_⟩
  · have hl : l.operand = none := hnone.1 (Option.some.inj (ht.symm.trans h0))
    rw [operandField_frameOf, lineField, hl]
  · rw [operandField_frameOf, lineField, ha]

/-- Settles O7: a line by `assemble_decodes`, the words and the raw pattern by evaluation, an integer by its bound, and a
decimal as one rounding of a quotient to nearest. -/
theorem assembledLinesDecode : Obligations.AssembledLinesDecode := by
  refine ⟨fun l => ⟨assemble_decodes, assemble_of_not_wellFormed⟩, rfl, rfl, rfl, fun _ => rfl,
    fun n hn => Nat.mod_eq_of_lt hn, fun neg digits exp10 => ?_⟩
  have hq : 0 < 10 ^ (-exp10).toNat := by positivity
  simp only [AsmOperand.field, f32OfDecimal_eq]
  exact ⟨signBit_roundTo _ _ _, isNaN_roundTo _ _ _, isFinite_roundTo hq, fun hf z _ => roundTo_nearest hq hf z⟩

end Sys2Proof.Proofs
end

section
/-!
PROOFS. Rounding of sums, products and quotients, conversions, clamps and extremes (40_numerics.md R141, R145 to R147).
-/

namespace Sys2Proof.Proofs

open Sys2Proof.Machine Sys2Proof.Laws

/-! ### The basic operations -/

/-- A sum of finite numbers is the rounded exact sum but for the sign of a zero. -/
theorem magBits_fAdd {x y : F32} (hx : isFinite x = true) (hy : isFinite y = true) :
    magBits (fAdd x y) = roundMag (units x + units y).natAbs 1 := by
  rw [fAdd_finite hx hy]
  split
  next h0 => rw [h0, magBits_pack _ (by decide), Int.natAbs_zero, roundMag_zero (by decide)]
  next => exact magBits_roundTo _ _ _

theorem isFinite_fAdd_iff {x y : F32} (hx : isFinite x = true) (hy : isFinite y = true) :
    isFinite (fAdd x y) = true ↔
      isFinite (roundTo (decide (units x + units y < 0)) (units x + units y).natAbs 1) = true := by
  rw [isFinite_iff, isFinite_iff, magBits_fAdd hx hy, magBits_roundTo]

theorem isFinite_fAdd {x y : F32} (hx : isFinite x = true) (hy : isFinite y = true)
    (h : (units x + units y).natAbs ≤ magUnits 0x7F7FFFFF) : isFinite (fAdd x y) = true :=
  (isFinite_fAdd_iff hx hy).2 (isFinite_roundTo (by decide) (by rwa [Nat.mul_one]))

theorem isFinite_fMul {x y : F32} (hx : isFinite x = true) (hy : isFinite y = true)
    (h : (units x * units y).natAbs ≤ magUnits 0x7F7FFFFF * 2 ^ 149) : isFinite (fMul x y) = true := by
  rw [Int.natAbs_mul, natAbs_units, natAbs_units] at h
  rw [fMul_finite hx hy]
  exact isFinite_roundTo (by positivity) h

theorem isFinite_fDiv {x y : F32} (hx : isFinite x = true) (hy : isFinite y = true) (h0 : magBits y ≠ 0)
    (h : magUnits x * 2 ^ 149 ≤ magUnits 0x7F7FFFFF * magUnits y) : isFinite (fDiv x y) = true := by
  rw [fDiv_finite hx hy h0]
  exact isFinite_roundTo (magUnits_pos h0) h

/-- A finite sum is the nearest f32 to the exact one, ties to even. -/
theorem fAdd_nearest {x y : F32} (hx : isFinite x = true) (hy : isFinite y = true) (hf : isFinite (fAdd x y) = true)
    (z : F32) :
    (units (fAdd x y) - (units x + units y)).natAbs ≤ (units z - (units x + units y)).natAbs ∧
      ((units (fAdd x y) - (units x + units y)).natAbs = (units z - (units x + units y)).natAbs →
        units z ≠ units (fAdd x y) → magBits (fAdd x y) % 2 = 0) := by
  have h := roundTo_nearest (by decide) ((isFinite_fAdd_iff hx hy).1 hf) z
  rw [← units_fAdd hx hy, magBits_roundTo, ← magBits_fAdd hx hy, signed_natAbs, Nat.cast_one, mul_one, mul_one] at h
  exact h

/-- A finite product is the nearest f32 to the exact one, ties to even. -/
theorem fMul_nearest {x y : F32} (hx : isFinite x = true) (hy : isFinite y = true) (hf : isFinite (fMul x y) = true)
    (z : F32) :
    (units (fMul x y) * 2 ^ 149 - units x * units y).natAbs ≤ (units z * 2 ^ 149 - units x * units y).natAbs ∧
      ((units (fMul x y) * 2 ^ 149 - units x * units y).natAbs = (units z * 2 ^ 149 - units x * units y).natAbs →
        units z ≠ units (fMul x y) → magBits (fMul x y) % 2 = 0) := by
  rw [fMul_finite hx hy] at hf ⊢
  have h := roundTo_nearest (by positivity) hf z
  rw [signed_mul, Nat.cast_pow, Nat.cast_ofNat] at h
  exact h

theorem isNaN_of_nan_operand {x y : F32} (h : isNaN x = true ∨ isNaN y = true) :
    isNaN (fAdd x y) = true ∧ isNaN (fSub x y) = true ∧ isNaN (fMul x y) = true ∧ isNaN (fDiv x y) = true := by
  obtain h | h := h <;> simp [fAdd, fSub, fMul, fDiv, h]

theorem isInf_iff {x : F32} : isInf x = true ↔ magBits x = infMag := by simp [isInf]

theorem isInf_not_isNaN {x : F32} (h : isInf x = true) : isNaN x = false :=
  isNaN_false_iff.2 (isInf_iff.1 h).le

theorem isInf_pack (s : Bool) : isInf (pack s infMag) = true := isInf_iff.2 (magBits_pack s infMag_lt)

theorem isFinite_of_magBits_eq_zero {x : F32} (h : magBits x = 0) : isFinite x = true :=
  isFinite_iff.2 (by rw [h]; decide)

/-- Inf - Inf (R141). -/
theorem isNaN_fSub_inf {x y : F32} (hx : isInf x = true) (hy : isInf y = true) (hs : signBit x = signBit y) :
    isNaN (fSub x y) = true := by
  simp [fSub, fAdd, isInf_not_isNaN hx, isInf_not_isNaN hy, hx, hy, hs]

/-- A finite number by a zero (R141): 0/0 is a NaN, any other an infinity. -/
theorem fDiv_zero {x y : F32} (hx : isFinite x = true) (hy : magBits y = 0) :
    fDiv x y = if magBits x = 0 then nanOf .div x y else pack (signBit x != signBit y) infMag := by
  have fy := isFinite_of_magBits_eq_zero hy
  simp [fDiv, isFinite_not_isNaN hx, isFinite_not_isInf hx, isFinite_not_isNaN fy, isFinite_not_isInf fy, hy]

/-- Settles O19: each operation rounds its exact value once, and rounding is to nearest even. -/
theorem basicOperations : Obligations.BasicOperations := by
  intro x y
  refine ⟨fun hx hy => ⟨isFinite_fAdd hx hy, isFinite_fMul hx hy, isFinite_fDiv hx hy⟩,
    fun hx hy hf z _ => fAdd_nearest hx hy hf z, fun hx hy hf z _ => fMul_nearest hx hy hf z,
    fun hx hy h0 hf z _ => fDiv_nearest hx hy h0 hf z, isNaN_of_nan_operand, isNaN_fSub_inf, fun hx hy => ?_,
    fun hx h0 hy => ?_⟩
  · rw [fDiv_zero (isFinite_of_magBits_eq_zero hx) hy, if_pos hx]
    exact isNaN_nanOf _ _ _
  · rw [fDiv_zero hx hy, if_neg h0]
    exact ⟨isInf_pack _, signBit_pack _ infMag_lt⟩

/-! ### Conversions -/

/-- floorI is the quotient by 1.0's units, so its remainder is in [0, 1). -/
theorem floorI_spec {x : F32} (hx : isFinite x = true) :
    floorI x * 2 ^ 149 ≤ units x ∧ units x < (floorI x + 1) * 2 ^ 149 := by
  rw [floorI, if_pos hx]
  omega

/-- roundI of a value that is not negative is the floor of the value and a half. -/
theorem roundI_of_nonneg {x : F32} (hx : isFinite x = true) (h0 : 0 ≤ units x) :
    roundI x = (2 * units x + 2 ^ 149) / 2 ^ 150 := by
  rw [roundI, if_pos hx]
  split
  next hs =>
    have hz : magUnits x = 0 := by rw [units_of_neg hs] at h0; omega
    rw [units_of_neg hs, hz]
    decide
  next hs =>
    rw [units_of_pos (by simpa using hs)]
    push_cast
    rfl

theorem roundI_nearest {x : F32} (hx : isFinite x = true) (h0 : 0 ≤ units x) (n : Int) :
    (roundI x * 2 ^ 149 - units x).natAbs ≤ (n * 2 ^ 149 - units x).natAbs := by
  rw [roundI_of_nonneg hx h0]
  omega

/-- A tie between n and n + 1 goes up (R145). -/
theorem roundI_tie {x : F32} (hx : isFinite x = true) (h0 : 0 ≤ units x) {n : Int}
    (h : 2 * (units x - n * 2 ^ 149) = 2 ^ 149) : roundI x = n + 1 := by
  rw [roundI_of_nonneg hx h0]
  omega

/-- Every magnitude up to 2^24 is an f32, the last one as 2^23 × 2. -/
theorem units_f32i_of_natAbs_le {n : Int} (h : n.natAbs ≤ 2 ^ 24) :
    isFinite (f32i n) = true ∧ units (f32i n) = n * 2 ^ 149 := by
  obtain hlt | heq := Nat.lt_or_eq_of_le h
  · obtain ⟨m, hm, e⟩ := representable hlt (k := 149) (by decide)
    exact units_f32i hm e
  · obtain ⟨m, hm, e⟩ := representable (n := 2 ^ 23) (k := 150) (by decide) (by decide)
    exact units_f32i hm (by rw [e, heq]; rfl)

/-- Settles O20: floorI and roundI divide the value's units, f32i rounds an int that is an f32. -/
theorem integerConversions : Obligations.IntegerConversions :=
  ⟨fun _ hx h0 _ => ⟨floorI_spec hx, roundI_nearest hx h0, fun _ => roundI_tie hx h0⟩,
    fun _ hl hh => units_f32i_of_natAbs_le (by omega)⟩

/-! ### Clamps and extremes -/

/-- The value of a signed infinity is the largest or the least of all. -/
theorem units_lt_of_isInf {x y : F32} (hx : isInf x = true) (hy : isFinite y = true) :
    (signBit x = false → units y < units x) ∧ (signBit x = true → units x < units y) := by
  have hm : magUnits y < magUnits x :=
    unitsOfMag_lt_iff.2 ((isFinite_iff.1 hy).trans_eq (isInf_iff.1 hx).symm)
  have hu := units_le_magUnits y
  exact ⟨fun hs => by rw [units_of_pos hs]; omega, fun hs => by rw [units_of_neg hs]; omega⟩

theorem toNat_absF (x : F32) : (absF x).toNat = x.toNat % 2 ^ 31 := by
  have hlt : magBits x < 2 ^ 32 := (magBits_lt x).trans (by decide)
  rw [absF_eq_pack, pack, if_neg Bool.false_ne_true, BitVec.toNat_ofNat, Nat.mod_eq_of_lt hlt, magBits]

/-- Settles O21: `clampF_clampedTo` with both infinities beyond every finite bound, and one comparison for the rest. -/
theorem clampsAndExtremes : Obligations.ClampsAndExtremes := by
  refine ⟨fun x lo hi h => ?_, fun n lo hi h => ?_, fun a b => ⟨fun hn => ?_, fun ha hb => ?_, toNat_absF a⟩⟩
  · have hc := clampF_clampedTo h x
    have ⟨_, hbelow, habove, _⟩ := hc
    refine ⟨hc, clampF_within h, fun hx hs hf => habove ?_, fun hx hs hf => hbelow ?_⟩
    · exact fGt_iff.2 ⟨isInf_not_isNaN hx, isFinite_not_isNaN hf, (units_lt_of_isInf hx hf).1 hs⟩
    · exact fLt_iff.2 ⟨isInf_not_isNaN hx, isFinite_not_isNaN hf, (units_lt_of_isInf hx hf).2 hs⟩
  · unfold clampI
    refine ⟨fun hb => ?_, fun ha => ?_, fun hl hh => ?_⟩ <;> split_ifs <;> omega
  · obtain hn | hn := hn <;> simp [maxF, minF, fGt, fLt, hn]
  · simp only [maxF, minF, fGt, fLt, ha, hb, Bool.not_false, Bool.true_and, decide_eq_true_eq]
    refine ⟨fun hlt => ?_, fun hgt => ?_, fun heq => ?_⟩
    · exact ⟨if_pos hlt, if_neg (by omega)⟩
    · exact ⟨if_neg (by omega), if_pos hgt⟩
    · exact ⟨if_neg (by omega), if_neg (by omega)⟩

end Sys2Proof.Proofs
end

section
/-!
PROOFS. The contracts of sinF, tanhF and powF (40_numerics.md R142 to R144).
-/

namespace Sys2Proof.Proofs

open Sys2Proof.Machine Sys2Proof.Laws

/-! ### tanhF -/

theorem fNeg_pack (s : Bool) {m : Nat} (h : m < 2 ^ 31) : fNeg (pack s m) = pack (!s) m := by
  apply eq_of_bits <;> simp [signBit_pack _ h, magBits_pack _ h]

/-- The magnitude bits of tanhF leave the sign bit free. -/
theorem tanhMag_lt (i : FnInstance) {m : Nat} (h : m ≤ infMag) : tanhMag i m < 2 ^ 31 := by
  have hone : tanhMag i infMag = magBits lit1 := if_pos rfl
  exact (tanhMag_mono i h le_rfl).trans_lt (hone ▸ magBits_lt lit1)

theorem tanhF_fNeg (i : FnInstance) {x : F32} (h : isNaN x = false) : tanhF i (fNeg x) = fNeg (tanhF i x) := by
  rw [tanhF_eq_tanhMag i (by rwa [isNaN_fNeg]), tanhF_eq_tanhMag i h, fNeg_pack _ (tanhMag_lt i (isNaN_false_iff.1 h)),
    magBits_fNeg, signBit_fNeg]

theorem magUnits_tanhF_le (i : FnInstance) {x : F32} (h : isNaN x = false) : magUnits (tanhF i x) ≤ magUnits x := by
  obtain ⟨r, e, hr⟩ := tanhF_cases i h
  obtain ⟨-, -, -, h0, hle⟩ := within_iff.1 hr
  have hmin : units (minF lit1 (absF x)) ≤ magUnits x := by
    rw [← units_absF, minF]
    split
    next => exact le_rfl
    next hlt => exact not_lt.1 fun hc => hlt (fLt_iff.2 ⟨by rwa [isNaN_absF], by decide, hc⟩)
  have hmag : magUnits (tanhF i x) = magUnits r := by rw [e, magUnits, magBits_pack _ (magBits_lt r), magUnits]
  have hzero : units lit0 = 0 := by decide
  have habs := natAbs_units r
  omega

/-- tanhF of a zero is that zero: no magnitude is smaller. -/
theorem tanhF_zero (i : FnInstance) {x : F32} (h : magBits x = 0) : tanhF i x = x := by
  have hn : isNaN x = false := isFinite_not_isNaN (isFinite_of_magBits_eq_zero h)
  refine eq_of_bits ?_ ?_
  · rw [tanhF_eq_tanhMag i hn, signBit_pack _ (tanhMag_lt i (isNaN_false_iff.1 hn))]
  · have hle := unitsOfMag_le_iff.1 (magUnits_tanhF_le i hn)
    omega

theorem tanhF_inf (i : FnInstance) {x : F32} (h : isInf x = true) : tanhF i x = pack (signBit x) (magBits lit1) := by
  simp [tanhF, h, isInf_not_isNaN h]

theorem isNaN_tanhF (i : FnInstance) {x : F32} (h : isNaN x = true) : isNaN (tanhF i x) = true := by
  simp [tanhF, h]

theorem sinF_zero (i : FnInstance) {x : F32} (h : magBits x = 0) : sinF i x = x := by
  simp [sinF, h, isFinite_of_magBits_eq_zero h]

/-! ### powF -/

section
variable (i : FnInstance) {b e : F32} (hb : isFinite b = true) (hp : fGt b lit0 = true)
include hb hp

theorem powF_zero (hz : magBits e = 0) : powF i b e = lit1 := by
  simp [powF, hb, hp, hz, isFinite_of_magBits_eq_zero hz]

theorem powF_one : powF i b lit1 = b := by
  have hf : isFinite lit1 = true := by decide
  have hz : magBits lit1 ≠ 0 := by decide
  simp [powF, hb, hp, hf, hz]

/-- powF is positive: 1.0, the base, or no smaller than the positive lower bound of R144. -/
theorem powF_pos (he : isFinite e = true) : fGt (powF i b e) lit0 = true := by
  by_cases hz : magBits e = 0
  · rw [powF_zero i hb hp hz]; decide
  by_cases ho : e = lit1
  · rw [ho, powF_one i hb hp]; exact hp
  obtain ⟨-, -, hn, hl, -⟩ := within_iff.1 (powF_bounds i hb hp he hz ho)
  obtain ⟨-, -, hlo, -⟩ := powLo_le_powHi (e := e) hb hp
  have hzero : units lit0 = 0 := by decide
  exact fGt_iff.2 ⟨hn, by decide, by omega⟩

/-- powF rises with the exponent for a base above 1.0. -/
theorem powF_mono_of_one_lt {e' : F32} (he : isFinite e = true) (he' : isFinite e' = true) (h : fLe e e' = true)
    (h1 : fGt b lit1 = true) : fLe (powF i b e) (powF i b e') = true := by
  have hlt := (fGt_iff.1 h1).2.2
  have hord : fLt b lit1 = false := by rw [← Bool.not_eq_true, fLt_iff]; omega
  refine powF_mono i hb hp he he' hlt.ne' ?_
  rw [powOrder, powOrder, hord]
  exact (fLe_iff.1 h).2.2

/-- powF falls as the exponent rises for a base below 1.0. -/
theorem powF_anti_of_lt_one {e' : F32} (he : isFinite e = true) (he' : isFinite e' = true) (h : fLe e e' = true)
    (h1 : fLt b lit1 = true) : fLe (powF i b e') (powF i b e) = true := by
  refine powF_mono i hb hp he' he (fLt_iff.1 h1).2.2.ne ?_
  rw [powOrder, powOrder, if_pos h1, if_pos h1, units_fNeg, units_fNeg]
  exact neg_le_neg (fLe_iff.1 h).2.2

end

/-- Settles O22: the bounds, the values at the ends and the order of each function, whichever implementation is chosen. -/
theorem functionContracts : Obligations.FunctionContracts := by
  intro i
  refine ⟨fun x => ⟨sinF_within i, sinF_isNaN i, fun h => ⟨tanhF_within i h, tanhF_fNeg i h, magUnits_tanhF_le i h⟩,
    isNaN_tanhF i⟩, sinF_zero i (by decide), sinF_zero i (by decide), tanhF_zero i (by decide), tanhF_zero i (by decide),
    tanhF_inf i (by decide), tanhF_inf i (by decide), fun x y => tanhF_mono i, fun b e hb hp he => ?_⟩
  exact ⟨powF_zero i hb hp (by decide), powF_one i hb hp, powF_pos i hb hp he,
    fun e' he' h => ⟨powF_mono_of_one_lt i hb hp he he' h, powF_anti_of_lt_one i hb hp he he' h⟩⟩

end Sys2Proof.Proofs
end

section
/-!
PROOFS. The triangle fold and the fold stage (40_numerics.md R160, R161), and the exponential map (R165).
-/

namespace Sys2Proof.Proofs

open Sys2Proof.Machine Sys2Proof.Laws

/-! ### The triangle fold -/

/-- The two bounds of [-1, 1] in units. -/
theorem units_one_bounds : units lit1 = 2 ^ 149 ∧ units litNeg1 = -2 ^ 149 := by decide

/-- No value lies both above 1.0 and below -1.0. -/
theorem not_fGt_one_of_fLt_negOne {y : F32} (h : fLt y litNeg1 = true) : fGt y lit1 = false := by
  obtain ⟨hone, hneg⟩ := units_one_bounds
  rw [← Bool.not_eq_true, fGt_iff, hone]
  have hlt := (fLt_iff.1 h).2.2
  omega

theorem triFold_succ_of_gt (k : Nat) {y : F32} (h : fGt y lit1 = true) :
    triFold (k + 1) y = triFold k (fSub lit2 y) := by
  simp [triFold, foldOnce, h]

theorem triFold_succ_of_lt (k : Nat) {y : F32} (h : fLt y litNeg1 = true) :
    triFold (k + 1) y = triFold k (fSub litNeg2 y) := by
  simp [triFold, foldOnce, h, not_fGt_one_of_fLt_negOne h]

/-- Where neither reflection applies the fold is the identity. -/
theorem triFold_of_not_beyond (k : Nat) {y : F32} (hg : fGt y lit1 = false) (hl : fLt y litNeg1 = false) :
    triFold k y = y := by
  cases k <;> simp [triFold, hg, hl]

theorem triFold_of_within (k : Nat) {y : F32} (h : within litNeg1 lit1 y = true) : triFold k y = y := by
  obtain ⟨-, -, -, hl, hh⟩ := within_iff.1 h
  refine triFold_of_not_beyond k ?_ ?_ <;> rw [← Bool.not_eq_true]
  · rw [fGt_iff]; omega
  · rw [fLt_iff]; omega

theorem triFold_of_isNaN (k : Nat) {y : F32} (h : isNaN y = true) : triFold k y = y :=
  triFold_of_not_beyond k (by simp [fGt, fLt, h]) (by simp [fLt, h])

/-- A number is in [-1, 1], or one reflection applies. -/
theorem fold_cases {y : F32} (h : isNaN y = false) :
    within litNeg1 lit1 y = true ∨ fGt y lit1 = true ∨ fLt y litNeg1 = true := by
  have hn : isNaN litNeg1 = false ∧ isNaN lit1 = false := by decide
  simp only [within_iff, fGt_iff, fLt_iff, hn, h, true_and]
  omega

/-- A finite number less an infinity is an infinity. -/
theorem isInf_fSub {a y : F32} (ha : isFinite a = true) (hy : isInf y = true) : isInf (fSub a y) = true := by
  have hy' : isInf (fNeg y) = true := by rwa [isInf_fNeg]
  simp [fSub, fAdd, isFinite_not_isNaN ha, isFinite_not_isInf ha, isInf_not_isNaN hy, hy']

theorem isInf_triFold (k : Nat) {y : F32} (h : isInf y = true) : isInf (triFold k y) = true := by
  induction k generalizing y with
  | zero => exact h
  | succ k ih =>
    obtain hw | hg | hl := fold_cases (isInf_not_isNaN h)
    · rw [triFold_of_within _ hw]; exact h
    · rw [triFold_succ_of_gt k hg]; exact ih (isInf_fSub (by decide) h)
    · rw [triFold_succ_of_lt k hl]; exact ih (isInf_fSub (by decide) h)

/-- A reflection lowers the bound 1 + 2(k + 1) to 1 + 2k: both bounds are f32, so rounding does not pass them. -/
theorem magLe_reflect {b : Nat} (hb : 1 ≤ b) (hb' : b < 2 ^ 24) {y : F32} (h : MagLe (b + 2) y) :
    (fGt y lit1 = true → MagLe b (fSub lit2 y)) ∧ (fLt y litNeg1 = true → MagLe b (fSub litNeg2 y)) := by
  obtain ⟨-, hn, hu⟩ := bound_units hb'
  obtain ⟨hf, hlo, hhi⟩ := magLe_iff.1 h
  obtain ⟨hone, hneg⟩ := units_one_bounds
  have htwo : units lit2 = 2 * 2 ^ 149 ∧ units litNeg2 = -(2 * 2 ^ 149) := by decide
  rw [magLe_iff_within hb', magLe_iff_within hb']
  refine ⟨fun hg => ?_, fun hl => ?_⟩
  · have hlt := (fGt_iff.1 hg).2.2
    refine within_fSub (by decide) hf (by rwa [isNaN_fNeg]) hn ?_ ?_ <;> simp only [units_fNeg, hu] <;> omega
  · have hlt := (fLt_iff.1 hl).2.2
    refine within_fSub (by decide) hf (by rwa [isNaN_fNeg]) hn ?_ ?_ <;> simp only [units_fNeg, hu] <;> omega

/-- k reflections bring every |y| <= 1 + 2k into [-1, 1] (R160). -/
theorem triFold_within {k : Nat} (hk : 1 + 2 * k < 2 ^ 24) {y : F32} (h : MagLe (1 + 2 * k) y) :
    within litNeg1 lit1 (triFold k y) = true := by
  induction k generalizing y with
  | zero => exact magLe_one.1 h
  | succ k ih =>
    have hr := magLe_reflect (b := 1 + 2 * k) (by omega) (by omega) h
    obtain hw | hg | hl := fold_cases (magLe_isNaN h)
    · rw [triFold_of_within _ hw]; exact hw
    · rw [triFold_succ_of_gt k hg]; exact ih (by omega) (hr.1 hg)
    · rw [triFold_succ_of_lt k hl]; exact ih (by omega) (hr.2 hl)

/-! ### The fold stage -/

/-- Up to 1.0 rounding raises an exact value by at most the gap between neighbours, 2^-24. -/
theorem unitsOfMag_roundMag_le {p : Nat} (h : p ≤ 2 ^ 149) : unitsOfMag (roundMag p 1) ≤ p + 2 ^ 125 := by
  have hone : magBits lit1 ≤ infMag ∧ unitsOfMag (magBits lit1) = 2 ^ 149 := by decide
  have hle : roundMag p 1 ≤ magBits lit1 := roundMag_le (by decide) hone.1 (by omega)
  cases hm : roundMag p 1 with
  | zero => exact Nat.zero_le _
  | succ m =>
    have hgap := gap_below_one (m := m) (by omega)
    have hlt : unitsOfMag m < p := by
      by_contra hc
      have hdown : roundMag p 1 ≤ m := roundMag_le (by decide) (by omega) (by omega)
      omega
    omega

/-- 1.0 - w as a crossfade weight: rounded up by at most 2^-24. -/
theorem crossfade_weight {w : F32} (hw : within lit0 lit1 w = true) :
    within lit0 lit1 (fSub lit1 w) = true ∧ units (fSub lit1 w) + units w ≤ 2 ^ 149 + 2 ^ 125 := by
  obtain ⟨-, -, -, hlo, hhi⟩ := within_iff.1 hw
  have hf := isFinite_of_within hw (by decide) (by decide)
  have hu : units lit0 = 0 ∧ units lit1 = 2 ^ 149 := by decide
  refine ⟨within_fSub (by decide) hf (by decide) (by decide) (by omega) (by omega), ?_⟩
  have hr := unitsOfMag_roundMag_le (p := (units lit1 + units (fNeg w)).natAbs) (by rw [units_fNeg]; omega)
  rw [← magBits_fAdd (by decide) (by rwa [isFinite_fNeg])] at hr
  have hle := (units_le_magUnits (fSub lit1 w)).1
  rw [fSub, magUnits] at hle
  rw [units_fNeg] at hr
  rw [fSub]
  omega

/-- A product with a factor in [-1, 1] is no larger than the other factor. -/
theorem within_fMul_of_unit {a x : F32} (ha : isFinite a = true) (h0 : 0 ≤ units a) (hx : within litNeg1 lit1 x = true) :
    within (fNeg a) a (fMul a x) = true := by
  have hn := isFinite_not_isNaN ha
  refine within_fMul_sym (b := a) (d := lit1) ?_ hx ha (by decide) hn (by rw [units_one_bounds.1])
  rw [within_iff, isNaN_fNeg, units_fNeg]
  exact ⟨hn, hn, hn, by omega, le_rfl⟩

/-- The crossfade of two values in [-1, 1]: the two weights exceed 1.0 by less than rounding takes off. -/
theorem crossfade_within {x y w : F32} (hx : within litNeg1 lit1 x = true) (hy : within litNeg1 lit1 y = true)
    (hw : within lit0 lit1 w = true) : within litNeg1 lit1 (fAdd (fMul (fSub lit1 w) x) (fMul w y)) = true := by
  obtain ⟨ha, hsum⟩ := crossfade_weight hw
  have hu : units lit0 = 0 := by decide
  have fa := isFinite_of_within ha (by decide) (by decide)
  have fw := isFinite_of_within hw (by decide) (by decide)
  obtain ⟨-, -, -, ha0, -⟩ := within_iff.1 ha
  obtain ⟨-, -, -, hw0, -⟩ := within_iff.1 hw
  have hp := within_fMul_of_unit fa (by omega) hx
  have hq := within_fMul_of_unit fw (by omega) hy
  have fp := isFinite_of_within hp (by rwa [isFinite_fNeg]) fa
  have fq := isFinite_of_within hq (by rwa [isFinite_fNeg]) fw
  obtain ⟨-, -, -, hp₁, hp₂⟩ := within_iff.1 hp
  obtain ⟨-, -, -, hq₁, hq₂⟩ := within_iff.1 hq
  rw [units_fNeg] at hp₁ hq₁
  have htop : roundMag (2 ^ 149 + 2 ^ 125) 1 = magBits lit1 := by decide +kernel
  have hr : magBits (fAdd (fMul (fSub lit1 w) x) (fMul w y)) ≤ magBits lit1 := by
    rw [magBits_fAdd fp fq, ← htop]
    exact roundMag_mono (by decide) (by decide) (by omega)
  refine magLe_one.1 ⟨isFinite_iff.2 (hr.trans_lt (by decide)), (unitsOfMag_le_iff.2 hr).trans ?_⟩
  decide

/-- Up to the threshold the fold stage is the identity. -/
theorem foldStage_of_le (c : Params) (x : F32) {w : F32} (h : fLe w lit0_01 = true) : foldStage c x w = x := by
  refine if_neg ?_
  rw [fGt_iff]
  have hle := (fLe_iff.1 h).2.2
  omega

/-- The driven value is at most 5, which 16 reflections fold into [-1, 1]. -/
theorem foldMix_within {c : Params} (hc : c.isDefault) {x w : F32} (hx : within litNeg1 lit1 x = true)
    (hw : within lit0 lit1 w = true) : within litNeg1 lit1 (foldMix c x w) = true := by
  have hdrive : c.foldDrive = 0x40800000 := by rw [isDefault_eq hc]; rfl
  have hiter : c.foldMaxIter = 16 := by rw [isDefault_eq hc]; rfl
  have hfour : MagLe 4 (0x40800000 : F32) := ⟨by decide, by decide⟩
  have hone : MagLe 1 lit1 := ⟨by decide, by decide⟩
  have hd : MagLe (1 + 4 * 1) (fAdd lit1 (fMul 0x40800000 w)) :=
    magLe_fAdd hone (magLe_fMul hfour (magLe_of_unit hw) (by decide) (by decide) (by decide)) (by decide)
  have hxd := magLe_fMul (magLe_one.2 hx) hd (by decide) (by decide) (by decide)
  rw [foldMix, hdrive, hiter]
  exact crossfade_within hx (triFold_within (by decide) (magLe_mono hxd (by decide))) hw

theorem foldStage_within {c : Params} (hc : c.isDefault) {x w : F32} (hx : within litNeg1 lit1 x = true)
    (hw : within lit0 lit1 w = true) : within litNeg1 lit1 (foldStage c x w) = true := by
  unfold foldStage
  split
  next => exact foldMix_within hc hx hw
  next => exact hx

/-- Settles O23: the fold by its reflections, and the fold stage by the crossfade's two weights. -/
theorem waveFolding : Obligations.WaveFolding :=
  ⟨fun k _ => ⟨rfl, triFold_succ_of_gt k, triFold_succ_of_lt k⟩,
    fun _ _ _ => ⟨fun hg => if_pos hg, fun hg => if_neg (ne_true_of_eq_false hg)⟩,
    fun k _ hk => ⟨fun hf hm => triFold_within (by omega) ⟨hf, hm⟩, triFold_of_within k, triFold_of_isNaN k, isInf_triFold k⟩,
    fun c x _ hc hx hw => ⟨foldStage_within hc hx hw, foldStage_of_le c x⟩⟩

/-! ### The exponential map -/

section
variable (c : Params) {lo ratio : F32} (hr : isFinite ratio = true) (hp : fGt ratio lit0 = true)
include hr hp

theorem expMap_zero (hl : isFinite lo = true) : expMap c lit0 lo ratio = lo := by
  rw [expMap, powF_zero c.fns hr hp (by decide), fMul_one hl]

theorem expMap_one : expMap c lit1 lo ratio = fMul lo ratio := by
  rw [expMap, powF_one c.fns hr hp]

end

/-- The FM index is in [0.15, 8] (43_fm.md R244). -/
theorem indexOf_within (c : Params) {x : F32} (hx : within lit0 lit1 x = true) :
    within lit0_15 0x41000000 (indexOf c x) = true :=
  expMap_within hx (by decide) (by decide) (by decide) (by decide) (by decide +kernel) (by decide +kernel) (by decide)

/-- Settles O24: powF at its two stated exponents, and monotone between them. -/
theorem exponentialMap : Obligations.ExponentialMap := by
  refine fun c => ⟨fun lo ratio hl hr hp => ⟨congrArg units (expMap_zero c hr hp hl), expMap_one c hr hp⟩, ?_, ?_, ?_,
    fun x hx => ⟨attackTime_within c hx, decayTime_within c hx, indexOf_within c hx⟩⟩
  all_goals
    rw [expMap_one c (by decide) (by decide)]
    decide +kernel

end Sys2Proof.Proofs
end

section
/-!
PROOFS. The envelope (41_envelope.md R170, R171, R174, R177): the two setters, one step from each stage, and the runs of
steps through the attack and through the decay.
-/

namespace Sys2Proof.Proofs

open Sys2Proof.Machine Sys2Proof.Laws

/-- Settles O28: each setter is the write of its control register, with the clamped operand. -/
theorem envelopeSetters : Obligations.EnvelopeSetters := by
  intro x s
  refine ⟨clamp01 x, clampF_clampedTo (by decide) x, ⟨respond 0 (writeControl 0x01 x s), rfl, ?_⟩,
    respond 0 (writeControl 0x02 x s), rfl, ?_⟩
  all_goals exact ⟨⟨rfl, rfl⟩, rfl, rfl, rfl, rfl, rfl, rfl, rfl, ⟨rfl, rfl, rfl⟩, fun _ _ => rfl⟩

/-! ### One step from each stage -/

section
variable {e : EnvState}

theorem envProcess_of_idle (h : e.stage = .idle) : envProcess e = { e with level := lit0 } := by
  simp [envProcess, h]

theorem envProcess_of_sustain (h : e.stage = .sustain) : envProcess e = { e with level := lit1 } := by
  simp [envProcess, h]

theorem envProcess_of_attack_top (h : e.stage = .attack) (ht : fGe (fAdd e.level e.attackRate) lit1 = true) :
    envProcess e = { e with level := lit1, stage := .sustain } := by
  simp [envProcess, h, ht]

theorem envProcess_of_attack_below (h : e.stage = .attack) (ht : fGe (fAdd e.level e.attackRate) lit1 = false) :
    envProcess e = { e with level := fAdd e.level e.attackRate } := by
  simp [envProcess, h, ht]

theorem envProcess_of_decay_bottom (h : e.stage = .decay) (hb : fLt (fMul e.level e.decayCoeff) lit0_001 = true) :
    envProcess e = { e with level := lit0, stage := .idle } := by
  simp [envProcess, h, hb]

theorem envProcess_of_decay_above (h : e.stage = .decay) (hb : fLt (fMul e.level e.decayCoeff) lit0_001 = false) :
    envProcess e = { e with level := fMul e.level e.decayCoeff } := by
  simp [envProcess, h, hb]

end

/-- PROCESS advances the envelope by one step, whatever the voice (45_engine.md R315). -/
theorem exec_process_env {s t : State} (h : exec .process s = .next t) : t.env = envProcess s.env := by
  obtain rfl := answer_next_iff.1 h
  obtain ⟨-, -, henv, -⟩ := synthesise_cases s _ _ rfl
  exact henv

/-- Settles O44: PROCESS is one step of the envelope, and each stage and outcome has its equation. -/
theorem envelopeStep : Obligations.EnvelopeStep := by
  intro s t h
  obtain ⟨hrate, hcoeff, -⟩ := envProcess_cases s.env _ rfl
  rw [exec_process_env h]
  refine ⟨hrate, hcoeff, fun hi => ?_, fun hs => ?_, fun ha => ⟨fun ht => ?_, fun ht => ?_⟩,
    fun hd => ⟨fun hb => ?_, fun hb => ?_⟩⟩
  · rw [envProcess_of_idle hi]; exact ⟨hi, rfl⟩
  · rw [envProcess_of_sustain hs]; exact ⟨hs, rfl⟩
  · rw [envProcess_of_attack_top ha ht]; exact ⟨rfl, rfl⟩
  · rw [envProcess_of_attack_below ha ht]; exact ⟨ha, rfl⟩
  · rw [envProcess_of_decay_bottom hd hb]; exact ⟨rfl, rfl⟩
  · rw [envProcess_of_decay_above hd hb]; exact ⟨hd, rfl⟩

/-! ### Runs that end -/

/-- Where a step from `P` either is the last one or stays in `P` with a smaller measure, repeated steps come to a last one;
`R` holds across each step of the run. -/
theorem iterate_reaches_last {α : Type} {f : α → α} {P Last : α → Prop} {R : α → α → Prop} (m : α → Nat)
    (hstep : ∀ a, P a → R a (f a) ∧ (Last (f a) ∨ P (f a) ∧ m (f a) < m a)) (a : α) (ha : P a) :
    ∃ n, Last (f^[n + 1] a) ∧ ∀ k, k ≤ n → P (f^[k] a) ∧ R (f^[k] a) (f^[k + 1] a) := by
  obtain ⟨hr, hlast | ⟨hp, hlt⟩⟩ := hstep a ha
  · refine ⟨0, hlast, fun k hk => ?_⟩
    obtain rfl := Nat.le_zero.1 hk
    exact ⟨ha, hr⟩
  · obtain ⟨n, hlast, hrun⟩ := iterate_reaches_last m hstep (f a) hp
    refine ⟨n + 1, hlast, fun k hk => ?_⟩
    cases k with
    | zero => exact ⟨ha, hr⟩
    | succ k => exact hrun k (Nat.le_of_succ_le_succ hk)
termination_by m a

/-! ### The attack -/

/-- In the attack below its top, with a legal rate (41_envelope.md R170, R177). -/
structure Attacking (e : EnvState) : Prop where
  stage : e.stage = .attack
  level : withinBelow lit0 lit1 e.level = true
  rate : within 0x373E37C6 0x3CB9C277 e.attackRate = true

/-- How far the level is below 1.0, in units of 2^-149. -/
def attackRoom (e : EnvState) : Nat := (units lit1 - units e.level).toNat

/-- A step of the attack raises the level, and ends the attack at 1.0 or leaves less room. -/
theorem Attacking.step {e : EnvState} (h : Attacking e) :
    fLt e.level (envProcess e).level = true ∧
      (((envProcess e).stage = .sustain ∧ (envProcess e).level = lit1) ∨
        Attacking (envProcess e) ∧ attackRoom (envProcess e) < attackRoom e) := by
  obtain ⟨hn0, hn1, hn, hlo, hhi⟩ := withinBelow_iff.1 h.level
  cases ht : fGe (fAdd e.level e.attackRate) lit1 with
  | true =>
    rw [envProcess_of_attack_top h.stage ht]
    exact ⟨fLt_iff.2 ⟨hn, hn1, hhi⟩, .inl ⟨rfl, rfl⟩⟩
  | false =>
    obtain ⟨-, hnSum, hrise⟩ := level_rises h.level h.rate
    have hbelow : units (fAdd e.level e.attackRate) < units lit1 := by
      by_contra hc
      exact Bool.false_ne_true (ht.symm.trans (fLe_iff.2 ⟨hn1, hnSum, not_lt.1 hc⟩))
    rw [envProcess_of_attack_below h.stage ht]
    refine ⟨fLt_iff.2 ⟨hn, hnSum, hrise⟩, .inr ⟨⟨h.stage, ?_, h.rate⟩, ?_⟩⟩
    · exact withinBelow_iff.2 ⟨hn0, hn1, hnSum, hlo.trans hrise.le, hbelow⟩
    · change (units lit1 - units (fAdd e.level e.attackRate)).toNat < (units lit1 - units e.level).toNat
      omega

/-- Settles O45: the room below 1.0 is the measure of the run. -/
theorem attackRisesToSustain : Obligations.AttackRisesToSustain := by
  intro c x e hd hx hstage hlevel hrate
  have hr : within 0x373E37C6 0x3CB9C277 e.attackRate = true := hrate ▸ attackRateOf_within hd hx
  obtain ⟨n, ⟨hsustain, htop⟩, hrun⟩ :=
    iterate_reaches_last (P := Attacking) (Last := fun u => u.stage = .sustain ∧ u.level = lit1)
      (R := fun u v => fLt u.level v.level = true) attackRoom (fun _ => Attacking.step) e ⟨hstage, hlevel, hr⟩
  exact ⟨hr, n, hsustain, htop, fun k hk => (hrun k hk).imp_left Attacking.stage⟩

/-! ### The decay -/

/-- The exponent of the decay coefficient of every legal DECAY under the default parameters (41_envelope.md R171). -/
theorem decayExponent_within {c : Params} (hd : c.isDefault) {x : F32} (hx : within lit0 lit1 x = true) :
    within 0x363E37C6 0x3B149B93 (fDiv lit1 (fMul (expMap c x lit0_01 lit800) c.sampleRate)) = true := by
  have hrate : c.sampleRate = Params.default.sampleRate := by rw [isDefault_eq hd]
  rw [hrate]
  exact rate_within (decayTime_within c hx) (by decide) (by decide) (by decide) rfl rfl (by decide +kernel)
    (by decide +kernel) (by decide +kernel) (by decide +kernel) (by decide +kernel) (by decide) (by decide)

/-- The reference power at the smallest exponent of a legal DECAY: the longest decay, of 8 s (41_envelope.md R171). -/
theorem powF_reference_longest_decay : powF .reference lit0_001 0x363E37C6 = 0x3F7FFEB8 := by decide +kernel

/-- A base below 1.0: the smallest exponent gives the largest coefficient. -/
theorem decayCoeffOf_within_reference {c : Params} (hd : c.isDefault) (hf : c.fns = .reference) {x : F32}
    (hx : within lit0 lit1 x = true) : within lit0 0x3F7FFEB8 (decayCoeffOf c x) = true := by
  have he := decayExponent_within hd hx
  have hfin := isFinite_of_within he (by decide) (by decide)
  have hlo := (Bool.and_eq_true_iff.1 (decayCoeffOf_within_unit hd hx)).1
  have hhi : fLe (decayCoeffOf c x) (powF c.fns lit0_001 0x363E37C6) = true :=
    powF_anti_of_lt_one c.fns (by decide) (by decide) (by decide) hfin (Bool.and_eq_true_iff.1 he).1 (by decide)
  rw [hf, powF_reference_longest_decay] at hhi
  exact Bool.and_eq_true_iff.2 ⟨hlo, hhi⟩

/-- In the decay above its bottom, with a coefficient up to the largest legal one (41_envelope.md R171, R177). -/
structure Decaying (e : EnvState) : Prop where
  stage : e.stage = .decay
  level : within lit0_001 lit1 e.level = true
  coeff : within lit0 0x3F7FFEB8 e.decayCoeff = true

/-- The level in units of 2^-149. -/
def decayRoom (e : EnvState) : Nat := (units e.level).toNat

/-- A step of the decay lowers the level, and ends the decay at 0.0 or leaves less room. -/
theorem Decaying.step {e : EnvState} (h : Decaying e) :
    fLt (envProcess e).level e.level = true ∧
      (((envProcess e).stage = .idle ∧ (envProcess e).level = lit0) ∨
        Decaying (envProcess e) ∧ decayRoom (envProcess e) < decayRoom e) := by
  obtain ⟨hn0, hn1, hn, hlo, hhi⟩ := within_iff.1 h.level
  obtain ⟨hnz, hz⟩ : isNaN lit0 = false ∧ units lit0 = 0 := by decide
  have hpos : 0 < units e.level := lt_of_lt_of_le (by decide) hlo
  cases hb : fLt (fMul e.level e.decayCoeff) lit0_001 with
  | true =>
    rw [envProcess_of_decay_bottom h.stage hb]
    exact ⟨fLt_iff.2 ⟨hnz, hn, hz.trans_lt hpos⟩, .inl ⟨rfl, rfl⟩⟩
  | false =>
    obtain ⟨hnProd, hnonneg, hfall⟩ := level_falls h.level h.coeff
    have habove : units lit0_001 ≤ units (fMul e.level e.decayCoeff) := by
      by_contra hc
      exact Bool.false_ne_true (hb.symm.trans (fLt_iff.2 ⟨hnProd, hn0, not_le.1 hc⟩))
    rw [envProcess_of_decay_above h.stage hb]
    refine ⟨fLt_iff.2 ⟨hnProd, hn, hfall⟩, .inr ⟨⟨h.stage, ?_, h.coeff⟩, ?_⟩⟩
    · exact within_iff.2 ⟨hn0, hn1, hnProd, habove, hfall.le.trans hhi⟩
    · change (units (fMul e.level e.decayCoeff)).toNat < (units e.level).toNat
      omega

/-- Settles O46: the coefficient by the smallest exponent, and the level itself as the measure of the run. -/
theorem decayFallsToIdle : Obligations.DecayFallsToIdle := by
  refine ⟨fun c x hd hf => decayCoeffOf_within_reference hd hf, fun e hstage hlevel hcoeff => ?_⟩
  obtain ⟨n, ⟨hidle, hbottom⟩, hrun⟩ :=
    iterate_reaches_last (P := Decaying) (Last := fun u => u.stage = .idle ∧ u.level = lit0)
      (R := fun u v => fLt v.level u.level = true) decayRoom (fun _ => Decaying.step) e ⟨hstage, hlevel, hcoeff⟩
  exact ⟨n, hidle, hbottom, fun k hk => (hrun k hk).imp_left Decaying.stage⟩

end Sys2Proof.Proofs
end

section
/-!
PROOFS. The cascade oscillator (42_cascade.md R200 to R203, R210 to R212): its four setters, the harmonic count, and the
weights of a harmonic.
-/

namespace Sys2Proof.Proofs

open Sys2Proof.Machine Sys2Proof.Laws

/-! ### The setters -/

/-- Only ATTACK and DECAY have a rate, so the write of any other control register changes the registers alone. -/
theorem writeControl_onlyRegistersChange {id : Nat} (h : 0x03 ≤ id) (x : F32) (s : State) :
    OnlyRegistersChange s (respond 0 (writeControl id x s)) := by
  have henv : (writeControl id x s).env = s.env := by
    rw [writeControl, putEnv_env]
    unfold deriveRates
    split
    · omega
    · omega
    · rfl
  exact ⟨henv, rfl, rfl, rfl, rfl, rfl, ⟨rfl, rfl, rfl⟩, fun _ _ => rfl⟩

/-- Settles O25: each setter is the write of its control register, with the clamped operand. -/
theorem cascadeSetters : Obligations.CascadeSetters := by
  intro x s
  have hw : ∀ id, 0x03 ≤ id → OnlyRegistersChange s (respond 0 (writeControl id x s)) := fun _ h =>
    writeControl_onlyRegistersChange h x s
  exact ⟨clamp01 x, clampF_clampedTo (by decide) x,
    ⟨respond 0 (writeControl 0x03 x s), rfl, rfl, hw 0x03 (by decide), rfl, rfl⟩,
    ⟨respond 0 (writeControl 0x04 x s), rfl, rfl, hw 0x04 (by decide), rfl, rfl⟩,
    ⟨respond 0 (writeControl 0x05 x s), rfl, rfl, hw 0x05 (by decide), rfl, rfl⟩,
    ⟨respond 0 (writeControl 0x06 x s), rfl, rfl, hw 0x06 (by decide), rfl, rfl⟩⟩

/-! ### The harmonic count -/

section
variable {x : F32} (hx : within lit0 lit1 x = true)
include hx

theorem spread_product_within : within lit0 lit7 (fMul x lit7) = true :=
  within_fMul_nonneg hx (c := lit7) (d := lit7) (by decide) (by decide) (by decide) (by decide) (by decide) (by decide)
    (by decide) (by decide) (by decide) (by decide +kernel) (by decide +kernel)

/-- The floor in the harmonic count is a quotient of units, and not negative. -/
theorem floorI_spread_product :
    floorI (fMul x lit7) = units (fMul x lit7) / 2 ^ 149 ∧ 0 ≤ units (fMul x lit7) / 2 ^ 149 := by
  have hw := spread_product_within hx
  have hf : isFinite (fMul x lit7) = true := isFinite_of_within hw (by decide) (by decide)
  obtain ⟨-, -, -, hlo, -⟩ := within_iff.1 hw
  exact ⟨if_pos hf, Int.ediv_nonneg hlo (by decide)⟩

theorem numHarmonics_eq : (numHarmonics x : Int) = 1 + floorI (fMul x lit7) := by
  obtain ⟨hfloor, h0⟩ := floorI_spread_product hx
  rw [numHarmonics, hfloor, Int.toNat_of_nonneg (by omega)]

theorem one_le_numHarmonics : 1 ≤ numHarmonics x := by
  have heq := numHarmonics_eq hx
  obtain ⟨hfloor, h0⟩ := floorI_spread_product hx
  omega

/-- The count never falls: the product and its floor are monotone. -/
theorem numHarmonics_mono {y : F32} (hy : within lit0 lit1 y = true) (h : fLe x y = true) :
    numHarmonics x ≤ numHarmonics y := by
  obtain ⟨-, -, -, hlo, -⟩ := within_iff.1 hy
  have hprod : units (fMul x lit7) ≤ units (fMul y lit7) :=
    fMul_mono (finite_of_unit hx) (by decide) (finite_of_unit hy) (by decide) (by decide) hlo (fLe_iff.1 h).2.2 le_rfl
  have hx' := numHarmonics_eq hx
  have hy' := numHarmonics_eq hy
  rw [(floorI_spread_product hx).1] at hx'
  rw [(floorI_spread_product hy).1] at hy'
  omega

end

/-- Settles O47: the count is read off the product, which is in [0, 7] and monotone; the five values by evaluation. -/
theorem harmonicCount : Obligations.HarmonicCount := by
  refine ⟨fun x y hx hy => ?_, by decide +kernel⟩
  exact ⟨numHarmonics_eq hx, one_le_numHarmonics hx, numHarmonics_le hx, numHarmonics_mono hx hy⟩

/-! ### The weights of a harmonic -/

/-- A zero times a finite value is a zero, of some sign (40_numerics.md R141). -/
theorem magBits_fMul_of_zero {x y : F32} (hx : magBits x = 0) (hy : isFinite y = true) : magBits (fMul x y) = 0 := by
  have hz : magUnits x = 0 := by rw [magUnits, hx]; decide
  rw [fMul_finite (isFinite_of_magBits_eq_zero hx) hy, magBits_roundTo, hz, Nat.zero_mul, roundMag_zero (by positivity)]

/-- 1.0 plus a zero of either sign is 1.0 (40_numerics.md R141). -/
theorem fAdd_one_of_zero {z : F32} (hz : magBits z = 0) : fAdd lit1 z = lit1 := by
  have hu : units z = 0 := by
    have h0 : magUnits z = 0 := by rw [magUnits, hz]; decide
    have habs := natAbs_units z
    omega
  rw [fAdd_finite (by decide) (isFinite_of_magBits_eq_zero hz), hu, add_zero, if_neg (by decide)]
  decide +kernel

/-- At chaos 0 the chaos term is a zero, of the sign of the modulator output (42_cascade.md R212). -/
theorem magBits_chaosDepth_zero (i : Fin 8) {m : F32} (hm : isFinite m = true) :
    magBits (chaosDepth (f32i (i.val + 1)) lit0 m) = 0 := by
  have hw : ∀ i : Fin 8, isFinite (fMul (f32i (i.val + 1)) lit0_125) = true := by decide +kernel
  exact magBits_fMul_of_zero (magBits_fMul_of_zero (by decide) hm) (hw i)

/-- A multiplier of the form of trem and vib is 1.0 at a zero chaos term, whatever its depth. -/
theorem maxF_chaosFloor_of_zero {z d : F32} (hz : magBits z = 0) (hd : isFinite d = true) :
    maxF lit0_15 (fAdd lit1 (fMul z d)) = lit1 := by
  rw [fAdd_one_of_zero (magBits_fMul_of_zero hz hd)]
  decide +kernel

section
variable {c : Params} (hd : c.isDefault) (i : Fin 8) {m : F32} (hm : isFinite m = true)
include hd hm

theorem tremMul_zero : tremMul c (f32i (i.val + 1)) lit0 m = lit1 := by
  have hfloor : c.chaosFloor = lit0_15 := by rw [isDefault_eq hd]; rfl
  have hdepth : c.tremDepth = lit1 := by rw [isDefault_eq hd]; rfl
  rw [tremMul, hfloor, hdepth, maxF_chaosFloor_of_zero (magBits_chaosDepth_zero i hm) (by decide)]

theorem vibMul_zero : vibMul c (f32i (i.val + 1)) lit0 m = lit1 := by
  have hfloor : c.chaosFloor = lit0_15 := by rw [isDefault_eq hd]; rfl
  have hdepth : c.vibDepth = 0x3CA3D70A := by rw [isDefault_eq hd]; rfl
  rw [vibMul, hfloor, hdepth, maxF_chaosFloor_of_zero (magBits_chaosDepth_zero i hm) (by decide)]

end

theorem baseAmp_zero (i : Fin 8) : baseAmp (f32i (i.val + 1)) lit0 = lit1 := by
  revert i
  decide +kernel

/-- The base amplitude is in (0, 1], being in [0.125, 1]. -/
theorem baseAmp_pos_le_one (i : Fin 8) {x : F32} (hx : within lit0 lit1 x = true) :
    fGt (baseAmp (f32i (i.val + 1)) x) lit0 = true ∧ fLe (baseAmp (f32i (i.val + 1)) x) lit1 = true := by
  obtain ⟨-, hn1, hn, hlo, hhi⟩ := within_iff.1 (baseAmp_within i hx)
  exact ⟨fGt_iff.2 ⟨hn, by decide, lt_of_lt_of_le (by decide) hlo⟩, fLe_iff.2 ⟨hn, hn1, hhi⟩⟩

/-- Settles O48: the base amplitude by its range and eight evaluations, the multipliers by their ranges and the zero chaos
term. -/
theorem harmonicWeights : Obligations.HarmonicWeights := by
  have hcascadeOne : baseAmp (f32i 1) lit1 = lit1 ∧ baseAmp (f32i 2) lit1 = lit0_5 ∧
      baseAmp (f32i 3) lit1 = 0x3EAAAAAC ∧ baseAmp (f32i 4) lit1 = lit0_25 ∧ baseAmp (f32i 5) lit1 = 0x3E4CCCCC ∧ baseAmp (f32i 6) lit1 = 0x3E2AAAAC ∧
      baseAmp (f32i 7) lit1 = 0x3E124924 ∧ baseAmp (f32i 8) lit1 = lit0_125 := by decide +kernel
  obtain ⟨h₁, h₂, h₃, h₄, h₅, h₆, h₇, h₈⟩ := hcascadeOne
  refine ⟨fun i x hx => ?_, h₁, h₂, h₃, h₄, h₅, h₆, h₇, h₈, fun c i chaos m hd hc hm => ?_⟩
  · obtain ⟨hpos, hle⟩ := baseAmp_pos_le_one i hx
    exact ⟨hpos, hle, baseAmp_zero i⟩
  · have hf := finite_of_sym hm
    exact ⟨tremMul_within hd i hc hm, vibMul_within hd i hc hm, tremMul_zero hd i hf, vibMul_zero hd i hf⟩

end Sys2Proof.Proofs
end

section
/-!
PROOFS. The cascade oscillator's PROCESS (42_cascade.md R206, R209, R213): the phases and sums of the harmonic loop, the
modulation source, and the sample.
-/

namespace Sys2Proof.Proofs

open Sys2Proof.Machine Sys2Proof.Laws

/-! ### One PROCESS of the cascade voice -/

/-- PROCESS on the cascade voice is one step of the oscillator at the new envelope level, and answers its guarded sample
(45_engine.md R315). -/
theorem exec_process_cascade {s t : State} (hv : s.eng.voice = .cascade) (h : exec .process s = .next t) :
    t.cas = (casProcess s.cfg s.reg s.cas t.env.level).1 ∧
      t.port.rspData = guardSample s.cfg (casProcess s.cfg s.reg s.cas t.env.level).2 := by
  rw [exec_process_env h]
  obtain rfl := answer_next_iff.1 h
  obtain ⟨-, -, -, -, -, -, -, ⟨-, hcas, hraw, -⟩ | ⟨hfm, -⟩ | ⟨hres, -⟩⟩ := synthesise_cases s _ _ rfl
  · exact ⟨hcas, congrArg (guardSample s.cfg) hraw⟩
  · rw [hv] at hfm; cases hfm
  · rw [hv] at hres; cases hres

/-! ### The phases -/

/-- A playable frequency under the default parameters is at most 4000 Hz, and not negative. -/
theorem playable_freq_bounds {c : Params} (hd : c.isDefault) {f : F32} (hf : within c.fMin c.fMax f = true) :
    MagLe 4000 f ∧ 0 ≤ units f := by
  have hmin : c.fMin = 0x41A00000 := by rw [isDefault_eq hd]; rfl
  have hmax : c.fMax = 0x457A0000 := by rw [isDefault_eq hd]; rfl
  rw [hmin, hmax] at hf
  obtain ⟨-, -, -, hlo, -⟩ := within_iff.1 hf
  exact ⟨magLe_of_within hf ⟨by decide, by decide⟩ ⟨by decide, by decide⟩, le_trans (by decide) hlo⟩

/-- The fundamental is at most 8000 Hz even with a vibrato factor of 2, below the limit of 19845 Hz (42_cascade.md R213). -/
theorem fundamental_sounds {c : Params} (hd : c.isDefault) {r : Regs} (hr : within lit0 lit1 r.chaos = true) {x : CasState}
    (hx : within c.fMin c.fMax x.freq = true) {m : F32} (hm : within litNeg1 lit1 m = true) :
    fGt (harmonicFreq c r x m 0) (aaLimit c) = false := by
  have hrate : c.sampleRate = Params.default.sampleRate := by rw [isDefault_eq hd]
  have hfreq : MagLe 4000 x.freq := (playable_freq_bounds hd hx).1
  have hone : MagLe 1 (f32i ((0 : Fin 8).val + 1)) := ⟨by decide, by decide⟩
  have hvib : MagLe 2 (vibMul c (f32i ((0 : Fin 8).val + 1)) r.chaos m) :=
    magLe_of_within (vibMul_within hd 0 hr hm) ⟨by decide, by decide⟩ ⟨by decide, by decide⟩
  have hprod : MagLe (4000 * 1 * 2) (harmonicFreq c r x m 0) :=
    magLe_fMul (magLe_fMul hfreq hone (by decide) (by decide) (by decide)) hvib (by decide) (by decide) (by decide)
  have hlimit : 8000 * 2 ^ 149 ≤ units (fMul lit0_45 Params.default.sampleRate) := by decide +kernel
  rw [aaLimit, hrate, ← Bool.not_eq_true, fGt_iff]
  have hle := (magLe_iff.1 hprod).2.2
  omega

/-- PROCESS on the cascade voice changes no phase beyond the count. -/
theorem casProcess_phase_beyond (c : Params) (r : Regs) (x : CasState) (env : F32) (i : Fin 8)
    (h : numHarmonics r.spread ≤ i.val) : (casProcess c r x env).1.phase[i] = x.phase[i] :=
  harmonicSum_phase_before c r x _ i _ h

/-- Settles O49: the wrap is exact, one pass of the loop sets one phase, and PROCESS is `casProcess`. -/
theorem harmonicPhases : Obligations.HarmonicPhases := by
  refine ⟨fun p hf h0 _ => ?_, fun c r x m i a => ⟨?_, fun hs => ?_, fun j hj => ?_, ?_⟩, fun s t hv h => ?_⟩
  · obtain ⟨hfin, hfrac⟩ := units_wrap01 hf h0
    exact ⟨hfin, hfrac, wrap01_withinBelow hf h0⟩
  · exact (harmonicStep_sums c r x m i a).1
  · rw [harmonicStep_phase, if_pos ⟨rfl, hs⟩]
  · rw [harmonicStep_phase, if_neg fun hc => hj hc.1]
  · rintro hd hr hx hm rfl
    exact fundamental_sounds hd (hr 0x06 r.chaos rfl) hx hm
  · obtain ⟨hcas, -⟩ := exec_process_cascade hv h
    obtain ⟨hfreq, hhenv, hmod⟩ := casProcess_frame s.cfg s.reg s.cas t.env.level
    rw [hcas]
    refine ⟨fun i => casProcess_phase_beyond s.cfg s.reg s.cas t.env.level i, hfreq, hhenv, hmod, fun hl => ?_⟩
    rw [hmod, hl]
    exact ⟨rfl, rfl, rfl, rfl⟩

/-! ### The sample -/

section
variable {c : Params} {r : Regs} {x : CasState} {m : F32} {i : Fin 8}

/-- A skipped harmonic leaves the phases and the sums of those before it. -/
theorem harmonicSum_of_skipped (h : fGt (harmonicFreq c r x m i) (aaLimit c) = true) :
    harmonicSum c r x m (i.val + 1) = harmonicSum c r x m i.val := by
  rw [harmonicSum_succ]
  exact (harmonicStep_sums c r x m i _).1 h

/-- A sounding harmonic advances the phase it had before the loop. -/
theorem harmonicSum_phase_of_sounding (h : fGt (harmonicFreq c r x m i) (aaLimit c) = false) :
    (harmonicSum c r x m (i.val + 1)).phase[i] = wrap01 (fAdd x.phase[i] (fDiv (harmonicFreq c r x m i) c.sampleRate)) := by
  rw [harmonicSum_succ, harmonicStep_phase, if_pos ⟨rfl, h⟩, harmonicSum_phase_before c r x m i i.val le_rfl]

/-- A sounding harmonic adds its sine at the advanced phase, and its amplitude. -/
theorem harmonicSum_sums_of_sounding (h : fGt (harmonicFreq c r x m i) (aaLimit c) = false) :
    (harmonicSum c r x m (i.val + 1)).out = fAdd (harmonicSum c r x m i.val).out
        (fMul (sinF c.fns (fMul litTwoPi (harmonicSum c r x m (i.val + 1)).phase[i])) (harmonicAmp c r x m i)) ∧
      (harmonicSum c r x m (i.val + 1)).total = fAdd (harmonicSum c r x m i.val).total (harmonicAmp c r x m i) := by
  obtain ⟨hout, htotal⟩ := (harmonicStep_sums c r x m i (harmonicSum c r x m i.val)).2 h
  rw [harmonicSum_phase_of_sounding h, harmonicSum_succ, hout, htotal, harmonicSum_phase_before c r x m i i.val le_rfl]
  exact ⟨rfl, rfl⟩

end

/-- The phase of a harmonic of the count after the whole loop is that after its own pass. -/
theorem casProcess_phase_of_lt (c : Params) (r : Regs) (x : CasState) (env : F32) (i : Fin 8)
    (h : i.val < numHarmonics r.spread) :
    (casProcess c r x env).1.phase[i] = (harmonicSum c r x (modOut c.modSource x.mod) (i.val + 1)).phase[i] :=
  harmonicSum_phase_after c r x _ i _ h

/-- Settles O60: the running sums are those of `harmonicSum`, and a harmonic's final phase is that of its own pass. -/
theorem cascadeSample : Obligations.CascadeSample := by
  intro s t hv _ h
  obtain ⟨hcas, hrsp⟩ := exec_process_cascade hv h
  have hphase := casProcess_phase_of_lt s.cfg s.reg s.cas t.env.level
  rw [← hcas] at hphase
  refine ⟨modOut s.cfg.modSource s.cas.mod,
    fun n => (harmonicSum s.cfg s.reg s.cas (modOut s.cfg.modSource s.cas.mod) n).out,
    fun n => (harmonicSum s.cfg s.reg s.cas (modOut s.cfg.modSource s.cas.mod) n).total, rfl, modOut_within _ _,
    fun hl => ?_, rfl, rfl, fun i => ⟨fun hi hskip => ?_, fun hi hsound => ?_, fun hi => ?_⟩, hrsp⟩
  · rw [hcas, (casProcess_frame _ _ _ _).2.2, hl]
    rfl
  · have hsum := harmonicSum_of_skipped hskip
    refine ⟨?_, congrArg HarmonicSum.out hsum, congrArg HarmonicSum.total hsum⟩
    rw [hphase i hi, hsum, harmonicSum_phase_before _ _ _ _ i i.val le_rfl]
  · obtain ⟨hout, htotal⟩ := harmonicSum_sums_of_sounding hsound
    rw [hphase i hi]
    exact ⟨harmonicSum_phase_of_sounding hsound, hout, htotal⟩
  · rw [hcas]
    exact casProcess_phase_beyond _ _ _ _ i hi

/-! ### The fundamental alone -/

section
variable {c : Params} (hd : c.isDefault) {r : Regs} (hchaos : r.chaos = lit0) {x : CasState} {m : F32}
  (hm : isFinite m = true)
include hd hchaos hm

/-- At chaos 0 the fundamental is at the frequency of the oscillator (42_cascade.md R209, R212). -/
theorem harmonicFreq_fundamental (hx : isFinite x.freq = true) : harmonicFreq c r x m 0 = x.freq := by
  have hone : f32i ((0 : Fin 8).val + 1) = lit1 := by decide +kernel
  rw [harmonicFreq, hchaos, vibMul_zero hd 0 hm, hone, fMul_one hx, fMul_one hx]

/-- At cascade 0 and chaos 0 the amplitude of the fundamental is 1.0 (42_cascade.md R209, R211, R212). -/
theorem harmonicAmp_fundamental (hcascade : r.cascade = lit0) (hh : x.henv = Vector.replicate 8 lit1) :
    harmonicAmp c r x m 0 = lit1 := by
  have hone : fMul (fMul lit1 lit1) lit1 = lit1 := by decide +kernel
  rw [harmonicAmp, hcascade, hchaos, baseAmp_zero 0, tremMul_zero hd 0 hm, hh, Fin.getElem_fin, Vector.getElem_replicate,
    hone]

end

/-- The phase of the fundamental after its advance is in [0, 1) (40_numerics.md R148). -/
theorem fundamental_phase_within {c : Params} (hd : c.isDefault) {f p : F32} (hf : within c.fMin c.fMax f = true)
    (hp : withinBelow lit0 lit1 p = true) : withinBelow lit0 lit1 (wrap01 (fAdd p (fDiv f c.sampleRate))) = true := by
  have hrate : c.sampleRate = Params.default.sampleRate := by rw [isDefault_eq hd]
  obtain ⟨hle, h0⟩ := playable_freq_bounds hd hf
  obtain ⟨hinc, hinc0⟩ := fDiv_sampleRate (by decide) hle h0
  rw [hrate]
  exact wrap01_advance (by decide) hp hinc hinc0

/-- The sine at a phase in [0, 1) is finite. -/
theorem isFinite_sinF_phase {p : F32} (i : FnInstance) (hp : withinBelow lit0 lit1 p = true) :
    isFinite (sinF i (fMul litTwoPi p)) = true := by
  have harg : MagLe (7 * 1) (fMul litTwoPi p) :=
    magLe_fMul ⟨by decide, by decide⟩ (magLe_of_unit (within_of_withinBelow hp)) (by decide) (by decide) (by decide)
  exact (magLe_sinF i harg.1).1

/-- The sample from the sums of the harmonic loop (42_cascade.md R209, 40_numerics.md R162). -/
theorem casProcess_sample (c : Params) (r : Regs) (x : CasState) (env : F32) :
    (casProcess c r x env).2 = tanhF c.fns (fMul (foldStage c
      (normalise (harmonicSum c r x (modOut c.modSource x.mod) (numHarmonics r.spread)).out
        (harmonicSum c r x (modOut c.modSource x.mod) (numHarmonics r.spread)).total) r.wavefold) env) := rfl

/-- A total of exactly 1.0 is no cause to divide. -/
theorem normalise_one (out : F32) : normalise out lit1 = out := if_neg (by decide)

/-- The sums of the fundamental alone, at cascade 0 and chaos 0: its sine at the advanced phase, and 1.0. -/
theorem harmonicSum_fundamental {c : Params} (hd : c.isDefault) {r : Regs} (hcascade : r.cascade = lit0)
    (hchaos : r.chaos = lit0) {x : CasState} (hx : within c.fMin c.fMax x.freq = true)
    (hh : x.henv = Vector.replicate 8 lit1) (hp : withinBelow lit0 lit1 x.phase[0] = true) {m : F32}
    (hm : within litNeg1 lit1 m = true) :
    (harmonicSum c r x m 1).out =
        fAdd lit0 (sinF c.fns (fMul litTwoPi (wrap01 (fAdd x.phase[0] (fDiv x.freq c.sampleRate))))) ∧
      (harmonicSum c r x m 1).total = lit1 := by
  have hr : within lit0 lit1 r.chaos = true := hchaos ▸ lit0_within_unit
  have hsound := fundamental_sounds hd hr hx hm
  have hfreq := harmonicFreq_fundamental hd hchaos (finite_of_sym hm) (playable_freq_bounds hd hx).1.1
  have hamp := harmonicAmp_fundamental hd hchaos (finite_of_sym hm) hcascade hh
  have hsin := isFinite_sinF_phase c.fns (fundamental_phase_within hd hx hp)
  have hphase := harmonicSum_phase_of_sounding hsound
  obtain ⟨hout, htotal⟩ := harmonicSum_sums_of_sounding hsound
  rw [hphase, hfreq, hamp] at hout
  rw [hamp] at htotal
  have hzero : fAdd lit0 lit1 = lit1 := by decide +kernel
  exact ⟨hout.trans (congrArg (fAdd lit0) (fMul_one hsin)), htotal.trans hzero⟩

/-- Settles O50: one harmonic sounds, at the oscillator's frequency and amplitude 1.0, so neither the division nor the fold
acts. -/
theorem fundamentalOnly : Obligations.FundamentalOnly := by
  intro c r x env hd hspread hcascade hchaos hfold hx hh hp
  have hm := modOut_within c.modSource x.mod
  obtain ⟨hout, htotal⟩ := harmonicSum_fundamental hd hcascade hchaos hx hh hp hm
  have hcount : numHarmonics r.spread = 1 := by rw [hspread]; decide +kernel
  rw [casProcess_sample, hcount, hout, htotal, normalise_one, hfold, foldStage_of_le c _ (by decide)]

end Sys2Proof.Proofs
end

section
/-!
PROOFS. The FM oscillator (43_fm.md R240 to R244, R248): its four setters, the maps of its controls with those of the
resonator (44_resonator.md R284), and its PROCESS.
-/

namespace Sys2Proof.Proofs

open Sys2Proof.Machine Sys2Proof.Laws

/-! ### One PROCESS of the FM voice -/

/-- PROCESS on the FM voice is one step of the oscillator at the new envelope level, and answers its guarded sample
(45_engine.md R315). -/
theorem exec_process_fm {s t : State} (hv : s.eng.voice = .fm) (h : exec .process s = .next t) :
    t.fm = (fmProcess s.cfg s.reg s.fm t.env.level).1 ∧
      t.port.rspData = guardSample s.cfg (fmProcess s.cfg s.reg s.fm t.env.level).2 := by
  rw [exec_process_env h]
  obtain rfl := answer_next_iff.1 h
  obtain ⟨-, -, -, -, -, -, -, hvoice⟩ := synthesise_cases s _ _ rfl
  simp only [hv, reduceCtorEq, false_and, false_or, or_false, true_and] at hvoice
  obtain ⟨hfm, hraw, -⟩ := hvoice
  exact ⟨hfm, congrArg (guardSample s.cfg) hraw⟩

/-- Settles O52: the oscillator after PROCESS is that of `fmProcess`, whose fields and sample are the rule's formulas. -/
theorem fmSample : Obligations.FmSample := by
  intro s t hv h
  obtain ⟨hfm, hrsp⟩ := exec_process_fm hv h
  rw [hfm]
  exact ⟨rfl, rfl, rfl, rfl, hrsp⟩

/-! ### The maps of the controls -/

/-- The FM feedback gain is in [0, 0.9] (R244). -/
theorem feedbackOf_within {x : F32} (hx : within lit0 lit1 x = true) : within lit0 lit0_9 (feedbackOf x) = true :=
  within_fMul_nonneg hx (c := lit0_9) (d := lit0_9) (by decide) (by decide) (by decide) (by decide) (by decide) (by decide)
    (by decide) (by decide) (by decide) (by decide +kernel) (by decide +kernel)

theorem ratioOf_values : ratioOf lit0 = lit0_25 ∧ ratioOf lit0_5 = 0x40480000 ∧ ratioOf lit1 = 0x40C00000 := by
  decide +kernel

/-- The index at the ends is that of every instance of powF; between them it is that of the reference. -/
theorem indexOf_values : indexOf Params.default lit0 = lit0_15 ∧ indexOf Params.default lit0_5 = 0x3F8C378C ∧
    indexOf Params.default lit1 = 0x41000000 := by
  have hratio : isFinite litIdxRatio = true := by decide
  have hpos : fGt litIdxRatio lit0 = true := by decide
  have htop : fMul lit0_15 litIdxRatio = 0x41000000 := by decide +kernel
  exact ⟨expMap_zero _ hratio hpos (by decide), by decide +kernel, (expMap_one _ hratio hpos).trans htop⟩

theorem feedbackOf_values :
    feedbackOf lit0 = lit0 ∧ feedbackOf lit0_5 = 0x3EE66666 ∧ feedbackOf lit1 = lit0_9 := by
  decide +kernel

theorem combGain_values :
    combGain lit0 = lit0_5 ∧ combGain lit0_5 = 0x3F35C28F ∧ combGain lit1 = 0x3F6B851E := by
  decide +kernel

theorem dampCoef_values : dampCoef Params.default lit0 = lit0 ∧ dampCoef Params.default lit0_5 = 0x3EF33333 ∧
    dampCoef Params.default lit1 = 0x3F733333 := by
  decide +kernel

/-- Settles O51: the range of each map, and its three values. -/
theorem parameterMaps : Obligations.ParameterMaps := by
  obtain ⟨r0, rh, r1⟩ := ratioOf_values
  obtain ⟨i0, ih, i1⟩ := indexOf_values
  obtain ⟨f0, fh, f1⟩ := feedbackOf_values
  obtain ⟨g0, gh, g1⟩ := combGain_values
  exact ⟨fun c _ hx => ⟨ratioOf_within hx, indexOf_within c hx, feedbackOf_within hx, combGain_within hx,
      fun hd => dampCoef_within hd hx⟩,
    r0, rh, r1, i0, ih, i1, f0, fh, f1, g0, gh, g1, dampCoef_values⟩

/-! ### The setters -/

/-- Settles O26: each setter is the write of its control register, with the clamped operand. -/
theorem fmSetters : Obligations.FmSetters := by
  intro x s
  have hw : ∀ id, 0x03 ≤ id → OnlyRegistersChange s (respond 0 (writeControl id x s)) := fun _ h =>
    writeControl_onlyRegistersChange h x s
  exact ⟨clamp01 x, clampF_clampedTo (by decide) x,
    ⟨respond 0 (writeControl 0x07 x s), rfl, rfl, hw 0x07 (by decide), rfl, rfl⟩,
    ⟨respond 0 (writeControl 0x08 x s), rfl, rfl, hw 0x08 (by decide), rfl, rfl⟩,
    ⟨respond 0 (writeControl 0x09 x s), rfl, rfl, hw 0x09 (by decide), rfl, rfl⟩,
    ⟨respond 0 (writeControl 0x0A x s), rfl, rfl, hw 0x0A (by decide), rfl, rfl⟩⟩

end Sys2Proof.Proofs
end

section
/-!
PROOFS. The resonator (44_resonator.md R270 to R284): its four setters, the lengths a retune gives, and its PROCESS, cell
by cell.
-/

namespace Sys2Proof.Proofs

open Sys2Proof.Machine Sys2Proof.Laws

/-! ### The setters -/

/-- Settles O27: each setter is the write of its control register, with the clamped operand. -/
theorem resonatorSetters : Obligations.ResonatorSetters := by
  intro x s
  have hw : ∀ id, 0x03 ≤ id → OnlyRegistersChange s (respond 0 (writeControl id x s)) := fun _ h =>
    writeControl_onlyRegistersChange h x s
  exact ⟨clamp01 x, clampF_clampedTo (by decide) x,
    ⟨respond 0 (writeControl 0x0B x s), rfl, rfl, hw 0x0B (by decide), rfl, rfl⟩,
    ⟨respond 0 (writeControl 0x0C x s), rfl, rfl, hw 0x0C (by decide), rfl, rfl⟩,
    ⟨respond 0 (writeControl 0x0D x s), rfl, rfl, hw 0x0D (by decide), rfl, rfl⟩,
    ⟨respond 0 (writeControl 0x0E x s), rfl, rfl, hw 0x0E (by decide), rfl, rfl⟩⟩

/-! ### The lengths -/

/-- The clamps of R274 are not negative, so reading them as natural numbers loses nothing. -/
theorem clampI_toNat_cast {n : Int} {lo hi : Nat} (h : lo < hi) :
    ((clampI n lo (hi - 1)).toNat : Int) = clampI n lo (hi - 1) := by
  obtain ⟨hlo, -⟩ := clampI_bounds (n := n) (lo := lo) (hi := hi - 1) (by omega)
  exact Int.toNat_of_nonneg (by omega)

/-- The six lengths of a retune, by the ratios of R274. -/
theorem retune_lengths (c : Params) (f : F32) (x : ResState) :
    (retune c f x).combLen[0] = combLenOf c (baseDelayOf c f) lit1 ∧
      (retune c f x).combLen[1] = combLenOf c (baseDelayOf c f) lit1_333 ∧
      (retune c f x).combLen[2] = combLenOf c (baseDelayOf c f) lit1_5 ∧
      (retune c f x).combLen[3] = combLenOf c (baseDelayOf c f) lit2 ∧
      (retune c f x).apLen[0] = apLenOf c (baseDelayOf c f) lit0_5 ∧
      (retune c f x).apLen[1] = apLenOf c (baseDelayOf c f) lit0_75 := by
  simp [retune, combLens, apLens]

section
variable {c : Params} (hl : c.legal = true)
include hl

/-- The constraints of 00_scope.md R13 on the two capacities leave room for the minimum lengths. -/
theorem capacities_of_legal : Config.combMin < c.combCap ∧ Config.apMin < c.apCap := by
  obtain ⟨-, -, -, -, hcomb, hap, -⟩ := legal_facts hl
  unfold Config.combMin Config.apMin
  omega

theorem baseDelayOf_cast (f : F32) :
    (baseDelayOf c f : Int) = clampI (roundI (fDiv c.sampleRate f)) 1 (c.combCap - 1) :=
  clampI_toNat_cast (lo := 1) ((by decide : 1 < Config.combMin).trans (capacities_of_legal hl).1)

/-- A comb length as the formula of R274, over the base delay as an int. -/
theorem combLenOf_cast {bd : Nat} {n : Int} (hn : (bd : Int) = n) (ratio : F32) :
    (combLenOf c bd ratio : Int) = clampI (floorI (fMul (f32i n) ratio)) 8 (c.combCap - 1) :=
  hn ▸ clampI_toNat_cast (capacities_of_legal hl).1

/-- An allpass length as the formula of R274, over the base delay as an int. -/
theorem apLenOf_cast {bd : Nat} {n : Int} (hn : (bd : Int) = n) (ratio : F32) :
    (apLenOf c bd ratio : Int) = clampI (floorI (fMul (f32i n) ratio)) 4 (c.apCap - 1) :=
  hn ▸ clampI_toNat_cast (capacities_of_legal hl).2

theorem lengthsInRange_retune (f : F32) (x : ResState) : LengthsInRange c (retune c f x) :=
  ⟨combLens_bounds hl _, apLens_bounds hl _⟩

theorem baseDelay_retune (f : F32) (x : ResState) :
    1 ≤ (retune c f x).baseDelay ∧ (retune c f x).baseDelay < c.combCap :=
  baseDelayOf_bounds c f ((by decide : 1 < Config.combMin).trans (capacities_of_legal hl).1)

end

/-- The step of a line of positive length leaves its index below its length. -/
theorem combStep_combW_lt (c : Params) (exc a g : F32) {x : ResState} {k : Fin 4} (h : 0 < x.combLen[k]) :
    (combStep c exc a g x k).combW[k] < x.combLen[k] := by
  rw [combStep_combW, if_pos rfl]
  exact Nat.mod_lt _ h

theorem apStep_apW_lt (v : F32) {x : ResState} {j : Fin 2} (h : 0 < x.apLen[j]) :
    (apStep v x j).apW[j] < x.apLen[j] := by
  rw [apStep_apW, if_pos rfl]
  exact Nat.mod_lt _ h

/-- Settles O54: the formulas by the casts, the ranges by the clamps, and the indices as remainders by positive lengths. -/
theorem lengthLaw : Obligations.LengthLaw := by
  intro c f x hl
  have hbd := baseDelayOf_cast hl f
  have hrange := lengthsInRange_retune hl f x
  obtain ⟨hd₁, hd₂⟩ := baseDelay_retune hl f x
  refine ⟨?_, hrange, indices_zero hrange rfl rfl, hd₁, hd₂, fun hx exc a g v k j => ?_⟩
  · obtain ⟨h0, h1, h2, h3, h4, h5⟩ := retune_lengths c f x
    rw [h0, h1, h2, h3, h4, h5]
    exact ⟨hbd, combLenOf_cast hl hbd _, combLenOf_cast hl hbd _, combLenOf_cast hl hbd _, combLenOf_cast hl hbd _,
      apLenOf_cast hl hbd _, apLenOf_cast hl hbd _⟩
  · obtain ⟨hcomb, hap⟩ := length_pos hx
    exact ⟨combStep_combW_lt c exc a g (hcomb k), apStep_apW_lt v (hap j), combIdx_lt (hcomb k), apIdx_lt (hap j)⟩

/-! ### One PROCESS of the resonator voice -/

/-- PROCESS on the resonator voice is one step of the resonator at the new envelope level, and answers its guarded sample
(45_engine.md R315). -/
theorem exec_process_resonator {s t : State} (hv : s.eng.voice = .resonator) (h : exec .process s = .next t) :
    t.res = (resProcess s.cfg s.reg s.res t.env.level).1 ∧
      t.port.rspData = guardSample s.cfg (resProcess s.cfg s.reg s.res t.env.level).2 := by
  rw [exec_process_env h]
  obtain rfl := answer_next_iff.1 h
  obtain ⟨-, -, -, -, -, -, -, hvoice⟩ := synthesise_cases s _ _ rfl
  simp only [hv, reduceCtorEq, false_and, false_or, true_and] at hvoice
  obtain ⟨hres, hraw, -⟩ := hvoice
  exact ⟨hres, congrArg (guardSample s.cfg) hraw⟩

/-- PROCESS on another voice leaves the resonator alone (70_reset_and_hazards.md R406). -/
theorem exec_process_res_of_other {s t : State} (hv : s.eng.voice ≠ .resonator) (h : exec .process s = .next t) :
    t.res = s.res := by
  obtain rfl := answer_next_iff.1 h
  obtain ⟨-, -, -, -, -, -, -, -, -, hres⟩ := dispatchVoice_frame (envProcess s.env).level (s.putEnv (envProcess s.env)) _ rfl
  exact hres hv

/-! ### The excitation -/

/-- A spent impulse is not armed. -/
theorem armed_of_impulse_zero {x : ResState} (h : x.impulse = lit0) : armed x = false := by
  rw [armed, h]
  decide

/-- The first excitation after a trigger at full height: 1.0 + 0.5 under the default parameters. -/
theorem excitation_resTrigger {c : Params} (hd : c.isDefault) (x : ResState) :
    excitation (resTrigger c lit1 x) = 0x3FC00000 := by
  have himp : c.impulseAmp = lit1 := by rw [isDefault_eq hd]; rfl
  have hburst : c.burstInit = lit0_5 := by rw [isDefault_eq hd]; rfl
  have hsum : fAdd (fMul lit1 lit1) (fMul lit0_5 lit1) = 0x3FC00000 := by decide +kernel
  rw [excitation, resTrigger, himp, hburst]
  exact hsum

theorem burst_fixed_point : fMul 0x000000FA Params.default.excDecay = 0x000000FA := by decide +kernel

/-- The decay is monotone and keeps +Inf, so a burst from the fixed point on stays there. -/
theorem burst_above_fixed_point {b : F32} (h : fLe 0x000000FA b = true) :
    fLe 0x000000FA (fMul b Params.default.excDecay) = true := by
  obtain ⟨-, hnan, hle⟩ := fLe_iff.1 h
  have hpos : 0 < units (0x000000FA : F32) := by decide
  rcases Nat.lt_or_eq_of_le (isNaN_false_iff.1 hnan) with hm | hm
  · have hf := isFinite_iff.2 hm
    have hmono := fMul_mono (x := 0x000000FA) (y := Params.default.excDecay) (y' := Params.default.excDecay) (by decide)
      (by decide) hf (by decide) (by decide) (by omega) hle le_rfl
    rw [burst_fixed_point] at hmono
    exact fLe_iff.2 ⟨by decide, isNaN_fMul hf (by decide), hmono⟩
  · have hs : signBit b = false := by
      by_contra hs
      have hneg := units_of_neg (eq_true_of_ne_false hs)
      omega
    have hinf : b = pack false infMag := eq_of_bits hs hm
    rw [hinf]
    decide +kernel

/-- Settles O56: what `resProcess` leaves of the excitation, and the arithmetic of the burst. -/
theorem resonatorExcitation : Obligations.Excitation := by
  refine ⟨fun s t hv h => ?_, fun c x hd => excitation_resTrigger hd x, burst_fixed_point, fun b => burst_above_fixed_point⟩
  obtain ⟨hres, -⟩ := exec_process_resonator hv h
  obtain ⟨hfreq, hbase, hdelay, hcomb, hap, himp, hburst⟩ := resProcess_frame s.cfg s.reg s.res t.env.level t.res hres.symm
  exact ⟨himp, armed_of_impulse_zero himp, hburst, hfreq, hbase, hdelay, hcomb, hap⟩

/-! ### The cells of one sample -/

/-- The average of the four comb lines of one RES.process (44_resonator.md R282). -/
def resAverage (c : Params) (r : Regs) (x : ResState) : F32 := fMul (bankOf c r x).2 lit0_25

/-- RES.process as the allpass chain on the comb average, and their blend (44_resonator.md R282). -/
theorem resProcess_eq (c : Params) (r : Regs) (x : ResState) (env : F32) :
    resProcess c r x env = ((apChain (resAverage c r x) (bankOf c r x).1).1,
      softclip c (resBlend r (resAverage c r x) (apChain (resAverage c r x) (bankOf c r x).1).2 env)) := rfl

section
variable (c : Params) (r : Regs) {x : ResState} (env : F32) (hw : ∀ m : Fin 6, Memory.wf x.lines[m] = true)
include hw

/-- The excitation step reads and writes no line, so the comb lines work on the state before the sample. -/
theorem afterCombs_bankOf :
    AfterCombs c (excitation x) (dampCoef c r.resDamp) (combGain r.resFeedback) x (bankOf c r x).1 4 := by
  obtain ⟨h, -⟩ := afterCombs_bank c (excitation x) (dampCoef c r.resDamp) (combGain r.resFeedback)
    (x := exciteStep c x) hw
  exact ⟨h.wf, h.combLen, h.apLen, h.apW, h.later, h.done, h.kept⟩

theorem bankOf_sum {y : Fin 4 → F32}
    (hy : ∀ k, y k = combOut c (excitation x) (dampCoef c r.resDamp) (combGain r.resFeedback) x k) :
    (bankOf c r x).2 = fAdd (fAdd (fAdd (fAdd lit0 (y 0)) (y 1)) (y 2)) (y 3) := by
  obtain ⟨-, h⟩ := afterCombs_bank c (excitation x) (dampCoef c r.resDamp) (combGain r.resFeedback)
    (x := exciteStep c x) hw
  rw [hy, hy, hy, hy]
  exact h

theorem apIdx_bankOf (j : Fin 2) : apIdx (bankOf c r x).1 j = apIdx x j := by
  have h := afterCombs_bankOf c r hw
  simp only [apIdx, h.apW, h.apLen]

/-- The comb lines leave the cells of the allpasses alone. -/
theorem delayRead_bankOf_apLine (j : Fin 2) (i : Nat) :
    delayRead (bankOf c r x).1 (apLine j) i = delayRead x (apLine j) i :=
  (afterCombs_bankOf c r hw).kept _ _ fun ⟨k, _, hl, _⟩ => combLine_ne_apLine k j hl.symm

/-- Every cell after one sample: the two cells of the allpasses, and those of the comb lines (44_resonator.md R280, R281). -/
theorem resProcess_cells (l : Fin 6) (i : Nat) :
    delayRead (resProcess c r x env).1 l i =
      if l = apLine 0 ∧ i = apIdx x 0 then
        fAdd (resAverage c r x) (fMul lit0_5 (delayRead x (apLine 0) (apIdx x 0)))
      else if l = apLine 1 ∧ i = apIdx x 1 then
        fAdd (fAdd (fMul litNeg0_5 (resAverage c r x)) (delayRead x (apLine 0) (apIdx x 0)))
          (fMul lit0_5 (delayRead x (apLine 1) (apIdx x 1)))
      else delayRead (bankOf c r x).1 l i := by
  obtain ⟨hcells, -, -⟩ := apChain_cells (resAverage c r x) (afterCombs_bankOf c r hw).wf
  rw [resProcess_eq, hcells, apStored, apOut]
  simp only [apIdx_bankOf c r hw, delayRead_bankOf_apLine c r hw]

/-- The cell each comb line stores to holds what the line gives out (44_resonator.md R280). -/
theorem resProcess_combCell (k : Fin 4) :
    delayRead (resProcess c r x env).1 (combLine k) (combIdx x k) =
      combOut c (excitation x) (dampCoef c r.resDamp) (combGain r.resFeedback) x k := by
  obtain ⟨-, -, hout⟩ := (afterCombs_bankOf c r hw).done k k.isLt
  rw [resProcess_cells c r env hw, if_neg fun h => combLine_ne_apLine k 0 h.1, if_neg fun h => combLine_ne_apLine k 1 h.1,
    hout]

/-- The cells the two allpasses store to (44_resonator.md R281). -/
theorem resProcess_apCells :
    delayRead (resProcess c r x env).1 (apLine 0) (apIdx x 0) =
        fAdd (resAverage c r x) (fMul lit0_5 (delayRead x (apLine 0) (apIdx x 0))) ∧
      delayRead (resProcess c r x env).1 (apLine 1) (apIdx x 1) =
        fAdd (fAdd (fMul litNeg0_5 (resAverage c r x)) (delayRead x (apLine 0) (apIdx x 0)))
          (fMul lit0_5 (delayRead x (apLine 1) (apIdx x 1))) := by
  have hne : apLine 1 ≠ apLine 0 := by decide
  rw [resProcess_cells c r env hw, resProcess_cells c r env hw, if_pos ⟨rfl, rfl⟩, if_neg fun h => hne h.1,
    if_pos ⟨rfl, rfl⟩]
  exact ⟨rfl, rfl⟩

/-- Every cell but the six keeps its value. -/
theorem resProcess_kept {l : Fin 6} {i : Nat} (h : ¬StoredBy x l i) :
    delayRead (resProcess c r x env).1 l i = delayRead x l i := by
  rw [resProcess_cells c r env hw, if_neg fun h₀ => h (.inr ⟨0, h₀⟩), if_neg fun h₁ => h (.inr ⟨1, h₁⟩)]
  exact (afterCombs_bankOf c r hw).kept l i fun ⟨k, _, hk⟩ => h (.inl ⟨k, hk⟩)

/-- The index and the filter state of each comb line (44_resonator.md R280). -/
theorem resProcess_comb (k : Fin 4) :
    (resProcess c r x env).1.combW[k] = (combIdx x k + 1) % x.combLen[k] ∧
      (resProcess c r x env).1.lp[k] = combLp (dampCoef c r.resDamp) x k := by
  obtain ⟨hw', hlp, -⟩ := (afterCombs_bankOf c r hw).done k k.isLt
  rw [resProcess_eq]
  simp only [apChain, apStep_combW, apStep_lp]
  exact ⟨hw', hlp⟩

theorem resProcess_apW (j : Fin 2) : (resProcess c r x env).1.apW[j] = (apIdx x j + 1) % x.apLen[j] := by
  have h := afterCombs_bankOf c r hw
  obtain ⟨-, -, hapW⟩ := apChain_cells (resAverage c r x) h.wf
  rw [resProcess_eq]
  simp only [hapW, apIdx_bankOf c r hw, h.apLen]

/-- The sample from the average and the cells before it (44_resonator.md R282). -/
theorem resProcess_sample :
    (resProcess c r x env).2 = softclip c (resBlend r (resAverage c r x)
      (fAdd (fMul litNeg0_5 (fAdd (fMul litNeg0_5 (resAverage c r x)) (delayRead x (apLine 0) (apIdx x 0))))
        (delayRead x (apLine 1) (apIdx x 1))) env) := by
  obtain ⟨-, hout, -⟩ := apChain_cells (resAverage c r x) (afterCombs_bankOf c r hw).wf
  rw [resProcess_eq, hout, apOut]
  simp only [apIdx_bankOf c r hw, delayRead_bankOf_apLine c r hw]

end

/-- The resonator voice after reset, and its PROCESS: the hypotheses of O55 are met together on that voice. -/
theorem exists_inv_resonator_process :
    ∃ s t : State, s.Inv ∧ s.eng.voice = .resonator ∧ exec .process s = .next t :=
  ⟨switchVoice .resonator State.reset, _, inv_switchVoice (inv_resetWith default_legal _) .resonator, rfl, rfl⟩

/-- Settles O55: another voice leaves the resonator alone; on its own voice the cells, the lines and the sample are those
of `resProcess`, and the outputs of the comb lines are the cells they store to. -/
theorem resonatorSample : Obligations.ResonatorSample := by
  intro s t hi h
  by_cases hv : s.eng.voice = .resonator
  · have hw := hi.res.canonical
    obtain ⟨hres, hrsp⟩ := exec_process_resonator hv h
    rw [hrsp, hres]
    refine ⟨fun hne => absurd hv hne, fun _ _ => resProcess_kept s.cfg s.reg t.env.level hw, fun _ => ?_⟩
    intro a g exc y d avg o x
    have hy : ∀ k, y k = combOut s.cfg exc a g s.res k := resProcess_combCell s.cfg s.reg t.env.level hw
    have havg : resAverage s.cfg s.reg s.res = avg := congrArg (fMul · lit0_25) (bankOf_sum s.cfg s.reg hw hy)
    obtain ⟨hap0, hap1⟩ := resProcess_apCells s.cfg s.reg t.env.level hw
    have hsample := resProcess_sample s.cfg s.reg t.env.level hw
    rw [havg] at hap0 hap1 hsample
    refine ⟨fun k => ?_, hap0, hap1, fun j => ?_, congrArg (guardSample s.cfg) hsample⟩
    · obtain ⟨hcombW, hlp⟩ := resProcess_comb s.cfg s.reg t.env.level hw k
      rw [hlp, hcombW, hy]
      exact ⟨rfl, rfl, Nat.mod_add_mod _ _ _⟩
    · exact (resProcess_apW s.cfg s.reg t.env.level hw j).trans (Nat.mod_add_mod _ _ _)
  · rw [exec_process_res_of_other hv h]
    exact ⟨fun _ _ _ => rfl, fun _ _ _ => rfl, fun hres => absurd hres hv⟩

end Sys2Proof.Proofs
end

section
/-!
PROOFS. The engine's reads (45_engine.md R316 to R324): the status and diagnostic reads, and READ_REG.
-/

namespace Sys2Proof.Proofs

open Sys2Proof.Machine Sys2Proof.Laws

/-! ### The status and diagnostic reads -/

theorem respond_onlyResponseChanges (w : Word) (s : State) : OnlyResponseChanges s (respond w s) :=
  ⟨rfl, rfl, rfl, rfl, rfl, rfl, rfl, ⟨rfl, rfl, rfl⟩, fun _ _ => rfl⟩

/-- A command that answers a word of its own state is a read. -/
theorem read_of_exec {i : Instr} {w : Word} {s : State} (h : exec i s = answer w s) :
    ∃ t, exec i s = .next t ∧ Responds w t ∧ OnlyResponseChanges s t :=
  ⟨respond w s, h, ⟨rfl, rfl⟩, respond_onlyResponseChanges w s⟩

theorem boolWord_envIsActive (e : EnvState) : boolWord (envIsActive e) = if e.stage = .idle then 0 else 1 := by
  unfold envIsActive
  cases e.stage <;> rfl

section
variable (r : ResState)

theorem lineLen_comb (k : Fin 4) : lineLen r k.val = r.combLen[k] := dif_pos (Nat.le_of_lt_succ k.isLt)

theorem lineLen_ap (j : Fin 2) : lineLen r (4 + j.val) = r.apLen[j] := by
  have hcomb : ¬ 4 + j.val ≤ 3 := by omega
  have hap : 4 + j.val ≤ 5 := by omega
  simp only [lineLen, hcomb, hap, dif_neg, dif_pos, not_false_eq_true, Nat.add_sub_cancel_left, Fin.getElem_fin]

theorem lineLen_beyond {n : Nat} (h : 6 ≤ n) : lineLen r n = 0 := by
  rw [lineLen, dif_neg (by omega), dif_neg (by omega)]

end

/-- Settles O31: each read answers a word of the state it was given, and a selector names one line or none. -/
theorem readsAndNop : Obligations.ReadsAndNop := by
  intro s
  refine ⟨read_of_exec rfl, read_of_exec rfl, read_of_exec (congrArg (answer · s) (boolWord_envIsActive s.env)),
    read_of_exec rfl, read_of_exec rfl, read_of_exec rfl, read_of_exec rfl, fun sel => ?_⟩
  refine ⟨_, BitVec.ofNat 32 (lineLen s.res sel.toNat), rfl, ⟨rfl, rfl⟩, respond_onlyResponseChanges _ s,
    fun k hk => ?_, fun j hj => ?_, fun h => ?_⟩
  · rw [hk, lineLen_comb]
  · rw [hj, lineLen_ap]
  · rw [lineLen_beyond s.res h]
    rfl

/-! ### READ_REG -/

theorem regOfId_eq_none (r : Regs) {n : Nat} (h : n = 0x00 ∨ 0x0E < n) : regOfId r n = none := by
  unfold regOfId
  split
  case h_15 => rfl
  all_goals omega

theorem regWord_of_no_register (s : State) {n : Nat} (h : n = 0x00 ∨ n = 0x0F ∨ 0x12 < n) : regWord s n = 0 := by
  rw [regWord, regOfId_eq_none s.reg (by omega)]
  simp only
  rw [if_neg (by omega), if_neg (by omega), if_neg (by omega)]

theorem clampF_of_isNaN {x : F32} (h : isNaN x = true) (lo hi : F32) : clampF x lo hi = lo := if_pos h

/-- Settles O29: the word of each id, and a NaN written reads back as the lower bound of its clamp. -/
theorem readRegister : Obligations.ReadRegister := by
  intro id s
  refine ⟨_, regWord s id.toNat, rfl, respond_onlyResponseChanges _ s, ⟨rfl, rfl⟩, ?_⟩
  iterate 17 refine ⟨by rintro rfl; rfl, ?_⟩
  refine ⟨fun h => regWord_of_no_register s ?unnamed, fun f u hu hf => ?freq,
    fun op x i u h₁ h₂ hi hu hx => ?control⟩
  case unnamed => exact h.imp (congrArg BitVec.toNat) (.imp_left (congrArg BitVec.toNat))
  case freq =>
    obtain rfl := answer_next_iff.1 hu
    exact ⟨_, rfl, clampF_of_isNaN hf _ _⟩
  case control =>
    obtain ⟨t, v, ht, hv, hnan, -⟩ := writtenRegisterReadsBackClamped op x i s h₁ h₂ hi
    obtain rfl : t = u := Host.Outcome.next.inj (ht.symm.trans hu)
    exact ⟨v, hv, hnan hx⟩

end Sys2Proof.Proofs
end

section
/-!
PROOFS. The engine's control commands (45_engine.md R310 to R314, R326, R328): frequency, voice, gate and notes.
-/

namespace Sys2Proof.Proofs

open Sys2Proof.Machine Sys2Proof.Laws

/-! ### SET_FREQUENCY -/

section
variable {c : Params} (hl : c.legal = true) (f : F32)
include hl

/-- The engine has clamped the frequency, so the oscillators take it as it is (42_cascade.md R204, 43_fm.md R245). -/
theorem casSetFrequency_clampFreq (x : CasState) :
    casSetFrequency c (clampFreq c f) x = { x with freq := clampFreq c f } := by
  rw [casSetFrequency, clampFreq_clampFreq hl]

theorem fmSetFrequency_clampFreq (x : FmState) :
    fmSetFrequency c (clampFreq c f) x = { x with freq := clampFreq c f } := by
  rw [fmSetFrequency, clampFreq_clampFreq hl]

/-- Up to 2.0 from the tuned frequency the resonator keeps its tuning (44_resonator.md R276). -/
theorem resSetFrequency_of_near {x : ResState} (h : retuneNeeded (clampFreq c f) x.baseFreq = false) :
    resSetFrequency c (clampFreq c f) x = { x with freq := clampFreq c f } := by
  rw [resSetFrequency, clampFreq_clampFreq hl, if_neg (ne_true_of_eq_false h)]

/-- Beyond 2.0 from the tuned frequency the resonator retunes (44_resonator.md R275, R276). -/
theorem resSetFrequency_of_far {x : ResState} (h : retuneNeeded (clampFreq c f) x.baseFreq = true) :
    resSetFrequency c (clampFreq c f) x = retune c (clampFreq c f) { x with freq := clampFreq c f } := by
  rw [resSetFrequency, clampFreq_clampFreq hl, if_pos h]

end

/-- Settles O32: the engine's clamped frequency goes to each oscillator, and the resonator retunes or not. -/
theorem setFrequency : Obligations.SetFrequency := by
  intro f s hl
  refine ⟨respond 0 (applyFrequency f s), clampFreq s.cfg f, rfl, ⟨rfl, rfl⟩, clampF_clampedTo (fMin_le_fMax hl) f,
    rfl, casSetFrequency_clampFreq hl f s.cas, fmSetFrequency_clampFreq hl f s.fm, resSetFrequency_of_near hl f,
    resSetFrequency_of_far hl f, delayRead_resSetFrequency _ _ s.res, ?_⟩
  simp [SameSurroundings]

/-! ### SET_VOICE -/

theorem exec_setVoice_of_active {v : Word} {s : State} (h : voiceOf v = s.eng.voice) :
    exec (.setVoice v) s = answer 0 s := congrArg (answer 0) (if_pos h)

theorem exec_setVoice_of_other {v : Word} {s : State} (h : voiceOf v ≠ s.eng.voice) :
    exec (.setVoice v) s = answer 0 (switchVoice (voiceOf v) s) := congrArg (answer 0) (if_neg h)

/-- A value from 2 on selects the resonator (45_engine.md R311). -/
theorem voiceOf_of_two_le {v : Word} (h : 2 ≤ v.toNat) : voiceOf v = .resonator := by
  have h0 : v ≠ 0 := by rintro rfl; simp at h
  have h1 : v ≠ 1 := by rintro rfl; simp at h
  rw [voiceOf, if_neg h0, if_neg h1]

/-- After SET_VOICE its voice is active, so the same command again changes nothing (45_engine.md R328). -/
theorem exec_setVoice_again {v : Word} {s t : State} (h : exec (.setVoice v) s = .next t) :
    ∃ u, exec (.setVoice v) t = .next u ∧ SameBlock t u := by
  obtain ⟨t', ht', -, heng⟩ := exec_setVoice_engine v s
  obtain rfl : t = t' := Host.Outcome.next.inj (h.symm.trans ht')
  exact ⟨_, exec_setVoice_of_active (by rw [heng]), respond_sameBlock 0 t⟩

/-- Settles O33: the active voice is left as it is; a switch sets the voice, and touches the resonator only to arm
it. -/
theorem setVoice : Obligations.SetVoice := by
  intro v s
  have hv0 : v = 0 → voiceOf v = .cascade := by rintro rfl; rfl
  have hv1 : v = 1 → voiceOf v = .fm := by rintro rfl; rfl
  by_cases hv : voiceOf v = s.eng.voice
  · have hx := exec_setVoice_of_active hv
    exact ⟨respond 0 s, voiceOf v, hx, ⟨rfl, rfl⟩, hv0, hv1, voiceOf_of_two_le,
      fun _ => respond_onlyResponseChanges 0 s, by rw [hv]; rfl, exec_setVoice_again hx, fun hne => absurd hv hne,
      fun _ => rfl, rfl, rfl, rfl, rfl, rfl, fun _ _ => rfl, rfl, rfl, rfl⟩
  · have hx := exec_setVoice_of_other hv
    obtain ⟨hcfg, hreg, henv, hcas, hfm, hstatus, hport, hhost, heng, hres⟩ := switchVoice_frame (voiceOf v) s _ rfl
    refine ⟨respond 0 (switchVoice (voiceOf v) s), voiceOf v, hx, ⟨rfl, rfl⟩, hv0, hv1, voiceOf_of_two_le,
      fun h => absurd h hv, heng, exec_setVoice_again hx, fun _ hr hg => hres.trans (if_pos ⟨hr, hg⟩), fun h => ?kept,
      hreg, henv, hcas, hfm, hstatus, fun line idx => ?cells, hcfg, hhost, by rw [respond_inFlight, hport]⟩
    case kept =>
      refine hres.trans (if_neg fun hc => ?_)
      obtain ⟨hr, hg⟩ := hc
      exact h.elim (· hr) fun hoff => Bool.false_ne_true (hoff.symm.trans hg)
    case cells =>
      rw [respond_res, hres]
      split <;> rfl

/-! ### GATE and NOTE_OFF -/

theorem exec_gate_of_same {b : Bool} {s : State} (h : s.eng.gate = b) : exec (.gate b) s = answer 0 s := by
  subst h
  cases hg : s.eng.gate <;> simp [exec, execGate, hg]

theorem exec_gate_of_rising {s : State} (h : s.eng.gate = false) :
    exec (.gate true) s = answer 0 (setGate true (triggerAll s)) := congrArg (answer 0) (if_pos ⟨rfl, h⟩)

theorem exec_gate_of_falling {s : State} (h : s.eng.gate = true) :
    exec (.gate false) s = answer 0 (setGate false (s.putEnv (envRelease s.env))) := by
  simp [exec, execGate, h]

/-- The trigger zeroes every phase and sets every harmonic envelope to 1.0 (42_cascade.md R205). -/
theorem casTrigger_harmonics (x : CasState) (i : Fin 8) :
    (casTrigger x).phase[i] = lit0 ∧ (casTrigger x).henv[i] = lit1 := by simp

/-- Settles O34: no edge, a rising edge and a falling edge, by the operand and the gate. -/
theorem gateEdges : Obligations.GateEdges := by
  intro b s
  by_cases hs : s.eng.gate = b
  · refine ⟨_, exec_gate_of_same hs, ⟨rfl, rfl⟩, by rw [← hs]; rfl, fun _ => respond_onlyResponseChanges 0 s,
      fun hb hg => ?_, fun hb hg => ?_, rfl, rfl, fun _ _ => rfl, rfl, rfl, rfl⟩
    all_goals
      rw [hs, hb] at hg
      cases hg
  · cases b with
    | true =>
      have hg : s.eng.gate = false := eq_false_of_ne_true hs
      exact ⟨_, exec_gate_of_rising hg, ⟨rfl, rfl⟩, rfl, fun h => absurd h.symm hs,
        fun _ _ => ⟨rfl, rfl, casTrigger_harmonics s.cas, rfl, rfl, rfl⟩, nofun, rfl, rfl, fun _ _ => rfl, rfl, rfl,
        rfl⟩
    | false =>
      have hg : s.eng.gate = true := eq_true_of_ne_false hs
      exact ⟨_, exec_gate_of_falling hg, ⟨rfl, rfl⟩, rfl, fun h => absurd h.symm hs, nofun,
        fun _ _ => ⟨rfl, rfl, rfl, rfl⟩, rfl, rfl, fun _ _ => rfl, rfl, rfl, rfl⟩

/-- Settles O36: the released envelope and the cleared gate are all that NOTE_OFF writes. -/
theorem noteOff : Obligations.NoteOff := fun s =>
  ⟨respond 0 (setGate false (s.putEnv (envRelease s.env))), rfl, ⟨rfl, rfl⟩, rfl, rfl, rfl, rfl, rfl, rfl, rfl,
    fun _ _ => rfl, rfl, rfl, rfl⟩

/-! ### NOTE_ON -/

/-- The reset zeroes the write indices and the filter states (44_resonator.md R278). -/
theorem resReset_indices_and_filters (x : ResState) :
    (∀ k : Fin 4, (resReset x).combW[k] = 0 ∧ (resReset x).lp[k] = lit0) ∧
      ∀ j : Fin 2, (resReset x).apW[j] = 0 := by
  simp [resReset]

theorem resSetFrequency_clampFreq_freq {c : Params} (hl : c.legal = true) (f : F32) (x : ResState) :
    (resSetFrequency c (clampFreq c f) x).freq = clampFreq c f := by
  cases h : retuneNeeded (clampFreq c f) x.baseFreq with
  | true => rw [resSetFrequency_of_far hl f h]; rfl
  | false => rw [resSetFrequency_of_near hl f h]

/-- What NOTE_ON does to each part of the state (45_engine.md R313). -/
theorem exec_noteOn_parts {f : F32} {s t : State} (h : exec (.noteOn f) s = .next t) :
    t.env = envTrigger s.cfg s.env ∧
      t.cas = casTrigger (casReset s.cfg (casSetFrequency s.cfg (clampFreq s.cfg f) s.cas)) ∧
      t.fm = fmTrigger (fmReset (fmSetFrequency s.cfg (clampFreq s.cfg f) s.fm)) ∧
      t.res = resTrigger s.cfg s.reg.verbExcite (resReset (resSetFrequency s.cfg (clampFreq s.cfg f) s.res)) ∧
      t.eng = { s.eng with curFreq := clampFreq s.cfg f, gate := true } ∧ Responds 0 t ∧ t.reg = s.reg ∧
      t.status = s.status ∧ SameSurroundings s t := by
  obtain rfl := answer_next_iff.1 h
  refine ⟨rfl, rfl, rfl, rfl, rfl, ⟨rfl, rfl⟩, ?_⟩
  simp [SameSurroundings]

/-- Settles O35: the reset and the trigger keep the frequency and the lengths that `applyFrequency` leaves; what they
write is the same from every state. -/
theorem noteOn : Obligations.NoteOn := by
  intro f s hl
  obtain ⟨t, ht⟩ := exec_answers (.noteOn f) s
  obtain ⟨henv, hcas, hfm, hres, heng, hresp, hreg, hstatus, hsame⟩ := exec_noteOn_parts ht
  obtain ⟨hcomb, hap⟩ := resReset_indices_and_filters (resSetFrequency s.cfg (clampFreq s.cfg f) s.res)
  rw [casSetFrequency_clampFreq hl] at hcas
  rw [fmSetFrequency_clampFreq hl] at hfm
  refine ⟨t, clampFreq s.cfg f, ht, hresp, clampF_clampedTo (fMin_le_fMax hl) f, heng, ?_⟩
  rw [hcas, hfm, hres, henv]
  refine ⟨rfl, rfl, casTrigger_harmonics _, rfl, resSetFrequency_clampFreq_freq hl f s.res, rfl, rfl, fun h => ?far,
    fun h => ?near, hcomb, hap, fun line idx => ?cells, rfl, hreg, hstatus, hsame⟩
  case far =>
    have hfar := resSetFrequency_of_far hl f (x := s.res) h
    rw [hfar]
    exact ⟨rfl, rfl, rfl, rfl⟩
  case near =>
    have hnear := resSetFrequency_of_near hl f (x := s.res) h
    rw [hnear]
    exact ⟨rfl, rfl, rfl, rfl⟩
  case cells => rw [delayRead_resTrigger, delayRead_resReset]; rfl

end Sys2Proof.Proofs
end

section
/-!
PROOFS. PROCESS (45_engine.md R315, R327): the sample it computes and records, and the bounds of the sample.
-/

namespace Sys2Proof.Proofs

open Sys2Proof.Machine Sys2Proof.Laws

/-! ### The guard -/

/-- The safety bound of a legal configuration is positive. -/
theorem safetyBound_pos {c : Params} (hl : c.legal = true) : 0 < units c.safetyBound := by
  obtain ⟨-, -, -, -, -, -, -, -, -, -, -, -, -, -, hs⟩ := legal_facts hl
  obtain ⟨-, -, hlt⟩ := fGt_iff.1 hs
  have hone : (0 : Int) < units lit1 := by decide
  exact hone.trans hlt

/-- A product that is not finite gives 0.0, which the clamp keeps (60_exceptions.md R361). -/
theorem guardSample_of_not_finite {c : Params} (hl : c.legal = true) {raw : F32}
    (h : isFinite (fMul raw c.masterGain) = false) : guardSample c raw = lit0 := by
  have hpos := safetyBound_pos hl
  obtain ⟨hn, -⟩ := fLe_iff.1 (safety_range hl)
  have hz : units lit0 = 0 := by decide
  rw [guardSample, if_neg (ne_true_of_eq_false h), clampF_of_within]
  rw [within_iff, units_fNeg, hz]
  exact ⟨hn, by rwa [isNaN_fNeg] at hn, by decide, by omega, hpos.le⟩

theorem guardSample_of_finite {c : Params} {raw : F32} (h : isFinite (fMul raw c.masterGain) = true) :
    guardSample c raw = clampF (fMul raw c.masterGain) (fNeg c.safetyBound) c.safetyBound := by
  rw [guardSample, if_pos h]

/-! ### One sample -/

/-- Each voice runs its own oscillator at the new envelope level and keeps the other two (70_reset_and_hazards.md
R406). -/
theorem synthesise_voice (s : State) :
    (s.eng.voice = .cascade →
        ((synthesise s).1.cas, (synthesise s).2) = casProcess s.cfg s.reg s.cas (envProcess s.env).level ∧
        (synthesise s).1.fm = s.fm ∧ (synthesise s).1.res = s.res) ∧
      (s.eng.voice = .fm →
        ((synthesise s).1.fm, (synthesise s).2) = fmProcess s.cfg s.reg s.fm (envProcess s.env).level ∧
        (synthesise s).1.cas = s.cas ∧ (synthesise s).1.res = s.res) ∧
      (s.eng.voice = .resonator →
        ((synthesise s).1.res, (synthesise s).2) = resProcess s.cfg s.reg s.res (envProcess s.env).level ∧
        (synthesise s).1.cas = s.cas ∧ (synthesise s).1.fm = s.fm) := by
  obtain ⟨-, -, -, -, -, -, -, hvoice⟩ := synthesise_cases s (synthesise s).1 (synthesise s).2 rfl
  obtain ⟨hv, hpart, hraw, hkept⟩ | ⟨hv, hpart, hraw, hkept⟩ | ⟨hv, hpart, hraw, hkept⟩ := hvoice
  all_goals rw [hv]
  · exact ⟨fun _ => ⟨Prod.ext hpart hraw, hkept⟩, nofun, nofun⟩
  · exact ⟨nofun, fun _ => ⟨Prod.ext hpart hraw, hkept⟩, nofun⟩
  · exact ⟨nofun, nofun, fun _ => ⟨Prod.ext hpart hraw, hkept⟩⟩

theorem recordSample_eng (y : F32) (s : State) :
    (recordSample y s).eng = { s.eng with meter := nextMeter s.eng.meter y, lastSample := y } := rfl

/-- Settles O38: the envelope and the active oscillator give the raw sample, the guard its two cases, and what is
recorded is the meter, the sample and the ports. -/
theorem processOneSample : Obligations.ProcessOneSample := by
  intro s hl
  obtain ⟨hcfg, hreg, henv, heng, -, hport, hhost, -⟩ := synthesise_cases s (synthesise s).1 (synthesise s).2 rfl
  obtain ⟨hcascade, hfm, hresonator⟩ := synthesise_voice s
  have ht : exec .process s = .next (respond (guardSample s.cfg (synthesise s).2)
    (recordSample (guardSample s.cfg (synthesise s).2) (synthesise s).1)) := rfl
  refine ⟨_, (synthesise s).2, guardSample s.cfg (synthesise s).2, ht, ⟨rfl, rfl⟩, henv, ?_⟩
  rw [process_status ht, exec_process_env ht]
  refine ⟨hcascade, hfm, hresonator, guardSample_of_not_finite hl, fun h => ?finite, ?eng, ?status, ?kept⟩
  case finite =>
    rw [guardSample_of_finite h]
    exact clampF_clampedTo (safety_range hl) _
  case eng => rw [respond_eng, recordSample_eng, heng]; rfl
  case status => rw [respond_eng, recordSample_curFreq, heng]; rfl
  case kept => simp [SameSurroundings, hreg, hcfg, hhost, hport]

/-! ### The bounds of the sample -/

/-- A product is finite only if both factors are (40_numerics.md R141). -/
theorem isFinite_factors_of_fMul {x y : F32} (h : isFinite (fMul x y) = true) :
    isFinite x = true ∧ isFinite y = true := by
  have hn := isFinite_not_isNaN h
  have hi := isFinite_not_isInf h
  unfold fMul at hn hi
  split_ifs at hn hi with h₁ h₂ h₃
  · rw [isNaN_nanOf] at hn; cases hn
  · rw [isNaN_nanOf] at hn; cases hn
  · rw [isInf_pack] at hi; cases hi
  · simp only [Bool.or_eq_true, not_or, Bool.not_eq_true, isNaN, isInf, decide_eq_false_iff_not,
      beq_eq_false_iff_ne] at h₁ h₂
    exact ⟨isFinite_iff.2 (by omega), isFinite_iff.2 (by omega)⟩

/-- Every voice's raw sample is a soft clip (42_cascade.md R209, 43_fm.md R248, 44_resonator.md R282). -/
theorem synthesise_softclip (s : State) : ∃ x, (synthesise s).2 = softclip s.cfg x := by
  obtain ⟨-, -, -, -, -, -, -, hvoice⟩ := synthesise_cases s (synthesise s).1 (synthesise s).2 rfl
  obtain ⟨-, -, hraw, -⟩ | ⟨-, -, hraw, -⟩ | ⟨-, -, hraw, -⟩ := hvoice <;> exact ⟨_, hraw⟩

/-- A raw sample is in [-1, 1] if it is finite: the soft clip of a NaN is a NaN, and of anything else in [-1, 1]. -/
theorem synthesise_within {s : State} (h : isFinite (synthesise s).2 = true) :
    within litNeg1 lit1 (synthesise s).2 = true := by
  obtain ⟨x, hx⟩ := synthesise_softclip s
  rw [hx] at h ⊢
  cases hn : isNaN x with
  | false => exact softclip_within s.cfg hn
  | true =>
    have hnan : isNaN (softclip s.cfg x) = true := isNaN_tanhF s.cfg.fns hn
    rw [isFinite_not_isNaN h] at hnan
    cases hnan

/-- A clamp to a range around zero does not take a value out of another one. -/
theorem clampF_within_sym {x g b : F32} (hx : within (fNeg g) g x = true) (hb : isNaN b = false)
    (hpos : 0 ≤ units b) : within (fNeg g) g (clampF x (fNeg b) b) = true := by
  rw [within_iff, units_fNeg] at hx ⊢
  obtain ⟨hng, hg, hn, hlo, hhi⟩ := hx
  refine ⟨hng, hg, ?_⟩
  unfold clampF
  split_ifs with h₁ h₂ h₃
  · rw [hn] at h₁; cases h₁
  · obtain ⟨-, -, hlt⟩ := fLt_iff.1 h₂
    rw [units_fNeg] at hlt ⊢
    exact ⟨by rwa [isNaN_fNeg], by omega, by omega⟩
  · obtain ⟨-, -, hgt⟩ := fGt_iff.1 h₃
    exact ⟨hb, by omega, by omega⟩
  · exact ⟨hn, hlo, hhi⟩

/-- A raw sample that is in [-1, 1] if finite leaves the guard within the master gain, even an infinite one. -/
theorem guardSample_within_gain {c : Params} (hl : c.legal = true) {raw : F32}
    (h : isFinite raw = true → within litNeg1 lit1 raw = true) :
    within (fNeg c.masterGain) c.masterGain (guardSample c raw) = true := by
  obtain ⟨-, -, -, -, -, -, -, -, -, -, -, -, -, hgain, hbound⟩ := legal_facts hl
  obtain ⟨-, hn, hpos⟩ := fLt_iff.1 hgain
  obtain ⟨hnb, -, -⟩ := fGt_iff.1 hbound
  have hz : units lit0 = 0 := by decide
  have hself : within (fNeg c.masterGain) c.masterGain c.masterGain = true := by
    rw [within_iff, isNaN_fNeg, units_fNeg]
    exact ⟨hn, hn, hn, by omega, le_rfl⟩
  cases hf : isFinite (fMul raw c.masterGain) with
  | false =>
    rw [guardSample_of_not_finite hl hf, within_iff, isNaN_fNeg, units_fNeg]
    exact ⟨hn, hn, by decide, by omega, by omega⟩
  | true =>
    obtain ⟨hraw, hg⟩ := isFinite_factors_of_fMul hf
    have hprod : within (fNeg c.masterGain) c.masterGain (fMul raw c.masterGain) = true :=
      within_fMul_sym (b := lit1) (d := c.masterGain) (h hraw) hself (by decide) hg hn
        (by rw [units_one_bounds.1, mul_comm])
    rw [guardSample_of_finite hf]
    exact clampF_within_sym hprod hnb (safetyBound_pos hl).le

/-- PROCESS answers the guarded sample and keeps it as the last one. -/
theorem exec_process_sample {s t : State} (h : exec .process s = .next t) :
    t.port.rspData = guardSample s.cfg (synthesise s).2 ∧ t.eng.lastSample = t.port.rspData := by
  obtain rfl := answer_next_iff.1 h
  exact ⟨rfl, rfl⟩

/-- Settles O40: the guard holds every sample in the safety range; the soft clip of the voices and the numeric
invariants give the closer bounds. -/
theorem outputBound : Obligations.OutputBound := by
  refine ⟨fun s t hl h => ?safety, fun s t hl h => ?gain, fun s t hi hn h => ?default, fun v => by cases v <;> simp⟩
  all_goals obtain ⟨hsample, hlast⟩ := exec_process_sample h
  case safety => exact ⟨hsample ▸ guardSample_inSafetyRange hl _, hlast⟩
  case gain =>
    rw [hsample]
    exact guardSample_within_gain hl synthesise_within
  case default =>
    obtain ⟨-, hraw⟩ := numeric_synthesise hn hi
    exact ⟨hsample ▸ guardSample_within hn.isDefault hraw, (numeric_exec hi hn h).statusLevel⟩

end Sys2Proof.Proofs
end

section
/-!
PROOFS. There is no exception (60_exceptions.md R360): every command answers, and a step stops only at an illegal
configuration and at an unassigned opcode (00_scope.md R13, 30_encoding.md R134).
-/

namespace Sys2Proof.Proofs

open Sys2Proof.Machine Sys2Proof.Laws

/-! ### Every command answers, and leaves the surroundings alone -/

@[simp] theorem writeControl_cfg (id : Nat) (x : F32) (s : State) : (writeControl id x s).cfg = s.cfg := rfl
@[simp] theorem writeControl_host (id : Nat) (x : F32) (s : State) : (writeControl id x s).host = s.host := rfl

/-- What no command writes beside the port: the configuration and the surroundings. -/
theorem exec_cfg_host {i : Instr} {s t : State} (h : exec i s = .next t) : t.cfg = s.cfg ∧ t.host = s.host := by
  cases effect_of_exec h with
  | process =>
    obtain ⟨hcfg, -, -, -, -, -, hhost, -⟩ := synthesise_cases s (synthesise s).1 (synthesise s).2 rfl
    simp [hcfg, hhost]
  | setVoice v =>
    obtain ⟨hcfg, -, -, -, -, -, -, hhost, -, -⟩ := switchVoice_frame (voiceOf v) s (switchVoice (voiceOf v) s) rfl
    simp [hcfg, hhost]
  | _ => simp

/-- Settles O14: the answer exists arm by arm; the port and the surroundings after it come from the command's effect. -/
theorem everyCommandAnswers : Obligations.EveryCommandAnswers := by
  intro i s
  obtain ⟨t, ht⟩ := exec_answers i s
  obtain ⟨hvalid, hflight⟩ := exec_port ht
  obtain ⟨hcfg, hhost⟩ := exec_cfg_host ht
  exact ⟨t, ht, hvalid, hcfg, hhost, hflight⟩

/-! ### Where a step stops -/

section
variable {s : State} (hl : s.cfg.legal = true)
include hl

theorem step_of_reset (hr : (edgeInput s.host).rst = true) :
    step s = .next (State.resetWith s.cfg (hostStep s.host)) := by
  simp only [step, hl, clockEdge, hr, if_true]

/-- A due frame that does not decode is refused by its opcode (30_encoding.md R134). -/
theorem step_of_due_unassigned {f : Frame} (hr : (edgeInput s.host).rst = false)
    (hp : s.port.inFlight = some { frame := f, wait := 0 }) (hn : operandTypeOf (opcodeOf f) = none) :
    step s = .refused (.unassignedOpcode (opcodeOf f)) := by
  obtain ⟨_, _, ht, -⟩ | ⟨-, hd⟩ := decode_cases f
  · rw [hn] at ht
    cases ht
  · simp only [step, hl, clockEdge, hr, hp, runFrame, hd, if_true, Bool.false_eq_true, if_false]

/-- A due frame with an assigned opcode decodes, and its command answers. -/
theorem step_answers_of_due_assigned {f : Frame} (hr : (edgeInput s.host).rst = false)
    (hp : s.port.inFlight = some { frame := f, wait := 0 }) (ha : operandTypeOf (opcodeOf f) ≠ none) :
    ∃ t, step s = .next t := by
  obtain ⟨_, i, -, hd, -⟩ | ⟨hn, -⟩ := decode_cases f
  · rw [step_of_due hl hr hp hd]
    exact exec_answers i _
  · exact absurd hn ha

/-- Without reset the one edge at which a step could stop is that of a due frame. -/
theorem step_answers_of_no_reset (hr : (edgeInput s.host).rst = false)
    (ha : ∀ f, s.port.inFlight = some { frame := f, wait := 0 } → operandTypeOf (opcodeOf f) ≠ none) :
    ∃ t, step s = .next t := by
  rcases hp : s.port.inFlight with _ | ⟨f, _ | n⟩
  · exact ⟨_, step_of_ready hl hr hp⟩
  · exact step_answers_of_due_assigned hl hr hp (ha f hp)
  · exact ⟨_, step_of_waiting hl hr hp⟩

end

/-- Settles O15: the two refusals, and an answer at a reset edge and at each kind of edge without reset. -/
theorem stepStopsOnlyWhereAsked : Obligations.StepStopsOnlyWhereAsked := by
  refine fun s => ⟨step_of_illegal, fun _ hl => step_of_due_unassigned hl, fun hl hcase => ?answers⟩
  case answers =>
    cases hr : (edgeInput s.host).rst with
    | true => exact ⟨_, step_of_reset hl hr⟩
    | false => exact step_answers_of_no_reset hl hr (hcase.resolve_left (by simp [hr]))

end Sys2Proof.Proofs
end

section
/-!
PROOFS. Reset and the hazards between commands (70_reset_and_hazards.md R390 to R392, R394, R405, R406): the reset edge, the
gate that NOTE_ON forces, the oscillators a PROCESS does not read, and the silence of an idle envelope.
-/

namespace Sys2Proof.Proofs

open Sys2Proof.Machine Sys2Proof.Laws

/-! ### The reset edge -/

/-- The two envelope rates of the reset state: at control 0.0 each time is its shortest one (40_numerics.md R165). -/
theorem resetWith_env (c : Params) (h : HostSide) :
    (State.resetWith c h).env = { stage := .idle, level := lit0, attackRate := fDiv lit1 (fMul lit0_001 c.sampleRate)
                                  decayCoeff := powF c.fns lit0_001 (fDiv lit1 (fMul lit0_01 c.sampleRate)) } := by
  rw [State.resetWith, attackRateOf, decayCoeffOf, expMap_zero c (by decide) (by decide) (by decide),
    expMap_zero c (by decide) (by decide) (by decide)]

/-- Every register but VERB_EXCITE resets to 0.0 (10_state.md R42). -/
theorem regOfId_resetRegs {id : Nat} (h₁ : 0x01 ≤ id) (h₂ : id ≤ 0x0D) : regOfId State.resetRegs id = some lit0 := by
  interval_cases id <;> rfl

/-- The harmonics of the reset state are those a trigger leaves. -/
theorem resetWith_harmonics (c : Params) (h : HostSide) (i : Fin 8) :
    (State.resetWith c h).cas.phase[i] = lit0 ∧ (State.resetWith c h).cas.henv[i] = lit1 :=
  casTrigger_harmonics (State.resetWith c h).cas i

/-- The write indices and the filter states of the reset state are those RES.reset leaves. -/
theorem resetWith_indices_and_filters (c : Params) (h : HostSide) :
    (∀ k : Fin 4, (State.resetWith c h).res.combW[k] = 0 ∧ (State.resetWith c h).res.lp[k] = lit0) ∧
      ∀ j : Fin 2, (State.resetWith c h).res.apW[j] = 0 :=
  resReset_indices_and_filters (State.resetWith c h).res

/-- Settles O8: the edge leaves `resetWith` of the configuration, whose fields are read off. -/
theorem hardwareReset : Obligations.HardwareReset := by
  refine ⟨⟨rfl, by decide +kernel⟩, fun s hl hr => ?_⟩
  obtain ⟨hcomb, hap⟩ := resetWith_indices_and_filters s.cfg (hostStep s.host)
  have hharmonics := resetWith_harmonics s.cfg (hostStep s.host)
  exact ⟨_, step_of_reset hl hr, rfl, rfl, fun id => regOfId_resetRegs, rfl, rfl, resetWith_env _ _, rfl,
    fun i => (hharmonics i).1, fun i => (hharmonics i).2, rfl, rfl, rfl, rfl, rfl, rfl, rfl, rfl, rfl, hcomb, hap,
    delayRead_resetWith _ _, rfl, rfl, rfl⟩

/-- Settles O9: the reset edge reads the configuration and the surroundings alone, and empties the port. -/
theorem resetWins : Obligations.ResetWins := by
  intro s p hl hr
  have hstep := step_of_reset hl hr
  have hother : step (s.putPort p) = .next (State.resetWith s.cfg (hostStep s.host)) :=
    step_of_reset (s := s.putPort p) hl hr
  exact ⟨hother.trans hstep.symm, _, hstep, rfl, rfl, rfl, rfl, rfl, rfl⟩

/-! ### The gate -/

/-- GATE 0 and NOTE_OFF are the only commands that clear a gate that is 1. -/
theorem exec_keeps_gate {i : Instr} {s t : State} (h : exec i s = .next t) (hg : s.eng.gate = true)
    (hgate : i ≠ .gate false) (hoff : i ≠ .noteOff) : t.eng.gate = true := by
  cases effect_of_exec h with
  | gateOff => exact absurd rfl hgate
  | noteOff => exact absurd rfl hoff
  | gateOn | noteOn => rfl
  | setVoice v hv =>
    obtain ⟨-, -, -, -, -, -, -, -, heng, -⟩ := switchVoice_frame (voiceOf v) s (switchVoice (voiceOf v) s) rfl
    rw [respond_eng, heng]
    exact hg
  | process =>
    obtain ⟨-, -, -, heng, -⟩ := synthesise_cases s (synthesise s).1 (synthesise s).2 rfl
    rw [respond_eng, recordSample_gate, heng]
    exact hg
  | read | sameVoice | sameGate | control | setFrequency => exact hg

/-- GATE 1 triggers again from every state with the gate 0 (45_engine.md R312). -/
theorem exec_gate_retriggers {s : State} (h : s.eng.gate = false) :
    ∃ t, exec (.gate true) s = .next t ∧ t.env.stage = .attack ∧ t.eng.gate = true :=
  ⟨_, exec_gate_of_rising h, rfl, rfl⟩

/-- While a note sounds, the release puts the envelope into Decay (41_envelope.md R173). -/
theorem envRelease_stage {e : EnvState} (h : e.stage ≠ .idle) : (envRelease e).stage = .decay := if_neg h

/-- Settles O37: after NOTE_ON the gate is 1 and the envelope in Attack, so GATE 1 is no edge, and GATE 0 and NOTE_OFF
release. -/
theorem noteOnForcesTheGate : Obligations.NoteOnForcesTheGate := by
  refine ⟨fun i s t => exec_keeps_gate, fun f s => ?_⟩
  obtain ⟨t, ht⟩ := exec_answers (.noteOn f) s
  obtain ⟨henv, -, -, -, heng, -⟩ := exec_noteOn_parts ht
  have hgate : t.eng.gate = true := by rw [heng]
  have hstage : t.env.stage ≠ .idle := by rw [henv]; nofun
  obtain ⟨w, hexec, hattack, hon⟩ :=
    exec_gate_retriggers (s := respond 0 (setGate false (t.putEnv (envRelease t.env)))) rfl
  exact ⟨t, respond 0 t, _, w, _, w, ht, hgate, exec_gate_of_same hgate, respond_sameBlock 0 t, exec_gate_of_falling hgate,
    envRelease_stage hstage, rfl, hexec, hattack, hon, rfl, envRelease_stage hstage, rfl, hexec, hattack, hon⟩

/-! ### The oscillators that are not active -/

/-- The raw sample depends on the active oscillator, the envelope, the registers and the configuration alone. -/
theorem synthesise_sample_of_agree {s s' : State} (h : AgreeOnActiveVoice s s') : (synthesise s').2 = (synthesise s).2 := by
  obtain ⟨hcfg, hreg, henv, heng, hcas, hfm, hres⟩ := h
  obtain ⟨cas, fm, res⟩ := synthesise_voice s
  obtain ⟨cas', fm', res'⟩ := synthesise_voice s'
  rw [hcfg, hreg, henv, heng] at cas' fm' res'
  cases hv : s.eng.voice with
  | cascade =>
    rw [hcas hv] at cas'
    exact (Prod.mk.inj ((cas' hv).1.trans (cas hv).1.symm)).2
  | fm =>
    rw [hfm hv] at fm'
    exact (Prod.mk.inj ((fm' hv).1.trans (fm hv).1.symm)).2
  | resonator =>
    rw [hres hv] at res'
    exact (Prod.mk.inj ((res' hv).1.trans (res hv).1.symm)).2

/-- What PROCESS leaves in the engine: the meter and the last sample take the sample it answers (45_engine.md R315). -/
theorem exec_process_eng {s t : State} (h : exec .process s = .next t) :
    t.eng = { s.eng with meter := nextMeter s.eng.meter t.port.rspData, lastSample := t.port.rspData } := by
  obtain rfl := answer_next_iff.1 h
  obtain ⟨-, -, -, heng, -⟩ := synthesise_cases s (synthesise s).1 (synthesise s).2 rfl
  rw [respond_eng, recordSample_eng, heng]
  rfl

/-- Settles O41: the sample is the same, and the envelope, the engine state and the status follow from it. -/
theorem inactiveVoicesAreUnread : Obligations.InactiveVoicesAreUnread := by
  intro s s' t t' h ht ht'
  have hraw := synthesise_sample_of_agree h
  obtain ⟨hcfg, -, henv, heng, -⟩ := h
  have hsample : t'.port.rspData = t.port.rspData := by
    obtain ⟨hs, -⟩ := exec_process_sample ht
    obtain ⟨hs', -⟩ := exec_process_sample ht'
    rw [hs', hs, hcfg, hraw]
  have henv' : t'.env = t.env := by rw [exec_process_env ht', exec_process_env ht, henv]
  have heng' : t'.eng = t.eng := by rw [exec_process_eng ht', exec_process_eng ht, heng, hsample]
  exact ⟨hsample, henv', heng', by rw [process_status ht', process_status ht, henv', heng']⟩

/-! ### The idle envelope -/

theorem fMul_comm_of_finite {x y : F32} (hx : isFinite x = true) (hy : isFinite y = true) : fMul x y = fMul y x := by
  rw [fMul_finite hx hy, fMul_finite hy hx, bne_comm, Nat.mul_comm]

/-- Inf × 0 (40_numerics.md R141). -/
theorem isNaN_fMul_inf_zero {x z : F32} (hx : isInf x = true) (hz : magBits z = 0) : isNaN (fMul x z) = true := by
  have hn : isNaN z = false := isFinite_not_isNaN (isFinite_of_magBits_eq_zero hz)
  simp [fMul, isInf_not_isNaN hx, hn, hx, hz]

/-- A product with a zero is a zero, or a NaN when the other factor is not finite (40_numerics.md R141). -/
theorem fMul_zero_or_nan (x : F32) {z : F32} (hz : magBits z = 0) :
    isNaN (fMul x z) = true ∨ magBits (fMul x z) = 0 := by
  cases hx : isFinite x with
  | true =>
    rw [fMul_comm_of_finite hx (isFinite_of_magBits_eq_zero hz)]
    exact .inr (magBits_fMul_of_zero hz hx)
  | false =>
    refine .inl ?_
    cases hn : isNaN x with
    | true =>
      obtain ⟨-, -, hmul, -⟩ := isNaN_of_nan_operand (y := z) (.inl hn)
      exact hmul
    | false =>
      have hle : infMag ≤ magBits x := not_lt.1 fun hlt => ne_true_of_eq_false hx (isFinite_iff.2 hlt)
      exact isNaN_fMul_inf_zero (isInf_iff.2 (hle.antisymm' (isNaN_false_iff.1 hn))) hz

/-- The soft clip keeps a NaN and a zero (40_numerics.md R143). -/
theorem softclip_zero_or_nan (c : Params) {x : F32} (h : isNaN x = true ∨ magBits x = 0) :
    isNaN (softclip c x) = true ∨ magBits (softclip c x) = 0 :=
  h.imp (isNaN_tanhF c.fns) fun hz => by rwa [softclip, tanhF_zero c.fns hz]

/-- At level 0.0 every voice's raw sample is the soft clip of a product with a zero. -/
theorem synthesise_of_idle {s : State} (h : s.env.stage = .idle) :
    isNaN (synthesise s).2 = true ∨ magBits (synthesise s).2 = 0 := by
  obtain ⟨-, -, -, -, -, -, -, hvoice⟩ := synthesise_cases s (synthesise s).1 (synthesise s).2 rfl
  rw [envProcess_of_idle h] at hvoice
  have hscaled : magBits (fMul lit0 lit10) = 0 := magBits_fMul_of_zero rfl rfl
  obtain ⟨-, -, hraw, -⟩ | ⟨-, -, hraw, -⟩ | ⟨-, -, hraw, -⟩ := hvoice <;> rw [hraw]
  · exact softclip_zero_or_nan _ (fMul_zero_or_nan _ rfl)
  · exact softclip_zero_or_nan _ (fMul_zero_or_nan _ rfl)
  · exact softclip_zero_or_nan _ (fMul_zero_or_nan _ hscaled)

/-- The safety range holds [-1, 1] (00_scope.md R13). -/
theorem within_safety_of_unit {c : Params} (hl : c.legal = true) {x : F32} (h : within litNeg1 lit1 x = true) :
    within (fNeg c.safetyBound) c.safetyBound x = true := by
  obtain ⟨-, -, -, -, -, -, -, -, -, -, -, -, -, -, hs⟩ := legal_facts hl
  obtain ⟨hn, -, hlt⟩ := fGt_iff.1 hs
  have hneg : units litNeg1 = -units lit1 := by decide
  refine within_mono h (fLe_iff.2 ⟨by rwa [isNaN_fNeg], by decide, ?_⟩) (fLe_iff.2 ⟨by decide, hn, hlt.le⟩)
  rw [units_fNeg]
  omega

/-- The guard answers a zero for a NaN and for a zero (60_exceptions.md R361). -/
theorem guardSample_zero_or_nan {c : Params} (hl : c.legal = true) {raw : F32}
    (h : isNaN raw = true ∨ magBits raw = 0) : magBits (guardSample c raw) = 0 := by
  cases hf : isFinite (fMul raw c.masterGain) with
  | false => rw [guardSample_of_not_finite hl hf]; rfl
  | true =>
    obtain ⟨hraw, hgain⟩ := isFinite_factors_of_fMul hf
    have hz : magBits raw = 0 := h.resolve_left (by simp [isFinite_not_isNaN hraw])
    have hprod : magBits (fMul raw c.masterGain) = 0 := magBits_fMul_of_zero hz hgain
    rw [guardSample_of_finite hf, clampF_of_within (within_safety_of_unit hl (zero_within hprod))]
    exact hprod

/-- Settles O42: the idle envelope stays at level 0.0, and the raw sample at that level is one the guard makes a zero. -/
theorem idleIsSilent : Obligations.IdleIsSilent := by
  intro s t hl hs ht
  obtain ⟨hsample, -⟩ := exec_process_sample ht
  rw [hsample, exec_process_env ht, envProcess_of_idle hs]
  exact ⟨guardSample_zero_or_nan hl (synthesise_of_idle hs), hs, rfl⟩

end Sys2Proof.Proofs
end
